-- ==== Sys2Proof/Word.lean ====
section
/-! DEFINITION. The words of the WSFC block: one width of register, one width of buffer element (R12). -/

namespace Sys2Proof

/-- Every register of the block is 32 bits wide (R12). -/
abbrev Word := BitVec 32

/-- A buffer element and a wire byte: 8 bits (R12, R19). -/
abbrev Byte := BitVec 8

/-- A byte sequence, first byte first (R15). -/
abbrev Bytes := List Byte

/-- The bytes of an ASCII text, one byte a character: the spec's `ascii("…")` (R15). -/
def ascii (cs : List Char) : Bytes := cs.map fun c => BitVec.ofNat 8 c.toNat

end Sys2Proof
end

