-- ==== Sys2Proof/Syntax.lean ====
section
/-! DEFINITION. The instructions: the seven command words written to CMD (R81) and the sixteen wire headers a
frame begins with (R84, R90), one constructor per row of spec/opcode_table.json. -/

namespace Sys2Proof

/-- The fields of a frame's first two bytes other than OPCODE (R84). FIN, RSV1 to RSV3 and MASK are single bits;
LEN7 is a count, 0 to 127 (R30), which `Instr.wellFormed` checks. -/
structure WireHeader where
  fin : Bool
  rsv1 : Bool
  rsv2 : Bool
  rsv3 : Bool
  masked : Bool
  len7 : Nat
  deriving DecidableEq, Repr

/-- One constructor per row of the opcode table. A command has no operand field (R80): its operands stand in IN
and IN_LEN. A wire header carries the other fields of its two bytes; what follows them on the wire (extended
length, mask key, payload) stands in IN after them. -/
inductive Instr where
  | decode
  | encodeText
  | genPing
  | genPong
  | genClose
  | hsDetect
  | hsCompose
  | wsContinuation (h : WireHeader)
  | wsText (h : WireHeader)
  | wsBinary (h : WireHeader)
  | wsOpcode3 (h : WireHeader)
  | wsOpcode4 (h : WireHeader)
  | wsOpcode5 (h : WireHeader)
  | wsOpcode6 (h : WireHeader)
  | wsOpcode7 (h : WireHeader)
  | wsClose (h : WireHeader)
  | wsPing (h : WireHeader)
  | wsPong (h : WireHeader)
  | wsOpcodeB (h : WireHeader)
  | wsOpcodeC (h : WireHeader)
  | wsOpcodeD (h : WireHeader)
  | wsOpcodeE (h : WireHeader)
  | wsOpcodeF (h : WireHeader)
  deriving DecidableEq, Repr

/-- The two kinds of code an instruction has: a 32-bit command word (R80), or the 16-bit big-endian header word
`h = (b0 << 8) | b1` of a frame (R84). -/
inductive Code where
  | command (w : Word)
  | header (h : BitVec 16)
  deriving DecidableEq, Repr

/-- Why a code is no instruction. -/
inductive DecodeError where
  /-- A command word outside R81's table (R82); the block completes it with ILLEGAL_CMD (R261). -/
  | illegalCommand
  /-- Fewer than the two bytes a frame header needs (R131). -/
  | truncatedHeader
  deriving DecidableEq, Repr

end Sys2Proof
end

