-- ==== Sys2Proof/WellFormed.lean ====
section
/-! DEFINITION. Which terms of Instr the encodings can carry. -/

namespace Sys2Proof

/-- LEN7 is the 7-bit field `b1[6:0]` (R84): 0 to 127. The other fields of a header are single bits. -/
def WireHeader.wellFormed (h : WireHeader) : Bool := h.len7 ≤ 127

/-- A command has no operand field and is always well formed (R80); a wire header is when its LEN7 is. -/
def Instr.wellFormed : Instr → Bool
  | .decode | .encodeText | .genPing | .genPong | .genClose | .hsDetect | .hsCompose => true
  | .wsContinuation h | .wsText h | .wsBinary h | .wsOpcode3 h | .wsOpcode4 h | .wsOpcode5 h | .wsOpcode6 h
  | .wsOpcode7 h | .wsClose h | .wsPing h | .wsPong h | .wsOpcodeB h | .wsOpcodeC h | .wsOpcodeD h
  | .wsOpcodeE h | .wsOpcodeF h => h.wellFormed

end Sys2Proof
end

