-- ==== Sys2Proof/Decode.lean ====
section
/-! DEFINITION. From codes to instructions and back: the command word (R80 to R83) and the frame header
(R84, R90). After the decoder stands the encoder, written from the same tables, and the opcode table itself
as mask and pattern rows. -/

namespace Sys2Proof

/-- The command codes of R81, as the table gives them. -/
def opDecode : Byte := 0x01#8
def opEncodeText : Byte := 0x02#8
def opGenPing : Byte := 0x03#8
def opGenPong : Byte := 0x04#8
def opGenClose : Byte := 0x05#8
def opHsDetect : Byte := 0x06#8
def opHsCompose : Byte := 0x07#8

/-- `decodeCmd` of R83, total over all 2^32 words: a nonzero `CMD[31:8]` or an OP outside R81's table is no
command (R82). -/
def decodeCmd (v : Word) : Except DecodeError Instr :=
  if v.extractLsb' 8 24 ≠ 0#24 then .error .illegalCommand
  else
    let op : Byte := v.extractLsb' 0 8
    if op = opDecode then .ok .decode
    else if op = opEncodeText then .ok .encodeText
    else if op = opGenPing then .ok .genPing
    else if op = opGenPong then .ok .genPong
    else if op = opGenClose then .ok .genClose
    else if op = opHsDetect then .ok .hsDetect
    else if op = opHsCompose then .ok .hsCompose
    else .error .illegalCommand

/-- The instruction of a wire opcode with the other header fields: the opcode map of R90. -/
def Instr.ofOpcode (op : BitVec 4) (h : WireHeader) : Instr :=
  match op.toNat with
  | 0x0 => .wsContinuation h
  | 0x1 => .wsText h
  | 0x2 => .wsBinary h
  | 0x3 => .wsOpcode3 h
  | 0x4 => .wsOpcode4 h
  | 0x5 => .wsOpcode5 h
  | 0x6 => .wsOpcode6 h
  | 0x7 => .wsOpcode7 h
  | 0x8 => .wsClose h
  | 0x9 => .wsPing h
  | 0xA => .wsPong h
  | 0xB => .wsOpcodeB h
  | 0xC => .wsOpcodeC h
  | 0xD => .wsOpcodeD h
  | 0xE => .wsOpcodeE h
  | _ => .wsOpcodeF h

/-- OPCODE = `b0[3:0]` (R84, R132). -/
def opcodeOf (b0 : Byte) : BitVec 4 := b0.extractLsb' 0 4

/-- FIN, RSV1, RSV2 and RSV3 of byte 0, MASK and LEN7 of byte 1 (R84, R132, R133). -/
def headerFields (b0 b1 : Byte) : WireHeader where
  fin := b0.getLsbD 7
  rsv1 := b0.getLsbD 6
  rsv2 := b0.getLsbD 5
  rsv3 := b0.getLsbD 4
  masked := b1.getLsbD 7
  len7 := (b1.extractLsb' 0 7).toNat

/-- The instruction two header bytes stand for: every one of the 2^16 pairs is one (R132, R138). -/
def headerInstr (b0 b1 : Byte) : Instr := .ofOpcode (opcodeOf b0) (headerFields b0 b1)

/-- The frame header at the front of a byte sequence, with the bytes after it (R88: byte 1 alone tells the rest
of the header). Fewer than two bytes are no header (R131). -/
def decodeWire : Bytes → Except DecodeError (Instr × Bytes)
  | b0 :: b1 :: rest => .ok (headerInstr b0 b1, rest)
  | _ => .error .truncatedHeader

/-- The two bytes of a header word as they stand on the wire: the high byte first (R84). -/
def headerBytes (h : BitVec 16) : Bytes := [h.extractLsb' 8 8, h.extractLsb' 0 8]

/-- The decoder of either kind of code. -/
def decode : Code → Except DecodeError Instr
  | .command w => decodeCmd w
  | .header h => (decodeWire (headerBytes h)).map Prod.fst

/-- The instruction the decoder reads from a row of the opcode table: a 32-bit row is a command word in CMD, a
16-bit row a header word whose high byte is the frame's byte 0 (R84). -/
def decodeTableWord (nbits w : Nat) : Option Instr :=
  if 2 ^ nbits ≤ w then none
  else if nbits = 32 then (decode (.command (BitVec.ofNat 32 w))).toOption
  else if nbits = 16 then (decode (.header (BitVec.ofNat 16 w))).toOption
  else none

/-- The command word of an OP: `CMD[7:0] = OP`, `CMD[31:8] = 0` (R80). -/
def commandWord (op : Byte) : Word := 0#24 ++ op

/-- Byte 0 of a frame, high bit first: FIN RSV1 RSV2 RSV3 OPCODE (R84). -/
def WireHeader.byte0 (h : WireHeader) (op : BitVec 4) : Byte :=
  BitVec.ofBool h.fin ++ BitVec.ofBool h.rsv1 ++ BitVec.ofBool h.rsv2 ++ BitVec.ofBool h.rsv3 ++ op

/-- Byte 1 of a frame, high bit first: MASK LEN7 (R84). -/
def WireHeader.byte1 (h : WireHeader) : Byte := BitVec.ofBool h.masked ++ BitVec.ofNat 7 h.len7

/-- The header word `h = (b0 << 8) | b1` of a wire opcode and its other fields (R84). -/
def WireHeader.word (h : WireHeader) (op : BitVec 4) : BitVec 16 := h.byte0 op ++ h.byte1

/-- The code of an instruction (R81, R90). -/
def encode : Instr → Code
  | .decode => .command (commandWord opDecode)
  | .encodeText => .command (commandWord opEncodeText)
  | .genPing => .command (commandWord opGenPing)
  | .genPong => .command (commandWord opGenPong)
  | .genClose => .command (commandWord opGenClose)
  | .hsDetect => .command (commandWord opHsDetect)
  | .hsCompose => .command (commandWord opHsCompose)
  | .wsContinuation h => .header (h.word 0x0#4)
  | .wsText h => .header (h.word 0x1#4)
  | .wsBinary h => .header (h.word 0x2#4)
  | .wsOpcode3 h => .header (h.word 0x3#4)
  | .wsOpcode4 h => .header (h.word 0x4#4)
  | .wsOpcode5 h => .header (h.word 0x5#4)
  | .wsOpcode6 h => .header (h.word 0x6#4)
  | .wsOpcode7 h => .header (h.word 0x7#4)
  | .wsClose h => .header (h.word 0x8#4)
  | .wsPing h => .header (h.word 0x9#4)
  | .wsPong h => .header (h.word 0xA#4)
  | .wsOpcodeB h => .header (h.word 0xB#4)
  | .wsOpcodeC h => .header (h.word 0xC#4)
  | .wsOpcodeD h => .header (h.word 0xD#4)
  | .wsOpcodeE h => .header (h.word 0xE#4)
  | .wsOpcodeF h => .header (h.word 0xF#4)

/-- A row of the opcode table: the width of its code in bits, its mask and the pattern under the mask. -/
structure TableRow where
  width : Nat
  mask : Nat
  pattern : Nat
  deriving DecidableEq, Repr

/-- A row's code: `v` under the row's mask is the row's pattern. -/
def TableRow.accepts (r : TableRow) : Code → Bool
  | .command w => r.width == 32 && w.toNat &&& r.mask == r.pattern
  | .header h => r.width == 16 && h.toNat &&& r.mask == r.pattern

/-- spec/opcode_table.json, row by row: width, mask, match. -/
def opcodeTable : List TableRow :=
  [⟨32, 0xFFFFFFFF, 0x00000001⟩, ⟨32, 0xFFFFFFFF, 0x00000002⟩, ⟨32, 0xFFFFFFFF, 0x00000003⟩,
   ⟨32, 0xFFFFFFFF, 0x00000004⟩, ⟨32, 0xFFFFFFFF, 0x00000005⟩, ⟨32, 0xFFFFFFFF, 0x00000006⟩,
   ⟨32, 0xFFFFFFFF, 0x00000007⟩] ++
  [⟨16, 0x0F00, 0x0000⟩, ⟨16, 0x0F00, 0x0100⟩, ⟨16, 0x0F00, 0x0200⟩, ⟨16, 0x0F00, 0x0300⟩,
   ⟨16, 0x0F00, 0x0400⟩, ⟨16, 0x0F00, 0x0500⟩, ⟨16, 0x0F00, 0x0600⟩, ⟨16, 0x0F00, 0x0700⟩] ++
  [⟨16, 0x0F00, 0x0800⟩, ⟨16, 0x0F00, 0x0900⟩, ⟨16, 0x0F00, 0x0A00⟩, ⟨16, 0x0F00, 0x0B00⟩,
   ⟨16, 0x0F00, 0x0C00⟩, ⟨16, 0x0F00, 0x0D00⟩, ⟨16, 0x0F00, 0x0E00⟩, ⟨16, 0x0F00, 0x0F00⟩]

/-- The place of an instruction's row in `opcodeTable`. -/
def Instr.rowIndex : Instr → Nat
  | .decode => 0
  | .encodeText => 1
  | .genPing => 2
  | .genPong => 3
  | .genClose => 4
  | .hsDetect => 5
  | .hsCompose => 6
  | .wsContinuation _ => 7
  | .wsText _ => 8
  | .wsBinary _ => 9
  | .wsOpcode3 _ => 10
  | .wsOpcode4 _ => 11
  | .wsOpcode5 _ => 12
  | .wsOpcode6 _ => 13
  | .wsOpcode7 _ => 14
  | .wsClose _ => 15
  | .wsPing _ => 16
  | .wsPong _ => 17
  | .wsOpcodeB _ => 18
  | .wsOpcodeC _ => 19
  | .wsOpcodeD _ => 20
  | .wsOpcodeE _ => 21
  | .wsOpcodeF _ => 22

end Sys2Proof
end

