-- ==== Sys2Proof/Config.lean ====
section
/-! DEFINITION. What is fixed for one block and its host (R7 to R13, R66), and the external functions the spec
names without giving them a body (R11, R232, R251). The parameters are plain data that State carries, so a claim
about every state is a claim about every configuration; the external functions are constants with no body, so no
proof can see a value of theirs. -/

namespace Sys2Proof

/-- HANDSHAKE_CHECK of R13: when the reference host looks for a `GET` (R233, C1). -/
inductive HandshakeCheck where
  | firstReadOnly
  | whileAwaiting
  deriving DecidableEq, Repr

/-- HOST_REASSEMBLY of R13: what the reference host does with a frame split across reads (R236, C3). -/
inductive Reassembly where
  | drop
  | accumulate
  deriving DecidableEq, Repr

/-- UNHANDLED_OPCODE of R13: the reference host's reaction to an opcode with no predicate (R243). -/
inductive UnhandledOpcode where
  | ignore
  | close
  deriving DecidableEq, Repr

/-- The parameters of the block (R7 to R10), of its place in the host's address space (R66) and of the
reference host (R13). -/
structure Config where
  /-- IN_CAP, what CAP_IN reads as (R7, R37). -/
  inCap : Word
  /-- OUT_CAP, what CAP_OUT reads as (R8, R37). -/
  outCap : Word
  /-- MAX_ENCODE_LEN (R9). -/
  maxEncodeLen : Nat
  /-- HS_GET_CASE_INSENSITIVE (R10). -/
  getCaseInsensitive : Bool
  /-- REG_BASE, IN_BASE and OUT_BASE, which no rule of the spec reads (R66). -/
  regBase : Nat
  inBase : Nat
  outBase : Nat
  /-- HANDSHAKE_CHECK (R13). -/
  handshakeCheck : HandshakeCheck
  /-- HOST_REASSEMBLY (R13). -/
  reassembly : Reassembly
  /-- UNHANDLED_OPCODE (R13). -/
  unhandledOpcode : UnhandledOpcode
  /-- READ_MAX (R13). -/
  readMax : Nat
  deriving DecidableEq, Repr

/-- The configuration the spec allows: R7, R8, R9 and R13's range of READ_MAX. The upper bounds of R7 and R8
are the width of the capacities. -/
def Config.wf (c : Config) : Bool :=
  2 ≤ c.inCap.toNat && 2 ≤ c.outCap.toNat && 65536 ≤ c.maxEncodeLen && c.maxEncodeLen ≤ 2 ^ 63 - 1
    && 1 ≤ c.readMax && c.readMax ≤ c.inCap.toNat

/-- The further conditions under which R245 derives that the reference host meets no interface error. -/
def Config.roomy (c : Config) : Bool :=
  c.inCap.toNat + 10 ≤ c.outCap.toNat && 129 ≤ c.outCap.toNat

/-- The recommended configuration that 95_test_vectors.md runs its vectors under, with the default of every
parameter that has one (R9, R10, R13). DESIGN CHOICE (log 2): the capacities, READ_MAX and the bases are OPEN.
Unsafe where a claim is made about State.reset alone; safe for a claim about every state. -/
def Config.recommended : Config where
  inCap := 65546#32
  outCap := 65556#32
  maxEncodeLen := 2 ^ 31 - 1
  getCaseInsensitive := false
  regBase := 0
  inBase := 0
  outBase := 0
  handshakeCheck := .firstReadOnly
  reassembly := .drop
  unhandledOpcode := .ignore
  readMax := 65546

/-- SHA1 of R11: an external total function, 20 bytes from any bytes. No body (log 3). -/
opaque Config.sha1 : Bytes → Vector Byte 20

/-- BASE64 of R11: an external total function of 20 bytes. No body (log 3). -/
opaque Config.base64 : Vector Byte 20 → Bytes

/-- ValidateText of R251: an uninterpreted oracle of the host. No body (log 4). -/
opaque Config.validateText : Bytes → Bool

/-- StoreRecord of R251 on its `n`-th call of a collaborator: `true` is success. No body; the same text may
be stored once and fail another time (log 4). -/
opaque Config.storeRecord : Nat → Bytes → Bool

/-- Write of R232 on its `n`-th call of a collaborator: `true` is ok, `false` TransportError. No body (log 4). -/
opaque Config.writeOk : Nat → Bytes → Bool

end Sys2Proof
end

