-- ==== Sys2Proof/Machine/State.lean ====
section
/-! DEFINITION. The state: the architectural state of the block (R20), the configuration it was built with (R7 to
R13), and the other agents of the system (R68, R111): the host, as the accesses it makes and as the reference host
of 45_host_connection.md, and the order in which the agents move. All of it is plain data. -/

namespace Sys2Proof.Machine

/-- A byte buffer, IN or OUT (R39, R40): the written bytes, each with its index, in rising order of the index. An
index that is not listed is unwritten. -/
abbrev Memory := List Host.Cell

/-- The thirteen registers of R22. -/
inductive Reg where
  | cmd
  | status
  | inLen
  | outLen
  | frCtrl
  | frPlenLo
  | frPlenHi
  | frMaskKey
  | frFrameLen
  | classBits
  | result
  | capIn
  | capOut
  deriving DecidableEq, Repr

/-- The outcome codes of R260. Codes 9 to 15 are reserved and never written (R27). -/
inductive ErrCode where
  | success
  | truncHeader
  | truncPayload
  | lenRange
  | sizeLimit
  | hsNoKey
  | illegalCmd
  | inLenRange
  | outOverflow
  deriving DecidableEq, Repr

/-- What a command's input is (R113): longer than IN, with an unwritten byte in it, or the bytes. -/
inductive Input where
  | tooLong
  | unwritten
  | bytes (s : Bytes)
  deriving DecidableEq, Repr

/-- The four bytes of a mask key in wire order (R139). -/
structure MaskKey where
  k0 : Byte
  k1 : Byte
  k2 : Byte
  k3 : Byte
  deriving DecidableEq, Repr

/-- The new values of the frame-field registers a successful DECODE writes (R151). -/
structure FrameRegs where
  ctrl : Word
  plenLo : Word
  plenHi : Word
  maskKey : Word
  frameLen : Word
  deriving DecidableEq, Repr

/-- What a successful command writes (R81, R119): an output sequence, the frame-field registers, RESULT. -/
structure Effect where
  out : Option Bytes := none
  frame : Option FrameRegs := none
  result : Option Word := none
  deriving DecidableEq, Repr

/-- Whose step comes next where there is a choice (R68), or the platform's reset input (R292). -/
inductive Agent where
  | host
  | codec
  | resetInput
  deriving DecidableEq, Repr

/-- A host access (R61, R95). A register access carries its width in bytes and its byte offset, so that the ones
R64 forbids can be written down. There is no host write of OUT (R61). -/
inductive HostAccess where
  | regWrite (width off : Nat) (v : Word)
  | regRead (width off : Nat)
  | inWrite (i : Nat) (b : Byte)
  | inRead (i : Nat)
  | outRead (i : Nat)
  deriving DecidableEq, Repr

/-- One line of a host program (R94): an access, or the polling loop `wait`. -/
inductive HostOp where
  | access (a : HostAccess)
  | wait
  deriving DecidableEq, Repr

/-- What a host read returned (R61). -/
inductive ReadValue where
  | word (v : Word)
  | byte (b : Byte)
  deriving DecidableEq, Repr

/-- What the transport's Read returns (R232): bytes, none at the end of the stream, or TransportError. -/
inductive ReadResult where
  | bytes (r : Bytes)
  | transportError
  deriving DecidableEq, Repr

/-- CONN of R230: AWAIT_HS, OPEN, CLOSED. -/
inductive Conn where
  | awaitHs
  | opened
  | closed
  deriving DecidableEq, Repr

/-- What the reference host wants the bytes of OUT for: the 101 response (R233), a reply frame (R238, R239), or
the text of a text frame (R238). -/
inductive Purpose where
  | response
  | reply
  | text
  deriving DecidableEq, Repr

/-- Where the reference host stands in its loop (R249) once it has made every access of its script. -/
inductive Phase where
  /-- about to call Read (R249) -/
  | read
  /-- HS_DETECT of the read `r` is done; STATUS is read next (R248) -/
  | detected (r : Bytes)
  /-- HS_DETECT of the read `r` succeeded; RESULT is read next (R233) -/
  | detectResult (r : Bytes)
  /-- the command whose output is wanted for `p` is done: HS_COMPOSE for the response (R233), GEN_PONG or ENCODE_TEXT
  for a reply (R238, R239); STATUS is read next (R248) -/
  | ran (p : Purpose)
  /-- DECODE is done; STATUS is read next (R234) -/
  | decoded
  /-- a frame was decoded; under ACCUMULATE, FR_FRAMELEN is read next (R236) -/
  | frameLen
  /-- a frame was decoded; CLASS is read next (R237) -/
  | classify
  /-- OUT_LEN is read next -/
  | outLength (p : Purpose)
  /-- `n` bytes of OUT are wanted and `got` have been read -/
  | collect (p : Purpose) (n : Nat) (got : Bytes)
  /-- about to call Write (R232) -/
  | write (p : Purpose) (out : Bytes)
  /-- about to call ValidateText (R238) -/
  | validate (text : Bytes)
  /-- about to call StoreRecord (R238) -/
  | store (text : Bytes)
  /-- the connection resource is released (R242) -/
  | closed
  deriving DecidableEq, Repr

/-- The host's side of the system. -/
structure HostSide where
  /-- the accesses the host has still to make, in program order (R68, R94) -/
  script : List HostOp
  /-- what the accesses of the script have read, oldest first (R94) -/
  seen : List ReadValue
  /-- CONN (R230) -/
  conn : Conn
  /-- where the reference host stands (R249) -/
  phase : Phase
  /-- the results of the transport's next Reads, first to come first (R232) -/
  inbox : List ReadResult
  /-- the byte queue Q of ACCUMULATE (R236) -/
  queue : Bytes
  /-- what has been written to the transport, one entry a Write, oldest first (R232) -/
  sent : List Bytes
  /-- the texts handed to StoreRecord, oldest first (R238) -/
  stored : List Bytes
  /-- the model's own: how often a collaborator's answer has been drawn (log 4) -/
  draws : Nat
  deriving DecidableEq, Repr

/-- Why the machine stops: the host faults of R266, and one read the rules leave to I11. Each is an action of the
host that the interface forbids; a real block would go on in some way the spec does not give, so every one is
safe. The codec agent raises only `unwrittenInput`; the others are raised by a host access. -/
inductive Fault where
  /-- A register access at no offset of R22, or not 32 bits wide (R64). Raised by a host register access. Safe. -/
  | badRegAccess
  /-- A write to an RO or C register (R64). Raised by a host register write. Safe. -/
  | writeReadOnly
  /-- An IN index at or above IN_CAP, or an OUT index at or above OUT_CAP (R64). Raised by a host buffer access.
  Safe. -/
  | badBufferIndex
  /-- A write to CMD, IN_LEN or IN while BUSY = 1 (R296). Raised by a host write. Safe. -/
  | writeWhileBusy
  /-- A read of a result register, IN_LEN, IN or OUT while BUSY = 1 (R297). Raised by a host read. Safe. -/
  | readWhileBusy
  /-- A command reads an unwritten byte of `IN[0 .. IN_LEN-1]` (R117, R298). Raised by a completion. Safe. -/
  | unwrittenInput
  /-- A host read of an unwritten OUT byte (R40, R298). Raised by a host OUT read. Safe. -/
  | unwrittenOutput
  /-- A host read of an unwritten IN byte. DEDUCED (log 6) from I11. Raised by a host IN read. Safe. -/
  | unwrittenInRead
  deriving DecidableEq, Repr

/-- Why the machine refuses. Safe. -/
inductive Refusal where
  /-- An instruction that has no meaning yet. Raised by exec alone; no arm of exec raises it now. Safe. -/
  | notModelled (mnemonic : String)
  deriving DecidableEq, Repr

/-- The state of the whole system. The registers and buffers of the block stand first, in the order of R22; CLASS
is computed (R35) and CAP_IN and CAP_OUT are in the configuration (R37). -/
structure State where
  cmd : Word
  status : Word
  inLen : Word
  outLen : Word
  frCtrl : Word
  frPlenLo : Word
  frPlenHi : Word
  frMaskKey : Word
  frFrameLen : Word
  result : Word
  inBuf : Memory
  outBuf : Memory
  cfg : Config
  schedule : List Agent
  host : HostSide
  deriving DecidableEq, Repr

/-- The host as a connection is accepted (R230, R295): CONN = AWAIT_HS, nothing read, nothing written. -/
def HostSide.initial : HostSide where
  script := []
  seen := []
  conn := .awaitHs
  phase := .read
  inbox := []
  queue := []
  sent := []
  stored := []
  draws := 0

/-- The state after reset for a configuration (R290, R293): every register 0, every byte of IN and OUT unwritten,
no command pending; and the host as at accept (R295). -/
def State.resetWith (c : Config) : State where
  cmd := 0#32
  status := 0#32
  inLen := 0#32
  outLen := 0#32
  frCtrl := 0#32
  frPlenLo := 0#32
  frPlenHi := 0#32
  frMaskKey := 0#32
  frFrameLen := 0#32
  result := 0#32
  inBuf := []
  outBuf := []
  cfg := c
  schedule := []
  host := .initial

/-- The state after reset (R290) in the recommended configuration (log 2). -/
def State.reset : State := .resetWith .recommended

end Sys2Proof.Machine
end

