-- ==== Sys2Proof/Machine/Flags.lean ====
section
/-! DEFINITION. The flag-like fields (R43) and the registers that are made of fields: STATUS (R25), FR_CTRL (R30),
CLASS (R35), RESULT (R36), and the values of the frame-field registers (R32, R33, R34). -/

namespace Sys2Proof.Machine

/-- The code of an outcome in STATUS.ERR (R260). -/
def ErrCode.code : ErrCode → BitVec 4
  | .success => 0#4
  | .truncHeader => 1#4
  | .truncPayload => 2#4
  | .lenRange => 3#4
  | .sizeLimit => 4#4
  | .hsNoKey => 5#4
  | .illegalCmd => 6#4
  | .inLenRange => 7#4
  | .outOverflow => 8#4

/-- STATUS.BUSY, bit 0 (R25). -/
def statusBusy (st : Word) : Bool := st.getLsbD 0

/-- STATUS.ERR, bits 7:4 (R25). -/
def statusErr (st : Word) : BitVec 4 := st.extractLsb' 4 4

/-- STATUS with BUSY set or cleared and every other bit as it was. -/
def statusWithBusy (st : Word) (b : Bool) : Word := (st &&& 0xFFFFFFFE#32) ||| (BitVec.ofBool b).setWidth 32

/-- STATUS with ERR replaced and every other bit as it was. -/
def statusWithErr (st : Word) (e : BitVec 4) : Word := (st &&& 0xFFFFFF0F#32) ||| (e.setWidth 32 <<< 4)

/-- STATUS at completion: `ERR <- code`, `BUSY <- 0` (R113). -/
def statusCompleted (st : Word) (e : ErrCode) : Word := statusWithBusy (statusWithErr st e.code) false

/-- A STATUS the rules allow: the reserved bits 3:1 and 31:8 read 0 and ERR is 0 to 8 (R25, R27). -/
def statusLegal (st : Word) : Bool := st &&& 0xFFFFFF0E#32 == 0#32 && decide ((statusErr st).toNat ≤ 8)

/-- FR_CTRL of a frame: byte 0 at bits 7:0, byte 1 at bits 15:8, HDRLEN at bits 19:16 (R30, R150). -/
def frCtrlWord (b0 b1 : Byte) (hdr : Nat) : Word :=
  b0.setWidth 32 ||| (b1.setWidth 32 <<< 8) ||| (BitVec.ofNat 32 hdr <<< 16)

/-- The fields of FR_CTRL (R30). -/
def frCtrlOpcode (w : Word) : BitVec 4 := w.extractLsb' 0 4
def frCtrlRsv3 (w : Word) : Bool := w.getLsbD 4
def frCtrlRsv2 (w : Word) : Bool := w.getLsbD 5
def frCtrlRsv1 (w : Word) : Bool := w.getLsbD 6
def frCtrlFin (w : Word) : Bool := w.getLsbD 7
def frCtrlLen7 (w : Word) : BitVec 7 := w.extractLsb' 8 7
def frCtrlMasked (w : Word) : Bool := w.getLsbD 15
def frCtrlHdrLen (w : Word) : BitVec 4 := w.extractLsb' 16 4
def frCtrlReserved (w : Word) : BitVec 12 := w.extractLsb' 20 12

/-- FR_PLEN_LO: bits 31:0 of the payload length (R32). -/
def plenLoWord (plen : Nat) : Word := BitVec.ofNat 32 plen

/-- FR_PLEN_HI: bits 63:32 of the payload length (R32). -/
def plenHiWord (plen : Nat) : Word := BitVec.ofNat 32 (plen >>> 32)

/-- FR_MASKKEY: the first key byte of the wire at bits 31:24 (R33). -/
def maskKeyWord (k : MaskKey) : Word :=
  (k.k0.setWidth 32 <<< 24) ||| (k.k1.setWidth 32 <<< 16) ||| (k.k2.setWidth 32 <<< 8) ||| k.k3.setWidth 32

/-- FR_FRAMELEN: header length plus payload length (R34). -/
def frameLenWord (hdr plen : Nat) : Word := BitVec.ofNat 32 (hdr + plen)

/-- IS_TEXT, IS_CLOSE, IS_PING and IS_PONG of an opcode (R190 to R193). -/
def isText (op : BitVec 4) : Bool := op == 0x1#4
def isClose (op : BitVec 4) : Bool := op == 0x8#4
def isPing (op : BitVec 4) : Bool := op == 0x9#4
def isPong (op : BitVec 4) : Bool := op == 0xA#4

/-- What a read of CLASS computes from FR_CTRL.OPCODE: IS_TEXT, IS_CLOSE, IS_PING, IS_PONG at bits 0 to 3, the
rest 0 (R35). -/
def classWord (frCtrl : Word) : Word :=
  let op := frCtrlOpcode frCtrl
  (BitVec.ofBool (isPong op) ++ BitVec.ofBool (isPing op) ++ BitVec.ofBool (isClose op)
    ++ BitVec.ofBool (isText op)).setWidth 32

/-- RESULT after HS_DETECT: DETECT at bit 0, the rest 0 (R36, R201). -/
def resultWord (detect : Bool) : Word := (BitVec.ofBool detect).setWidth 32

/-- RESULT.DETECT (R36). -/
def resultDetect (w : Word) : Bool := w.getLsbD 0

end Sys2Proof.Machine
end

