-- ==== Sys2Proof/Machine/Ops.lean ====
section
/-! DEFINITION. The operations over the buffers and the registers: reading and writing bytes, the host's accesses
(R61, R64, R296 to R298), reset (R290), issue (R110), and how a command ends: an error (R114) or a commit (R119). -/

namespace Sys2Proof.Machine

/-! ## Buffers -/

/-- What an index that is not listed reads as: no value, it is unwritten (R39, R40, R42). -/
def Memory.unlisted : Option Byte := none

/-- The byte at an index, or none if it is unwritten. -/
def Memory.read : Memory → Nat → Option Byte
  | [], _ => Memory.unlisted
  | (k, v) :: m, a => if a = k then some v else Memory.read m a

/-- Write one byte, keeping the indexes in rising order. -/
def Memory.write : Memory → Nat → Byte → Memory
  | [], a, b => [(a, b)]
  | (k, v) :: m, a, b =>
    if a < k then (a, b) :: (k, v) :: m
    else if a = k then (a, b) :: m
    else (k, v) :: Memory.write m a b

/-- `MemRead` of R16: the `n` bytes from index `a` on, or none if one of them is unwritten. It walks the buffer
once, in rising order of the index. -/
def Memory.readBytes : Memory → Nat → Nat → Option Bytes
  | _, _, 0 => some []
  | [], _, _ + 1 => none
  | (k, v) :: m, a, n + 1 =>
    if k < a then Memory.readBytes m a (n + 1)
    else if k = a then (Memory.readBytes m (a + 1) n).map (v :: ·)
    else none

/-- A byte sequence as the buffer entries from index `a` on. -/
def Memory.place (a : Nat) : Bytes → Memory
  | [] => []
  | b :: bs => (a, b) :: Memory.place (a + 1) bs

/-- `MemWrite` of R16: write a byte sequence from index `a` on; every other index is as it was. -/
def Memory.writeBytes (m : Memory) (a : Nat) (bs : Bytes) : Memory :=
  m.filter (fun c => decide (c.1 < a)) ++ Memory.place a bs
    ++ m.filter (fun c => decide (a + bs.length ≤ c.1))

/-- Every index of a buffer is at or above `a` and they rise strictly. -/
def Memory.risingFrom : Nat → Memory → Bool
  | _, [] => true
  | a, (k, _) :: m => decide (a ≤ k) && Memory.risingFrom (k + 1) m

/-- The canonical form: strictly rising indexes. An unlisted index has no value, so no entry equals one. -/
def Memory.wf (m : Memory) : Bool := Memory.risingFrom 0 m

/-- Every index of a buffer lies below its capacity. -/
def Memory.within (cap : Nat) (m : Memory) : Bool := m.all fun c => decide (c.1 < cap)

/-- Every byte of `m[0 .. n-1]` is written. -/
def Memory.filled (n : Nat) (m : Memory) : Bool := (Memory.readBytes m 0 n).isSome

/-! ## The register map -/

/-- The register at a byte offset (R22); no other offset exists. -/
def regAt (off : Nat) : Option Reg :=
  match off with
  | 0x00 => some .cmd
  | 0x04 => some .status
  | 0x08 => some .inLen
  | 0x0C => some .outLen
  | 0x10 => some .frCtrl
  | 0x14 => some .frPlenLo
  | 0x18 => some .frPlenHi
  | 0x1C => some .frMaskKey
  | 0x20 => some .frFrameLen
  | 0x24 => some .classBits
  | 0x28 => some .result
  | 0x2C => some .capIn
  | 0x30 => some .capOut
  | _ => none

/-- The offset of a register (R22). -/
def Reg.offset : Reg → Nat
  | .cmd => 0x00
  | .status => 0x04
  | .inLen => 0x08
  | .outLen => 0x0C
  | .frCtrl => 0x10
  | .frPlenLo => 0x14
  | .frPlenHi => 0x18
  | .frMaskKey => 0x1C
  | .frFrameLen => 0x20
  | .classBits => 0x24
  | .result => 0x28
  | .capIn => 0x2C
  | .capOut => 0x30

/-- The value a register reads as: CLASS is computed from FR_CTRL.OPCODE (R35), CAP_IN and CAP_OUT are constants
(R37). -/
def State.reg (s : State) : Reg → Word
  | .cmd => s.cmd
  | .status => s.status
  | .inLen => s.inLen
  | .outLen => s.outLen
  | .frCtrl => s.frCtrl
  | .frPlenLo => s.frPlenLo
  | .frPlenHi => s.frPlenHi
  | .frMaskKey => s.frMaskKey
  | .frFrameLen => s.frFrameLen
  | .classBits => classWord s.frCtrl
  | .result => s.result
  | .capIn => s.cfg.inCap
  | .capOut => s.cfg.outCap

/-- STATUS.BUSY (R25). -/
def State.busy (s : State) : Bool := statusBusy s.status

/-- STATUS.ERR (R25). -/
def State.err (s : State) : BitVec 4 := statusErr s.status

/-- The registers that may be read while BUSY = 1 (R297). -/
def Reg.readableWhileBusy : Reg → Bool
  | .status | .cmd | .capIn | .capOut => true
  | .inLen | .outLen | .frCtrl | .frPlenLo | .frPlenHi | .frMaskKey | .frFrameLen | .classBits | .result => false

/-- The registers the host may write (R22, R23): CMD and IN_LEN; every other is RO or C. -/
def Reg.writable : Reg → Bool
  | .cmd | .inLen => true
  | .status | .outLen | .frCtrl | .frPlenLo | .frPlenHi | .frMaskKey | .frFrameLen | .classBits | .result
  | .capIn | .capOut => false

/-! ## Issue and reset -/

/-- Issue (R110): CMD takes the word, BUSY is set, nothing else changes. -/
def State.issue (s : State) (v : Word) : State :=
  { s with cmd := v, status := statusWithBusy s.status true }

/-- Reset (R290, R291): every register but the constants is 0, every buffer byte unwritten, no command pending.
The configuration and the other agents are not the block's and stay. -/
def State.resetBlock (s : State) : State :=
  { s with
    cmd := 0#32, status := 0#32, inLen := 0#32, outLen := 0#32, frCtrl := 0#32, frPlenLo := 0#32, frPlenHi := 0#32,
    frMaskKey := 0#32, frFrameLen := 0#32, result := 0#32, inBuf := [], outBuf := [] }

/-! ## The host's accesses -/

/-- RegRead (R61): a 32-bit access at an offset of R22 (R64), and none of a result while BUSY = 1 (R297). A read
has no side effect (R65). -/
def State.regRead (s : State) (width off : Nat) : Except Fault Word :=
  match regAt off with
  | none => .error .badRegAccess
  | some r =>
    if width ≠ 4 then .error .badRegAccess
    else if s.busy && !r.readableWhileBusy then .error .readWhileBusy
    else .ok (s.reg r)

/-- RegWrite (R61): a 32-bit access at an offset of R22, of a register that is not RO or C (R64), and none while
BUSY = 1 (R296). A write to CMD issues a command (R110); IN_LEN takes any value (R28). -/
def State.regWrite (s : State) (width off : Nat) (v : Word) : Except Fault State :=
  match regAt off with
  | none => .error .badRegAccess
  | some r =>
    if width ≠ 4 then .error .badRegAccess
    else if !r.writable then .error .writeReadOnly
    else if s.busy then .error .writeWhileBusy
    else match r with
      | .cmd => .ok (s.issue v)
      | .inLen => .ok { s with inLen := v }
      | .status | .outLen | .frCtrl | .frPlenLo | .frPlenHi | .frMaskKey | .frFrameLen | .classBits | .result
      | .capIn | .capOut => .error .writeReadOnly

/-- InWrite (R61): an index below IN_CAP (R64), and not while BUSY = 1 (R296). -/
def State.inWrite (s : State) (i : Nat) (b : Byte) : Except Fault State :=
  if s.cfg.inCap.toNat ≤ i then .error .badBufferIndex
  else if s.busy then .error .writeWhileBusy
  else .ok { s with inBuf := Memory.write s.inBuf i b }

/-- InRead (R61): an index below IN_CAP (R64), and not while BUSY = 1 (R297). A byte that nothing has written has
no value (I11, log 6). -/
def State.inRead (s : State) (i : Nat) : Except Fault Byte :=
  if s.cfg.inCap.toNat ≤ i then .error .badBufferIndex
  else if s.busy then .error .readWhileBusy
  else match Memory.read s.inBuf i with
    | some b => .ok b
    | none => .error .unwrittenInRead

/-- OutRead (R61): an index below OUT_CAP (R64), not while BUSY = 1 (R297), of a written byte (R40). A written
byte at or above OUT_LEN reads as the stale byte it is (R40, R299). -/
def State.outRead (s : State) (i : Nat) : Except Fault Byte :=
  if s.cfg.outCap.toNat ≤ i then .error .badBufferIndex
  else if s.busy then .error .readWhileBusy
  else match Memory.read s.outBuf i with
    | some b => .ok b
    | none => .error .unwrittenOutput

/-- Replace the host's side. -/
def State.withHost (s : State) (h : HostSide) : State := { s with host := h }

/-- What a read of the host's script returned, kept for the host (R94: `rd REG -> name`). -/
def State.record (s : State) (v : ReadValue) : State :=
  s.withHost { s.host with seen := s.host.seen ++ [v] }

/-- One access of the host (R61). -/
def State.access (s : State) : HostAccess → Except Fault State
  | .regWrite width off v => s.regWrite width off v
  | .regRead width off => (s.regRead width off).map fun v => s.record (.word v)
  | .inWrite i b => s.inWrite i b
  | .inRead i => (s.inRead i).map fun b => s.record (.byte b)
  | .outRead i => (s.outRead i).map fun b => s.record (.byte b)

/-! ## How a command ends -/

/-- `raise Error(CODE)` and the `finally` line of R113: only STATUS changes, ERR to the code and BUSY to 0 (R114).
This is all an error does: the block has no trap (R265). -/
def State.raise (s : State) (c : ErrCode) : State := { s with status := statusCompleted s.status c }

/-- The results of a successful command, all at once (R119): the output sequence from OUT[0] on and its length, the
frame-field registers, RESULT; then `ERR <- NONE` and `BUSY <- 0`. What the command does not list stays. -/
def State.commit (s : State) (e : Effect) : State :=
  { s with
    status := statusCompleted s.status .success
    outBuf := match e.out with
      | some o => Memory.writeBytes s.outBuf 0 o
      | none => s.outBuf
    outLen := match e.out with
      | some o => BitVec.ofNat 32 o.length
      | none => s.outLen
    frCtrl := match e.frame with
      | some f => f.ctrl
      | none => s.frCtrl
    frPlenLo := match e.frame with
      | some f => f.plenLo
      | none => s.frPlenLo
    frPlenHi := match e.frame with
      | some f => f.plenHi
      | none => s.frPlenHi
    frMaskKey := match e.frame with
      | some f => f.maskKey
      | none => s.frMaskKey
    frFrameLen := match e.frame with
      | some f => f.frameLen
      | none => s.frFrameLen
    result := match e.result with
      | some r => r
      | none => s.result }

/-- The output of a command is longer than OUT_CAP (R118). -/
def Effect.overflows (e : Effect) (cap : Word) : Bool :=
  match e.out with
  | some o => decide (cap.toNat < o.length)
  | none => false

/-- The end of a completion after `perform` (R113): its error, OUT_OVERFLOW (R118), or the commit (R119). -/
def State.finish (s : State) (r : Except ErrCode Effect) : State :=
  match r with
  | .error c => s.raise c
  | .ok e => if e.overflows s.cfg.outCap then s.raise .outOverflow else s.commit e

end Sys2Proof.Machine
end

