-- ==== Sys2Proof/Machine/Operands.lean ====
section
/-! DEFINITION. Operands: the input sequence of a command (R113), and how the quantities of a frame are taken from it
(R62, R93, R130 to R141): header bytes, extended length, mask key, payload. -/

namespace Sys2Proof.Machine

/-! ## The input sequence -/

/-- The input of a command that reads IN: IN_LEN against IN_CAP first (R116), then the bytes
`IN[0 .. IN_LEN-1]`, all of which must be written (R117). -/
def State.input (s : State) : Input :=
  if s.cfg.inCap.toNat < s.inLen.toNat then .tooLong
  else match Memory.readBytes s.inBuf 0 s.inLen.toNat with
    | some bs => .bytes bs
    | none => .unwritten

/-- The completion of a command that reads IN (R113): the common checks, `perform` on the input, the end. -/
def State.completeReading (s : State) (perform : Bytes → Except ErrCode Effect) :
    Host.Outcome State Fault Refusal :=
  match s.input with
  | .tooLong => .next (s.raise .inLenRange)
  | .unwritten => .fault .unwrittenInput
  | .bytes bs => .next (s.finish (perform bs))

/-- The completion of a command that does not read IN (R113). -/
def State.completeWithoutInput (s : State) (r : Except ErrCode Effect) : Host.Outcome State Fault Refusal :=
  .next (s.finish r)

/-! ## Bytes of a frame -/

/-- `s[i]`, for an index the caller has checked to lie in the sequence. -/
def byteAt (s : Bytes) (i : Nat) : Byte := s.getD i 0#8

/-- A big-endian integer: the first byte is the most significant (R62). -/
def bigEndian (bs : Bytes) : Nat := bs.foldl (fun acc b => acc * 256 + b.toNat) 0

/-- The low `n` bytes of a length, the most significant first (R62, R172). -/
def bigEndianBytes : Nat → Nat → Bytes
  | 0, _ => []
  | n + 1, v => BitVec.ofNat 8 (v >>> (8 * n)) :: bigEndianBytes n v

/-- The payload-length decoder (R134 to R137): the number of extended length bytes and the payload length. -/
def lengthField (len7 : Nat) (s : Bytes) : Except ErrCode (Nat × Nat) :=
  if len7 ≤ 125 then .ok (0, len7)
  else if len7 = 126 then
    if s.length < 4 then .error .truncHeader
    else .ok (2, bigEndian ((s.drop 2).take 2))
  else
    if s.length < 10 then .error .truncHeader
    else
      let plen := bigEndian ((s.drop 2).take 8)
      if 2 ^ 63 ≤ plen then .error .lenRange else .ok (8, plen)

/-- The key of an unmasked frame, a placeholder (R139). -/
def MaskKey.zero : MaskKey := ⟨0#8, 0#8, 0#8, 0#8⟩

/-- Mask-key capture (R139): `h` is the length of the header so far; the key and the whole header's length. -/
def maskField (masked : Bool) (h : Nat) (s : Bytes) : Except ErrCode (MaskKey × Nat) :=
  if masked then
    if s.length < h + 4 then .error .truncHeader
    else .ok (⟨byteAt s h, byteAt s (h + 1), byteAt s (h + 2), byteAt s (h + 3)⟩, h + 4)
  else .ok (.zero, h)

/-- `key[i mod 4]` (R140). -/
def MaskKey.lane (k : MaskKey) (i : Nat) : Byte :=
  match i % 4 with
  | 0 => k.k0
  | 1 => k.k1
  | 2 => k.k2
  | _ => k.k3

/-- The XOR mask applicator on the bytes from payload index `i` on (R140). -/
def applyMaskFrom (k : MaskKey) : Nat → Bytes → Bytes
  | _, [] => []
  | i, w :: ws => (w ^^^ k.lane i) :: applyMaskFrom k (i + 1) ws

/-- The XOR mask applicator (R140): `i` counts from the first payload byte. With the zero key it is the identity. -/
def applyMask (k : MaskKey) (ws : Bytes) : Bytes := applyMaskFrom k 0 ws

end Sys2Proof.Machine
end

