-- ==== Sys2Proof/Machine/FrameEncode.lean ====
section
/-! DEFINITION. The frame serializer and the control-frame generators (R170 to R180). -/

namespace Sys2Proof.Machine

/-- Header byte 0 of a text frame: FIN = 1, RSV = 0, OPCODE = 0x1 (R92, R171). -/
def textByte0 : Byte := 0x81#8

/-- The header of a text frame of `n` payload bytes, in the minimal length form; MASK is 0 (R172). -/
def textHeader (n : Nat) : Bytes :=
  if n ≤ 125 then [textByte0, BitVec.ofNat 8 n]
  else if n ≤ 65535 then [textByte0, 126#8] ++ bigEndianBytes 2 n
  else [textByte0, 127#8] ++ bigEndianBytes 8 n

/-- `perform(ENCODE_TEXT, s)` of R170: SIZE_LIMIT above MAX_ENCODE_LEN (R174), else the header and the payload
unchanged (R173). -/
def performEncodeText (maxLen : Nat) (s : Bytes) : Except ErrCode Effect :=
  if maxLen < s.length then .error .sizeLimit
  else .ok { out := some (textHeader s.length ++ s) }

/-- ENCODE_TEXT, CMD = 0x0000_0002 (R170 to R176). -/
def execEncodeText (s : State) : Host.Outcome State Fault Refusal :=
  s.completeReading (performEncodeText s.cfg.maxEncodeLen)

/-- The fixed control frames (R92): FIN = 1, no payload, no mask. -/
def pingFrame : Bytes := [0x89#8, 0x00#8]
def pongFrame : Bytes := [0x8A#8, 0x00#8]
def closeFrame : Bytes := [0x88#8, 0x00#8]

/-- GEN_PING, CMD = 0x0000_0003 (R178). -/
def execGenPing (s : State) : Host.Outcome State Fault Refusal :=
  s.completeWithoutInput (.ok { out := some pingFrame })

/-- GEN_PONG, CMD = 0x0000_0004 (R179). -/
def execGenPong (s : State) : Host.Outcome State Fault Refusal :=
  s.completeWithoutInput (.ok { out := some pongFrame })

/-- GEN_CLOSE, CMD = 0x0000_0005 (R180). -/
def execGenClose (s : State) : Host.Outcome State Fault Refusal :=
  s.completeWithoutInput (.ok { out := some closeFrame })

end Sys2Proof.Machine
end

