-- ==== Sys2Proof/Machine/Handshake.lean ====
section
/-! DEFINITION. The handshake unit: detection (R201, R202) and composition of the response (R203 to R216). SHA-1 and
Base64 are arguments here; the two commands take those of Config (R11). -/

namespace Sys2Proof.Machine

/-! ## HS_DETECT -/

/-- The comparison of R202: exact, or with the ASCII case bit folded. -/
def eqLetter (caseInsensitive : Bool) (a b : Byte) : Bool :=
  if caseInsensitive then (a ||| 0x20#8) == (b ||| 0x20#8) else a == b

/-- `detect` of R202: the input begins with `GET`. -/
def detect (caseInsensitive : Bool) : Bytes → Bool
  | g :: e :: t :: _ =>
    eqLetter caseInsensitive g 0x47#8 && eqLetter caseInsensitive e 0x45#8 && eqLetter caseInsensitive t 0x54#8
  | _ => false

/-- `perform(HS_DETECT, s)` of R201. -/
def performDetect (caseInsensitive : Bool) (s : Bytes) : Except ErrCode Effect :=
  .ok { result := some (resultWord (detect caseInsensitive s)) }

/-- HS_DETECT, CMD = 0x0000_0006 (R201). -/
def execHsDetect (s : State) : Host.Outcome State Fault Refusal :=
  s.completeReading (performDetect s.cfg.getCaseInsensitive)

/-! ## HS_COMPOSE -/

/-- LF, the byte a line ends with (R203). -/
def lineFeed : Byte := 0x0A#8

/-- The key header prefix `Sec-WebSocket-Key: `, 19 bytes (R204). -/
def keyPrefix : Bytes :=
  ascii ['S', 'e', 'c', '-', 'W', 'e', 'b', 'S', 'o', 'c', 'k', 'e', 't', '-', 'K', 'e', 'y', ':', ' ']

/-- The bytes after the key header prefix at the first matching line start (R203 to R206); `lineStart` says whether
the sequence begins at one. A position is a line start at offset 0 or just after an LF. -/
def afterKeyPrefix : (lineStart : Bool) → Bytes → Option Bytes
  | _, [] => none
  | lineStart, b :: rest =>
    if lineStart && keyPrefix.isPrefixOf (b :: rest) then some ((b :: rest).drop keyPrefix.length)
    else afterKeyPrefix (b == lineFeed) rest

/-- The whitespace the trim removes (R205). -/
def isWhitespace (b : Byte) : Bool :=
  b == 0x09#8 || b == 0x0A#8 || b == 0x0B#8 || b == 0x0C#8 || b == 0x0D#8 || b == 0x20#8

/-- `trimWS` of R214: without the longest prefix and the longest suffix of whitespace. -/
def trimWhitespace (t : Bytes) : Bytes := ((t.dropWhile isWhitespace).reverse.dropWhile isWhitespace).reverse

/-- The key value (R205): from the first matching line, up to the next LF or the end, trimmed. None if no line
matches (R207). -/
def handshakeKey (s : Bytes) : Option Bytes :=
  (afterKeyPrefix true s).map fun rest => trimWhitespace (rest.takeWhile (· != lineFeed))

/-- The GUID `258EAFA5-E914-47DA-95CA-C5AB0DC85B11`, 36 bytes (R208). -/
def guid : Bytes :=
  ascii ['2', '5', '8', 'E', 'A', 'F', 'A', '5', '-', 'E', '9', '1', '4', '-', '4', '7', 'D', 'A', '-'] ++
  ascii ['9', '5', 'C', 'A', '-', 'C', '5', 'A', 'B', '0', 'D', 'C', '8', '5', 'B', '1', '1']

/-- `HTTP/1.1 101 Switching Protocols` and its line end, 34 bytes (R212). -/
def statusLine : Bytes :=
  ascii ['H', 'T', 'T', 'P', '/', '1', '.', '1', ' ', '1', '0', '1', ' '] ++
  ascii ['S', 'w', 'i', 't', 'c', 'h', 'i', 'n', 'g', ' ', 'P', 'r', 'o', 't', 'o', 'c', 'o', 'l', 's', '\r', '\n']

/-- `Connection: Upgrade` and its line end, 21 bytes (R212). -/
def connectionLine : Bytes :=
  ascii ['C', 'o', 'n', 'n', 'e', 'c', 't', 'i', 'o', 'n', ':', ' ', 'U', 'p', 'g', 'r', 'a', 'd', 'e', '\r', '\n']

/-- `Upgrade: websocket` and its line end, 20 bytes (R212). -/
def upgradeLine : Bytes :=
  ascii ['U', 'p', 'g', 'r', 'a', 'd', 'e', ':', ' ', 'w', 'e', 'b', 's', 'o', 'c', 'k', 'e', 't', '\r', '\n']

/-- `Sec-WebSocket-Accept: `, 22 bytes (R212). -/
def acceptPrefix : Bytes :=
  ascii ['S', 'e', 'c', '-', 'W', 'e', 'b', 'S', 'o', 'c', 'k', 'e', 't', '-', 'A', 'c', 'c', 'e', 'p', 't', ':', ' ']

/-- The end of the accept line and the blank line, 4 bytes (R212). -/
def blankLine : Bytes := ascii ['\r', '\n', '\r', '\n']

/-- The response with an accept value (R212). -/
def response (accept : Bytes) : Bytes :=
  statusLine ++ connectionLine ++ upgradeLine ++ acceptPrefix ++ accept ++ blankLine

/-- The accept value of a key (R209 to R211). -/
def acceptValue (sha1 : Bytes → Vector Byte 20) (base64 : Vector Byte 20 → Bytes) (key : Bytes) : Bytes :=
  base64 (sha1 (key ++ guid))

/-- `perform(HS_COMPOSE, s)` of R214. -/
def performCompose (sha1 : Bytes → Vector Byte 20) (base64 : Vector Byte 20 → Bytes) (s : Bytes) :
    Except ErrCode Effect :=
  match handshakeKey s with
  | none => .error .hsNoKey
  | some key => .ok { out := some (response (acceptValue sha1 base64 key)) }

/-- HS_COMPOSE, CMD = 0x0000_0007 (R214 to R216). -/
def execHsCompose (s : State) : Host.Outcome State Fault Refusal :=
  s.completeReading (performCompose Config.sha1 Config.base64)

end Sys2Proof.Machine
end

