-- ==== Sys2Proof/Machine/FrameDecode.lean ====
section
/-! DEFINITION. DECODE (R150): the header parser, the length decoder and the mask applicator chained. -/

namespace Sys2Proof.Machine

/-- The extent of a frame that the header tells (R130 stages 1 to 3): header length, payload length, key. -/
structure Extent where
  hdr : Nat
  plen : Nat
  key : MaskKey
  deriving DecidableEq, Repr

/-- Stages 1 to 3 of the decode path (R130): the two header bytes are there (R131), the extended length (R134 to
R137), the mask key (R139). -/
def frameExtent (masked : Bool) (len7 : Nat) (s : Bytes) : Except ErrCode Extent :=
  if s.length < 2 then .error .truncHeader
  else match lengthField len7 s with
    | .error c => .error c
    | .ok (ext, plen) => match maskField masked (2 + ext) s with
      | .error c => .error c
      | .ok (key, hdr) => .ok ⟨hdr, plen, key⟩

/-- What a decoded frame writes (R150, R151). -/
def frameEffect (b0 b1 : Byte) (x : Extent) (s : Bytes) : Effect where
  out := some (applyMask x.key ((s.drop x.hdr).take x.plen))
  frame := some
    { ctrl := frCtrlWord b0 b1 x.hdr
      plenLo := plenLoWord x.plen
      plenHi := plenHiWord x.plen
      maskKey := maskKeyWord x.key
      frameLen := frameLenWord x.hdr x.plen }

/-- The decode path of a frame whose header bytes are `b0` and `b1` (R150); `s` is the whole input, the header bytes
included. The payload must be there (R141); bytes after it are ignored (R142). Nothing else is checked (R138). -/
def decodeFrame (b0 b1 : Byte) (s : Bytes) : Except ErrCode Effect :=
  match frameExtent (headerFields b0 b1).masked (headerFields b0 b1).len7 s with
  | .error c => .error c
  | .ok x => if s.length - x.hdr < x.plen then .error .truncPayload else .ok (frameEffect b0 b1 x s)

/-- `perform(DECODE, s)` of R150. -/
def performDecode (s : Bytes) : Except ErrCode Effect := decodeFrame (byteAt s 0) (byteAt s 1) s

/-- DECODE, CMD = 0x0000_0001 (R150 to R152). -/
def execDecode (s : State) : Host.Outcome State Fault Refusal := s.completeReading performDecode

end Sys2Proof.Machine
end

