-- ==== Sys2Proof/Machine/Wire.lean ====
section
/-! DEFINITION. The sixteen wire headers (R90): what the block does with a frame that begins with one. DECODE decodes
every opcode alike (R138, R196) and reports it in FR_CTRL, from which CLASS is read (R190 to R193). -/

namespace Sys2Proof.Machine

/-- The completion of a DECODE of a frame with these header bytes (R84, R150): the header is the instruction's, what
follows it is in IN from index 2 on. -/
def State.completeFrame (s : State) (op : BitVec 4) (h : WireHeader) : Host.Outcome State Fault Refusal :=
  s.completeReading (decodeFrame (h.byte0 op) h.byte1)

/-- A frame with OPCODE = 0x0, continuation (R90, R150, R196); CLASS then reads 0. -/
def execWsContinuation (h : WireHeader) (s : State) : Host.Outcome State Fault Refusal := s.completeFrame 0x0#4 h

/-- A frame with OPCODE = 0x1, text (R90, R150, R190); CLASS bit: IS_TEXT. -/
def execWsText (h : WireHeader) (s : State) : Host.Outcome State Fault Refusal := s.completeFrame 0x1#4 h

/-- A frame with OPCODE = 0x2, binary (R90, R150, R196); CLASS then reads 0. -/
def execWsBinary (h : WireHeader) (s : State) : Host.Outcome State Fault Refusal := s.completeFrame 0x2#4 h

/-- A frame with OPCODE = 0x3 (R90, R150, R196); CLASS then reads 0. -/
def execWsOpcode3 (h : WireHeader) (s : State) : Host.Outcome State Fault Refusal := s.completeFrame 0x3#4 h

/-- A frame with OPCODE = 0x4 (R90, R150, R196); CLASS then reads 0. -/
def execWsOpcode4 (h : WireHeader) (s : State) : Host.Outcome State Fault Refusal := s.completeFrame 0x4#4 h

/-- A frame with OPCODE = 0x5 (R90, R150, R196); CLASS then reads 0. -/
def execWsOpcode5 (h : WireHeader) (s : State) : Host.Outcome State Fault Refusal := s.completeFrame 0x5#4 h

/-- A frame with OPCODE = 0x6 (R90, R150, R196); CLASS then reads 0. -/
def execWsOpcode6 (h : WireHeader) (s : State) : Host.Outcome State Fault Refusal := s.completeFrame 0x6#4 h

/-- A frame with OPCODE = 0x7 (R90, R150, R196); CLASS then reads 0. -/
def execWsOpcode7 (h : WireHeader) (s : State) : Host.Outcome State Fault Refusal := s.completeFrame 0x7#4 h

/-- A frame with OPCODE = 0x8, close (R90, R150, R191); CLASS bit: IS_CLOSE. -/
def execWsClose (h : WireHeader) (s : State) : Host.Outcome State Fault Refusal := s.completeFrame 0x8#4 h

/-- A frame with OPCODE = 0x9, ping (R90, R150, R192); CLASS bit: IS_PING. -/
def execWsPing (h : WireHeader) (s : State) : Host.Outcome State Fault Refusal := s.completeFrame 0x9#4 h

/-- A frame with OPCODE = 0xA, pong (R90, R150, R193); CLASS bit: IS_PONG. -/
def execWsPong (h : WireHeader) (s : State) : Host.Outcome State Fault Refusal := s.completeFrame 0xA#4 h

/-- A frame with OPCODE = 0xB (R90, R150, R196); CLASS then reads 0. -/
def execWsOpcodeB (h : WireHeader) (s : State) : Host.Outcome State Fault Refusal := s.completeFrame 0xB#4 h

/-- A frame with OPCODE = 0xC (R90, R150, R196); CLASS then reads 0. -/
def execWsOpcodeC (h : WireHeader) (s : State) : Host.Outcome State Fault Refusal := s.completeFrame 0xC#4 h

/-- A frame with OPCODE = 0xD (R90, R150, R196); CLASS then reads 0. -/
def execWsOpcodeD (h : WireHeader) (s : State) : Host.Outcome State Fault Refusal := s.completeFrame 0xD#4 h

/-- A frame with OPCODE = 0xE (R90, R150, R196); CLASS then reads 0. -/
def execWsOpcodeE (h : WireHeader) (s : State) : Host.Outcome State Fault Refusal := s.completeFrame 0xE#4 h

/-- A frame with OPCODE = 0xF (R90, R150, R196); CLASS then reads 0. -/
def execWsOpcodeF (h : WireHeader) (s : State) : Host.Outcome State Fault Refusal := s.completeFrame 0xF#4 h

end Sys2Proof.Machine
end

