-- ==== Sys2Proof/Machine/Dispatch.lean ====
section
/-! DEFINITION. The meaning of every instruction: one arm per constructor of Instr. -/

namespace Sys2Proof.Machine

def exec (i : Instr) (s : State) : Host.Outcome State Fault Refusal :=
  match i with
  | .decode => Sys2Proof.Machine.execDecode s
  | .encodeText => Sys2Proof.Machine.execEncodeText s
  | .genPing => Sys2Proof.Machine.execGenPing s
  | .genPong => Sys2Proof.Machine.execGenPong s
  | .genClose => Sys2Proof.Machine.execGenClose s
  | .hsDetect => Sys2Proof.Machine.execHsDetect s
  | .hsCompose => Sys2Proof.Machine.execHsCompose s
  | .wsContinuation h => Sys2Proof.Machine.execWsContinuation h s
  | .wsText h => Sys2Proof.Machine.execWsText h s
  | .wsBinary h => Sys2Proof.Machine.execWsBinary h s
  | .wsOpcode3 h => Sys2Proof.Machine.execWsOpcode3 h s
  | .wsOpcode4 h => Sys2Proof.Machine.execWsOpcode4 h s
  | .wsOpcode5 h => Sys2Proof.Machine.execWsOpcode5 h s
  | .wsOpcode6 h => Sys2Proof.Machine.execWsOpcode6 h s
  | .wsOpcode7 h => Sys2Proof.Machine.execWsOpcode7 h s
  | .wsClose h => Sys2Proof.Machine.execWsClose h s
  | .wsPing h => Sys2Proof.Machine.execWsPing h s
  | .wsPong h => Sys2Proof.Machine.execWsPong h s
  | .wsOpcodeB h => Sys2Proof.Machine.execWsOpcodeB h s
  | .wsOpcodeC h => Sys2Proof.Machine.execWsOpcodeC h s
  | .wsOpcodeD h => Sys2Proof.Machine.execWsOpcodeD h s
  | .wsOpcodeE h => Sys2Proof.Machine.execWsOpcodeE h s
  | .wsOpcodeF h => Sys2Proof.Machine.execWsOpcodeF h s

end Sys2Proof.Machine
end

