-- ==== Sys2Proof/Machine/Driver.lean ====
section
/-! DEFINITION. The host's steps (R111): the accesses of its script (R94, R95), and, once the script is made, the
reference host of 45_host_connection.md: the connection state machine and the dispatcher (R230 to R251). A step of the
reference host is at most one access of the block, one call of a collaborator, or one choice between accesses. -/

namespace Sys2Proof.Machine

/-! ## Host programs -/

/-- `wrb IN[i], b` for each byte of a sequence, from index `i` on (R94). -/
def inWrites (i : Nat) : Bytes → List HostOp
  | [] => []
  | b :: bs => .access (.inWrite i b) :: inWrites (i + 1) bs

/-- `load IN, [b0, …, bn-1]` (R94). -/
def loadOps (bs : Bytes) : List HostOp :=
  inWrites 0 bs ++ [.access (.regWrite 4 Reg.inLen.offset (BitVec.ofNat 32 bs.length))]

/-- `cmd MNEMONIC` (R94): the write to CMD that issues the command. -/
def cmdOp (op : Byte) : HostOp := .access (.regWrite 4 Reg.cmd.offset (commandWord op))

/-- `run MNEMONIC` (R94): issue and wait. -/
def runOps (op : Byte) : List HostOp := [cmdOp op, .wait]

/-! ## Steps of a script -/

/-- The host's side after one access of the block in the state. -/
def HostSide.next (h : HostSide) (ops : List HostOp) (p : Phase) : HostSide := { h with script := ops, phase := p }

/-- `wait` (R94): read STATUS; go on when BUSY = 0, else read it again at the host's next step. -/
def State.hostWait (s : State) (rest : List HostOp) : Host.Outcome State Fault Refusal :=
  match s.regRead 4 Reg.status.offset with
  | .error f => .fault f
  | .ok v => if statusBusy v then .next s else .next (s.withHost { s.host with script := rest })

/-- One access of the script (R61): its fault, or the state it leaves. -/
def State.hostAccess (s : State) (a : HostAccess) (rest : List HostOp) : Host.Outcome State Fault Refusal :=
  match (s.withHost { s.host with script := rest }).access a with
  | .error f => .fault f
  | .ok t => .next t

/-- A register read of the reference host, and what it does with the value. -/
def State.withReg (s : State) (r : Reg) (k : Word → State) : Host.Outcome State Fault Refusal :=
  match s.regRead 4 r.offset with
  | .error f => .fault f
  | .ok v => .next (k v)

/-! ## The reference host -/

/-- CONN := CLOSED and the socket is released at once (R241, R242). -/
def State.closeConn (s : State) : State := s.withHost { s.host with conn := .closed, phase := .closed }

/-- `processFrame(r)` up to the end of DECODE (R234, R236): under DROP the read itself is decoded, and need not be
loaded when it already stands in IN (R233); under ACCUMULATE it joins Q, and at most IN_CAP bytes of Q are loaded. -/
def State.startDecode (s : State) (loaded : Bool) (r : Bytes) : State :=
  match s.cfg.reassembly with
  | .drop => s.withHost (s.host.next ((if loaded then [] else loadOps r) ++ runOps opDecode) .decoded)
  | .accumulate =>
    let q := s.host.queue ++ r
    s.withHost { s.host.next (loadOps (q.take s.cfg.inCap.toNat) ++ runOps opDecode) .decoded with queue := q }

/-- A message is done with: the next Read, or under ACCUMULATE the next frame of Q while CONN = OPEN (R236). -/
def State.nextMessage (s : State) : State :=
  if s.cfg.reassembly = .accumulate ∧ s.host.queue ≠ [] ∧ s.host.conn = .opened then s.startDecode false []
  else s.withHost (s.host.next [] .read)

/-- A read has returned bytes (R233, R234): a handshake check in AWAIT_HS, a frame in OPEN. -/
def State.received (s : State) (r : Bytes) : State :=
  match s.host.conn with
  | .awaitHs => s.withHost (s.host.next (loadOps r ++ runOps opHsDetect) (.detected r))
  | .opened => s.startDecode false r
  | .closed => s.closeConn

/-- Read (R232, R247): with no result to come it blocks. A result longer than READ_MAX is split, and what is left is
the next one (I14, log 7). TransportError and an empty read close the connection (R244). -/
def State.hostRead (s : State) : State :=
  match s.host.inbox with
  | [] => s
  | .transportError :: rest => (s.withHost { s.host with inbox := rest }).closeConn
  | .bytes r :: rest =>
    let got := r.take s.cfg.readMax
    let left := r.drop s.cfg.readMax
    let t := s.withHost { s.host with inbox := if left = [] then rest else .bytes left :: rest }
    if got = [] then t.closeConn else t.received got

/-- HS_DETECT has answered for the read `r` (R233): compose the response, or decode the read as a frame; under
FIRST_READ_ONLY the check is made only once (C1). -/
def State.afterDetect (s : State) (r : Bytes) (result : Word) : State :=
  if resultDetect result then s.withHost (s.host.next (runOps opHsCompose) (.ran .response))
  else match s.cfg.handshakeCheck with
    | .firstReadOnly => (s.withHost { s.host with conn := .opened }).startDecode true r
    | .whileAwaiting => s.startDecode true r

/-- A command has run and STATUS is read (R248): its results are used only when ERR = 0, which goes on to `p`. With
HS_NO_KEY the connection closes and nothing is written (R233, R245); so it does with an ERR for which the rules name
no reaction (log 11). -/
def State.afterRun (s : State) (p : Phase) (status : Word) : State :=
  if statusErr status = ErrCode.success.code then s.withHost (s.host.next [] p) else s.closeConn

/-- DECODE has run (R234 to R236): a failure is no message. Under ACCUMULATE a truncated frame waits in Q; LEN_RANGE,
or a Q longer than IN_CAP that does not decode, discards Q. -/
def State.afterDecode (s : State) (status : Word) : State :=
  if statusErr status = ErrCode.success.code then
    match s.cfg.reassembly with
    | .drop => s.withHost (s.host.next [] .classify)
    | .accumulate => s.withHost (s.host.next [] .frameLen)
  else match s.cfg.reassembly with
    | .drop => s.withHost (s.host.next [] .read)
    | .accumulate =>
      if statusErr status = ErrCode.lenRange.code ∨ s.cfg.inCap.toNat < s.host.queue.length then
        s.withHost { s.host.next [] .read with queue := [] }
      else s.withHost (s.host.next [] .read)

/-- A frame was decoded under ACCUMULATE: its FR_FRAMELEN bytes leave Q (R236). -/
def State.afterFrameLen (s : State) (frameLen : Word) : State :=
  s.withHost { s.host.next [] .classify with queue := s.host.queue.drop frameLen.toNat }

/-- `dispatch()` (R237): on the CLASS bits alone. Text is read out (R238), a ping is answered with the canned pong
(R239), a pong is informational (R240), a close closes without a reply (R241), and an opcode with no predicate is
ignored or closes (R243). -/
def State.dispatchClass (s : State) (c : Word) : State :=
  if c.getLsbD 0 then s.withHost (s.host.next [] (.outLength .text))
  else if c.getLsbD 2 then s.withHost (s.host.next (runOps opGenPong) (.ran .reply))
  else if c.getLsbD 3 then s.nextMessage
  else if c.getLsbD 1 then s.closeConn
  else match s.cfg.unhandledOpcode with
    | .ignore => s.nextMessage
    | .close => s.closeConn

/-- The bytes wanted from OUT have all been read: a text is validated, anything else is written (R232, R238). -/
def State.collected (s : State) (p : Purpose) (got : Bytes) : State :=
  match p with
  | .text => s.withHost (s.host.next [] (.validate got))
  | .response | .reply => s.withHost (s.host.next [] (.write p got))

/-- One byte of `OUT[0 .. n-1]` (R232), or the end of it. -/
def State.hostCollect (s : State) (p : Purpose) (n : Nat) (got : Bytes) : Host.Outcome State Fault Refusal :=
  if got.length < n then
    match s.outRead got.length with
    | .error f => .fault f
    | .ok b => .next (s.withHost (s.host.next [] (.collect p n (got ++ [b]))))
  else .next (s.collected p got)

/-- Write has answered (R232, R233, R244): after the response the connection is open; a failure closes it. -/
def State.afterWrite (s : State) (ok : Bool) (p : Purpose) (out : Bytes) : State :=
  let t := s.withHost { s.host with draws := s.host.draws + 1 }
  if ok then
    let u := t.withHost { t.host with sent := t.host.sent ++ [out] }
    match p with
    | .response => u.withHost { u.host.next [] .read with conn := .opened }
    | .reply | .text => u.nextMessage
  else t.closeConn

/-- ValidateText has answered (R238): a text it rejects closes the connection and never reaches StoreRecord (R251). -/
def State.afterValidate (s : State) (ok : Bool) (text : Bytes) : State :=
  if ok then s.withHost (s.host.next [] (.store text)) else s.closeConn

/-- The payload `OK` of the dispatcher's reply (R238). -/
def okPayload : Bytes := [0x4F#8, 0x4B#8]

/-- StoreRecord has answered (R238): success is answered with an `OK` text frame, failure closes. -/
def State.afterStore (s : State) (ok : Bool) (text : Bytes) : State :=
  let t := s.withHost { s.host with stored := s.host.stored ++ [text], draws := s.host.draws + 1 }
  if ok then t.withHost (t.host.next (loadOps okPayload ++ runOps opEncodeText) (.ran .reply))
  else t.closeConn

/-- The reference host's step when its script is made (R249). CLOSED is terminal (R242). -/
def State.hostPhase (s : State) : Host.Outcome State Fault Refusal :=
  match s.host.phase with
  | .read => .next s.hostRead
  | .detected r => s.withReg .status (s.afterRun (.detectResult r))
  | .detectResult r => s.withReg .result (s.afterDetect r)
  | .ran p => s.withReg .status (s.afterRun (.outLength p))
  | .decoded => s.withReg .status s.afterDecode
  | .frameLen => s.withReg .frFrameLen s.afterFrameLen
  | .classify => s.withReg .classBits s.dispatchClass
  | .outLength p => s.withReg .outLen fun n => s.withHost (s.host.next [] (.collect p n.toNat []))
  | .collect p n got => s.hostCollect p n got
  | .write p out => .next (s.afterWrite (Config.writeOk s.host.draws out) p out)
  | .validate text => .next (s.afterValidate (Config.validateText text) text)
  | .store text => .next (s.afterStore (Config.storeRecord s.host.draws text) text)
  | .closed => .next s

/-- A step of the host: the next line of its script, or the reference host's. -/
def State.hostStep (s : State) : Host.Outcome State Fault Refusal :=
  match s.host.script with
  | .access a :: rest => s.hostAccess a rest
  | .wait :: rest => s.hostWait rest
  | [] => s.hostPhase

end Sys2Proof.Machine
end

