-- ==== Sys2Proof/Machine/Fetch.lean ====
section
/-! DEFINITION. What a completion runs: the command in CMD (R113), and under DECODE the frame header in IN (R130).
The block has no program counter and fetches no instructions of its own (R21, R71). -/

namespace Sys2Proof.Machine

/-- The instruction of a pending command. The word in CMD is decoded (R83). For DECODE whose input is readable and
holds two header bytes, it is the frame's header that says what is run (R84, R90); its meaning is DECODE's (R150),
and so is what runs where no header can be read. -/
def State.fetch (s : State) : Except DecodeError Instr :=
  match decodeCmd s.cmd with
  | .ok .decode =>
    match s.input with
    | .bytes bs => match decodeWire bs with
      | .ok (i, _) => .ok i
      | .error _ => .ok .decode
    | .tooLong | .unwritten => .ok .decode
  | r => r

/-- A frame with this header word and zeros for all that follows it: extended length, mask key, payload. -/
def zeroFrame (h : BitVec 16) : Bytes :=
  let f := headerFields (h.extractLsb' 8 8) (h.extractLsb' 0 8)
  let ext := if f.len7 ≤ 125 then 0 else if f.len7 = 126 then 2 else 8
  let key := if f.masked then 4 else 0
  let plen := if f.len7 ≤ 125 then f.len7 else 0
  headerBytes h ++ List.replicate (ext + key + plen) 0#8

/-- A pending command: CMD holds the word and BUSY = 1, as after an issue (R110); the codec moves next. -/
def State.withPending (s : State) (v : Word) : State := { s.issue v with schedule := [] }

/-- A byte sequence loaded into IN with its length in IN_LEN, as after a `load` (R94). -/
def State.withInput (s : State) (bs : Bytes) : State :=
  { s with inBuf := Memory.writeBytes s.inBuf 0 bs, inLen := BitVec.ofNat 32 bs.length }

/-- An instruction of the opcode table where the next completion takes it from: a command word in CMD, a frame header
in IN under a pending DECODE. -/
def State.placeTableWord (s : State) (nbits w : Nat) : State :=
  if nbits = 16 then (s.withInput (zeroFrame (BitVec.ofNat 16 w))).withPending (commandWord opDecode)
  else s.withPending (BitVec.ofNat 32 w)

end Sys2Proof.Machine
end

