-- ==== Sys2Proof/Machine/Step.lean ====
section
/-! DEFINITION. One step of the system (R68): one agent moves. -/

namespace Sys2Proof.Machine

/-- Completion (R113): the pending command is run; a word that is no command ends with ILLEGAL_CMD before anything
else is looked at (R261). -/
def State.complete (s : State) : Host.Outcome State Fault Refusal :=
  match s.fetch with
  | .ok i => exec i s
  | .error _ => .next (s.raise .illegalCmd)

/-- The codec's turn: its one kind of step is enabled iff BUSY = 1 (R111); where it is not, nothing happens. -/
def State.codecTurn (s : State) : Host.Outcome State Fault Refusal :=
  if s.busy then s.complete else .next s

/-- One step. The schedule says whose it is; where it says no more, a pending command completes (R112: a completion
is not put off for ever) and otherwise the host moves. -/
def step (s : State) : Host.Outcome State Fault Refusal :=
  match s.schedule with
  | [] => if s.busy then s.complete else s.hostStep
  | .host :: rest => State.hostStep { s with schedule := rest }
  | .codec :: rest => State.codecTurn { s with schedule := rest }
  | .resetInput :: rest => .next (State.resetBlock { s with schedule := rest })

/-- The state with an instruction of the opcode table where the next step runs it. -/
def State.withFetchWord (s : State) (nbits w : Nat) : State := s.placeTableWord nbits w

end Sys2Proof.Machine
end

