-- ==== Sys2Proof/Machine/External.lean ====
section
/-! DEFINITION. The named properties of the external functions SHA1 and BASE64 (R11) and of ValidateText (R251). The
block does not hold these functions (R4) and exec does not call what is written here: a claim that depends on one of
them names the property it uses. SHA-1 and Base64 themselves are PRESUMED (log 3) from FIPS 180-4 and RFC 4648 §4, as R11 names them. -/

namespace Sys2Proof.Machine

/-! ## SHA-1 (FIPS 180-4) -/

/-- The five words of the digest in progress. -/
structure Sha1State where
  a : Word
  b : Word
  c : Word
  d : Word
  e : Word
  deriving DecidableEq, Repr

/-- The initial digest value. -/
def sha1Initial : Sha1State := ⟨0x67452301#32, 0xEFCDAB89#32, 0x98BADCFE#32, 0x10325476#32, 0xC3D2E1F0#32⟩

/-- The message with its padding: a one bit, zeros, the length in bits as 64 bits, a whole number of 64-byte blocks. -/
def sha1Pad (m : Bytes) : Bytes :=
  m ++ [0x80#8] ++ List.replicate ((119 - m.length % 64) % 64) 0#8 ++ bigEndianBytes 8 (8 * m.length)

/-- The big-endian words of a block, first word first. -/
def sha1Words : Bytes → List Word
  | b0 :: b1 :: b2 :: b3 :: rest => (b0 ++ b1 ++ b2 ++ b3 : Word) :: sha1Words rest
  | _ => []

/-- The message schedule, `n` words longer: the words so far, the newest first. -/
def sha1Schedule : Nat → List Word → List Word
  | 0, ws => ws
  | n + 1, ws =>
    sha1Schedule n
      ((ws.getD 2 0#32 ^^^ ws.getD 7 0#32 ^^^ ws.getD 13 0#32 ^^^ ws.getD 15 0#32).rotateLeft 1 :: ws)

/-- The function and the constant of round `t`. -/
def sha1Round (t : Nat) (b c d : Word) : Word × Word :=
  if t < 20 then ((b &&& c) ||| (~~~b &&& d), 0x5A827999#32)
  else if t < 40 then (b ^^^ c ^^^ d, 0x6ED9EBA1#32)
  else if t < 60 then ((b &&& c) ||| (b &&& d) ||| (c &&& d), 0x8F1BBCDC#32)
  else (b ^^^ c ^^^ d, 0xCA62C1D6#32)

/-- The rounds from `t` on, one for each word of the schedule. -/
def sha1Rounds : Nat → List Word → Sha1State → Sha1State
  | _, [], h => h
  | t, w :: ws, h =>
    let (f, k) := sha1Round t h.b h.c h.d
    sha1Rounds (t + 1) ws ⟨h.a.rotateLeft 5 + f + h.e + k + w, h.a, h.b.rotateLeft 30, h.c, h.d⟩

/-- One block. -/
def sha1Block (h : Sha1State) (block : Bytes) : Sha1State :=
  let r := sha1Rounds 0 (sha1Schedule 64 (sha1Words block).reverse).reverse h
  ⟨h.a + r.a, h.b + r.b, h.c + r.c, h.d + r.d, h.e + r.e⟩

/-- `n` blocks of a padded message. -/
def sha1Blocks : Nat → Sha1State → Bytes → Sha1State
  | 0, h, _ => h
  | n + 1, h, m => sha1Blocks n (sha1Block h (m.take 64)) (m.drop 64)

/-- The four bytes of a word, most significant first. -/
def wordBytes (w : Word) : Vector Byte 4 :=
  #v[w.extractLsb' 24 8, w.extractLsb' 16 8, w.extractLsb' 8 8, w.extractLsb' 0 8]

/-- The SHA-1 digest. -/
def sha1Digest (m : Bytes) : Vector Byte 20 :=
  let p := sha1Pad m
  let h := sha1Blocks (p.length / 64) sha1Initial p
  wordBytes h.a ++ wordBytes h.b ++ wordBytes h.c ++ wordBytes h.d ++ wordBytes h.e

/-! ## Base64 (RFC 4648 §4) -/

/-- The character of a 6-bit group: `A-Z a-z 0-9 + /`. -/
def base64Char (n : Nat) : Byte :=
  if n < 26 then BitVec.ofNat 8 (65 + n)
  else if n < 52 then BitVec.ofNat 8 (97 + (n - 26))
  else if n < 62 then BitVec.ofNat 8 (48 + (n - 52))
  else if n = 62 then 43#8
  else 47#8

/-- The encoding: three bytes are four characters, and a last group of one or two is padded with `=`. -/
def base64Encode : Bytes → Bytes
  | a :: b :: c :: rest =>
    let n := a.toNat * 65536 + b.toNat * 256 + c.toNat
    base64Char (n / 262144) :: base64Char (n / 4096 % 64) :: base64Char (n / 64 % 64) :: base64Char (n % 64)
      :: base64Encode rest
  | [a, b] =>
    let n := a.toNat * 1024 + b.toNat * 4
    [base64Char (n / 4096), base64Char (n / 64 % 64), base64Char (n % 64), 61#8]
  | [a] =>
    let n := a.toNat * 16
    [base64Char (n / 64), base64Char (n % 64), 61#8, 61#8]
  | [] => []

/-! ## The properties of R11 -/

/-- P-SHA1: `SHA1` is the SHA-1 digest. -/
def PSha1 (sha1 : Bytes → Vector Byte 20) : Prop := ∀ m, sha1 m = sha1Digest m

/-- P-B64: `BASE64` is standard Base64. -/
def PB64 (base64 : Vector Byte 20 → Bytes) : Prop := ∀ d, base64 d = base64Encode d.toList

/-- The key of the source's handshake vector, `dGhlIHNhbXBsZSBub25jZQ==` (R11, R218). -/
def vectorKey : Bytes :=
  ascii ['d', 'G', 'h', 'l', 'I', 'H', 'N', 'h', 'b', 'X', 'B', 's', 'Z', 'S', 'B', 'u', 'b', '2', '5', 'j', 'Z', 'Q',
    '=', '=']

/-- Its accept value, `s3pPLMBiTxaQ9kYGzzhZRbK+xOo=` (R11, R218). -/
def vectorAccept : Bytes :=
  ascii ['s', '3', 'p', 'P', 'L', 'M', 'B', 'i', 'T', 'x', 'a', 'Q', '9', 'k', 'Y', 'G', 'z', 'z', 'h', 'Z', 'R', 'b',
    'K', '+', 'x', 'O', 'o', '=']

/-- P-VEC: the source's own test vector. -/
def PVec (sha1 : Bytes → Vector Byte 20) (base64 : Vector Byte 20 → Bytes) : Prop :=
  acceptValue sha1 base64 vectorKey = vectorAccept

/-! ## What R251 says of ValidateText -/

/-- The text the source's validation test accepts, `32,1681593747,44.8159745,20.4601243` (R251). -/
def acceptedText : Bytes :=
  ascii ['3', '2', ',', '1', '6', '8', '1', '5', '9', '3', '7', '4', '7', ',', '4', '4', '.', '8', '1', '5', '9', '7',
    '4', '5', ',', '2', '0', '.', '4', '6', '0', '1', '2', '4', '3']

/-- An ASCII digit. -/
def isDigit (b : Byte) : Bool := 0x30 ≤ b.toNat && b.toNat ≤ 0x39

/-- The comma-separated fields of a text. -/
def textFields : Bytes → List Bytes
  | [] => [[]]
  | b :: bs =>
    match textFields bs with
    | [] => [[b]]
    | f :: fs => if b = 0x2C#8 then [] :: f :: fs else (b :: f) :: fs

/-- An unsigned integer: one digit or more, and nothing else. -/
def isUnsignedInt (f : Bytes) : Bool := f ≠ [] && f.all isDigit

/-- A decimal: an optional sign, then digits with at most one point among them, at least one digit. The spec gives no
decimal format: DESIGN CHOICE (log 4). -/
def isDecimal (f : Bytes) : Bool :=
  let body := if f.head? = some 0x2B#8 ∨ f.head? = some 0x2D#8 then f.tail else f
  body.any isDigit && body.all (fun b => isDigit b || b = 0x2E#8) && body.count 0x2E#8 ≤ 1

/-- The grammar of R251: `device_id,timestamp,lat,lon`, unsigned integer, unsigned integer, decimal, decimal. No byte
of a field is whitespace, a letter, a quote, a semicolon or any other but those of a number, so a text with a wrong
field count, a non-numeric field, an SQL metacharacter or surrounding whitespace is no record. -/
def isRecordText (t : Bytes) : Bool :=
  match textFields t with
  | [id, timestamp, lat, lon] => isUnsignedInt id && isUnsignedInt timestamp && isDecimal lat && isDecimal lon
  | _ => false

/-- The named property of ValidateText (R251): it accepts the example, and it rejects every text that is no record. -/
def PValidate (validate : Bytes → Bool) : Prop :=
  validate acceptedText = true ∧ ∀ t, isRecordText t = false → validate t = false

end Sys2Proof.Machine
end

