-- ==== Sys2Proof/Safety.lean ====
section
/-! DEFINITION. The terms claims are made in: what a completion leaves alone, what it leaves in STATUS and OUT, the
frames of the wire written out from R84 to R87, and the invariants of the block and of its host. -/

namespace Sys2Proof.Machine

/-! ## What a completion changes and leaves -/

/-- What no completion changes: CMD (R24), IN_LEN (R28) and IN (R39), which the block never writes; the configuration
(R37); and the other agents. -/
def SameInputs (s t : State) : Prop :=
  t.cmd = s.cmd ∧ t.inLen = s.inLen ∧ t.inBuf = s.inBuf ∧ t.cfg = s.cfg ∧ t.schedule = s.schedule ∧ t.host = s.host

/-- The frame-field registers are as they were, and with them CLASS (R195). -/
def SameFrame (s t : State) : Prop :=
  t.frCtrl = s.frCtrl ∧ t.frPlenLo = s.frPlenLo ∧ t.frPlenHi = s.frPlenHi ∧ t.frMaskKey = s.frMaskKey
    ∧ t.frFrameLen = s.frFrameLen ∧ t.reg .classBits = s.reg .classBits

/-- OUT_LEN is as it was and every byte of OUT reads as before. -/
def SameOutput (s t : State) : Prop :=
  t.outLen = s.outLen ∧ ∀ a, Memory.read t.outBuf a = Memory.read s.outBuf a

/-- STATUS after a completion with this outcome: BUSY = 0, ERR = the code, the reserved bits as they were (R113). -/
def StatusIs (s t : State) (c : ErrCode) : Prop :=
  t.busy = false ∧ t.err = c.code ∧ t.status &&& 0xFFFFFF0E#32 = s.status &&& 0xFFFFFF0E#32

/-- OUT after a completion with this output: its bytes from OUT[0] on and its length in OUT_LEN; every byte at or
above its length reads as before (R40, R119). -/
def OutputIs (s t : State) (out : Bytes) : Prop :=
  t.outLen.toNat = out.length
    ∧ ∀ a, Memory.read t.outBuf a = if a < out.length then out[a]? else Memory.read s.outBuf a

/-- A failed command: STATUS with the code, and nothing else (R114). -/
def FailsWith (s t : State) (c : ErrCode) : Prop :=
  StatusIs s t c ∧ SameInputs s t ∧ SameFrame s t ∧ SameOutput s t ∧ t.result = s.result

end Sys2Proof.Machine

namespace Sys2Proof

open Machine

/-! ## Instructions by what their completion does -/

/-- The commands and headers whose completion reads IN and IN_LEN (R81): all but the three generators. -/
def Instr.readsInput : Instr → Bool
  | .genPing | .genPong | .genClose => false
  | .decode | .encodeText | .hsDetect | .hsCompose => true
  | .wsContinuation _ | .wsText _ | .wsBinary _ | .wsOpcode3 _ | .wsOpcode4 _ | .wsOpcode5 _ | .wsOpcode6 _
  | .wsOpcode7 _ | .wsClose _ | .wsPing _ | .wsPong _ | .wsOpcodeB _ | .wsOpcodeC _ | .wsOpcodeD _ | .wsOpcodeE _
  | .wsOpcodeF _ => true

/-- DECODE and the sixteen headers, whose meaning is DECODE's: what writes the frame-field registers (R30). -/
def Instr.isDecode : Instr → Bool
  | .decode => true
  | .encodeText | .genPing | .genPong | .genClose | .hsDetect | .hsCompose => false
  | .wsContinuation _ | .wsText _ | .wsBinary _ | .wsOpcode3 _ | .wsOpcode4 _ | .wsOpcode5 _ | .wsOpcode6 _
  | .wsOpcode7 _ | .wsClose _ | .wsPing _ | .wsPong _ | .wsOpcodeB _ | .wsOpcodeC _ | .wsOpcodeD _ | .wsOpcodeE _
  | .wsOpcodeF _ => true

/-- `perform(c, s)` of R113 for every instruction: a function of the configuration and the input alone (R120). -/
def Instr.perform (c : Config) : Instr → Bytes → Except ErrCode Effect
  | .decode, s => performDecode s
  | .encodeText, s => performEncodeText c.maxEncodeLen s
  | .genPing, _ => .ok { out := some pingFrame }
  | .genPong, _ => .ok { out := some pongFrame }
  | .genClose, _ => .ok { out := some closeFrame }
  | .hsDetect, s => performDetect c.getCaseInsensitive s
  | .hsCompose, s => performCompose Config.sha1 Config.base64 s
  | .wsContinuation h, s => decodeFrame (h.byte0 0x0#4) h.byte1 s
  | .wsText h, s => decodeFrame (h.byte0 0x1#4) h.byte1 s
  | .wsBinary h, s => decodeFrame (h.byte0 0x2#4) h.byte1 s
  | .wsOpcode3 h, s => decodeFrame (h.byte0 0x3#4) h.byte1 s
  | .wsOpcode4 h, s => decodeFrame (h.byte0 0x4#4) h.byte1 s
  | .wsOpcode5 h, s => decodeFrame (h.byte0 0x5#4) h.byte1 s
  | .wsOpcode6 h, s => decodeFrame (h.byte0 0x6#4) h.byte1 s
  | .wsOpcode7 h, s => decodeFrame (h.byte0 0x7#4) h.byte1 s
  | .wsClose h, s => decodeFrame (h.byte0 0x8#4) h.byte1 s
  | .wsPing h, s => decodeFrame (h.byte0 0x9#4) h.byte1 s
  | .wsPong h, s => decodeFrame (h.byte0 0xA#4) h.byte1 s
  | .wsOpcodeB h, s => decodeFrame (h.byte0 0xB#4) h.byte1 s
  | .wsOpcodeC h, s => decodeFrame (h.byte0 0xC#4) h.byte1 s
  | .wsOpcodeD h, s => decodeFrame (h.byte0 0xD#4) h.byte1 s
  | .wsOpcodeE h, s => decodeFrame (h.byte0 0xE#4) h.byte1 s
  | .wsOpcodeF h, s => decodeFrame (h.byte0 0xF#4) h.byte1 s

end Sys2Proof

namespace Sys2Proof.Machine

/-! ## Frames of the wire -/

/-- The three encodings of a payload length (R85). -/
inductive LenForm where
  | short
  | mid
  | long
  deriving DecidableEq, Repr

/-- The lengths an encoding can carry and DECODE accepts: minimal or not (R89), below 2^63 (R137). -/
def LenForm.carries : LenForm → Nat → Prop
  | .short, n => n ≤ 125
  | .mid, n => n ≤ 65535
  | .long, n => n < 2 ^ 63

/-- LEN7 of an encoding (R85). -/
def LenForm.len7 : LenForm → Nat → Nat
  | .short, n => n
  | .mid, _ => 126
  | .long, _ => 127

/-- The extended length of an encoding, big-endian (R85). -/
def LenForm.extension : LenForm → Nat → Bytes
  | .short, _ => []
  | .mid, n => [8, 0].map fun k => BitVec.ofNat 8 (n >>> k)
  | .long, n => [56, 48, 40, 32, 24, 16, 8, 0].map fun k => BitVec.ofNat 8 (n >>> k)

/-- The number of extended length bytes: 0, 2 or 8 (R86). -/
def LenForm.ext : LenForm → Nat
  | .short => 0
  | .mid => 2
  | .long => 8

/-- The four key bytes in wire order (R86). -/
def MaskKey.bytes (k : MaskKey) : Bytes := [k.k0, k.k1, k.k2, k.k3]

/-- HDRLEN = 2 + ext + 4*MASK (R31, R87). -/
def LenForm.hdrLen (f : LenForm) (masked : Bool) : Nat := 2 + f.ext + if masked then 4 else 0

/-- The mask key of a frame: its four bytes when MASK = 1, nothing when MASK = 0 (R86). -/
def keyBytes (masked : Bool) (k : MaskKey) : Bytes := if masked then k.bytes else []

/-- A frame on the wire (R84 to R87): header bytes, extended length, mask key, payload as sent. -/
def wireFrame (op : BitVec 4) (h : WireHeader) (f : LenForm) (k : MaskKey) (w : Bytes) : Bytes :=
  [h.byte0 op, h.byte1] ++ f.extension w.length ++ keyBytes h.masked k ++ w

/-- The payload a frame carries: each byte XOR `key[i mod 4]` iff MASK = 1 (R87, R140). -/
def framePayload (masked : Bool) (k : MaskKey) (w : Bytes) : Bytes :=
  if masked then w.mapIdx fun i b => b ^^^ k.lane i else w

/-- What a DECODE of this frame leaves in the frame-field registers (R30 to R34), CLASS with them (R35). -/
def FrameIs (t : State) (op : BitVec 4) (h : WireHeader) (f : LenForm) (k : MaskKey) (plen : Nat) : Prop :=
  (t.frCtrl.extractLsb' 0 8 = h.byte0 op ∧ t.frCtrl.extractLsb' 8 8 = h.byte1
      ∧ (t.frCtrl.extractLsb' 16 4).toNat = f.hdrLen h.masked ∧ t.frCtrl.extractLsb' 20 12 = 0#12)
    ∧ t.frPlenLo.toNat = plen ∧ t.frPlenHi = 0#32
    ∧ (if h.masked then
        t.frMaskKey.extractLsb' 24 8 = k.k0 ∧ t.frMaskKey.extractLsb' 16 8 = k.k1
          ∧ t.frMaskKey.extractLsb' 8 8 = k.k2 ∧ t.frMaskKey.extractLsb' 0 8 = k.k3
      else t.frMaskKey = 0#32)
    ∧ t.frFrameLen.toNat = f.hdrLen h.masked + plen

/-- CLASS of an opcode (R194). -/
def classOf (op : BitVec 4) : Word :=
  if op = 0x1#4 then 0x1#32
  else if op = 0x8#4 then 0x2#32
  else if op = 0x9#4 then 0x4#32
  else if op = 0xA#4 then 0x8#32
  else 0x0#32

/-- The number of extended length bytes of a LEN7 (R31). -/
def extOfLen7 (len7 : Nat) : Nat := if len7 ≤ 125 then 0 else if len7 = 126 then 2 else 8

/-- The payload length the wire fields carry, by the formula of R93. -/
def wireLength (len7 : Nat) (s : Bytes) : Nat :=
  let b (i : Nat) : Nat := (s.getD i 0#8).toNat
  if len7 ≤ 125 then len7
  else if len7 = 126 then (b 2 <<< 8) ||| b 3
  else (b 2 <<< 56) ||| (b 3 <<< 48) ||| (b 4 <<< 40) ||| (b 5 <<< 32)
    ||| (b 6 <<< 24) ||| (b 7 <<< 16) ||| (b 8 <<< 8) ||| b 9

/-- LEN7 and MASK of an input, from its byte 1 (R133). -/
def len7Of (s : Bytes) : Nat := ((s.getD 1 0#8).extractLsb' 0 7).toNat
def maskOf (s : Bytes) : Bool := (s.getD 1 0#8).getLsbD 7

/-- HDRLEN of an input, from its byte 1 (R31, R88). -/
def hdrLenOf (s : Bytes) : Nat := 2 + extOfLen7 (len7Of s) + if maskOf s then 4 else 0

/-- The first of DECODE's own checks that fails, in the order of R152, or none. -/
def firstDecodeError (s : Bytes) : Option ErrCode :=
  if s.length < 2 ∨ (len7Of s = 126 ∧ s.length < 4) ∨ (len7Of s = 127 ∧ s.length < 10) then some .truncHeader
  else if len7Of s = 127 ∧ 2 ^ 63 ≤ wireLength (len7Of s) s then some .lenRange
  else if maskOf s = true ∧ s.length < hdrLenOf s then some .truncHeader
  else if s.length - hdrLenOf s < wireLength (len7Of s) s then some .truncPayload
  else none

/-- The header of a text frame of `n` payload bytes, as the table of R172 lists it. -/
def minimalHeader (n : Nat) : Bytes :=
  let byte (k : Nat) : Byte := BitVec.ofNat 8 (n >>> k)
  if n ≤ 125 then [0x81#8, byte 0]
  else if n ≤ 65535 then [0x81#8, 0x7E#8, byte 8, byte 0]
  else [0x81#8, 0x7F#8, byte 56, byte 48, byte 40, byte 32, byte 24, byte 16, byte 8, byte 0]

/-! ## Handshake requests -/

/-- The input begins with `GET`, exactly or with the case of each letter free (R202). -/
def BeginsWithGet (caseInsensitive : Bool) (s : Bytes) : Prop :=
  if caseInsensitive then (s.take 3).map (· ||| 0x20#8) = [0x67#8, 0x65#8, 0x74#8]
  else s.take 3 = [0x47#8, 0x45#8, 0x54#8]

/-- Position `p` is a line start of `s` (R203) at which the key header prefix stands (R204). -/
def IsKeyLine (s : Bytes) (p : Nat) : Prop :=
  p < s.length ∧ (p = 0 ∨ s[p - 1]? = some 0x0A#8) ∧ p + 19 ≤ s.length ∧ (s.drop p).take 19 = keyPrefix

/-- The whitespace set WS of R205. -/
def whitespaceSet : Bytes := [0x09#8, 0x0A#8, 0x0B#8, 0x0C#8, 0x0D#8, 0x20#8]

/-- `key` is `raw` with every leading and every trailing byte of WS removed (R205). -/
def TrimmedOf (raw key : Bytes) : Prop :=
  ∃ front back : Bytes, raw = front ++ key ++ back
    ∧ (∀ b ∈ front, b ∈ whitespaceSet) ∧ (∀ b ∈ back, b ∈ whitespaceSet)
    ∧ (∀ b, key.head? = some b → b ∉ whitespaceSet) ∧ ∀ b, key.getLast? = some b → b ∉ whitespaceSet

/-- The 129-byte response of the source's handshake vector, in the bytes 95_test_vectors.md S-2 lists. -/
def sourceResponse : Bytes :=
  [0x48, 0x54, 0x54, 0x50, 0x2f, 0x31, 0x2e, 0x31, 0x20, 0x31, 0x30, 0x31, 0x20, 0x53, 0x77, 0x69, 0x74, 0x63, 0x68,
   0x69, 0x6e, 0x67, 0x20, 0x50, 0x72, 0x6f, 0x74, 0x6f, 0x63, 0x6f, 0x6c, 0x73, 0x0d, 0x0a] ++
  [0x43, 0x6f, 0x6e, 0x6e, 0x65, 0x63, 0x74, 0x69, 0x6f, 0x6e, 0x3a, 0x20, 0x55, 0x70, 0x67, 0x72, 0x61, 0x64, 0x65,
   0x0d, 0x0a] ++
  [0x55, 0x70, 0x67, 0x72, 0x61, 0x64, 0x65, 0x3a, 0x20, 0x77, 0x65, 0x62, 0x73, 0x6f, 0x63, 0x6b, 0x65, 0x74, 0x0d,
   0x0a] ++
  [0x53, 0x65, 0x63, 0x2d, 0x57, 0x65, 0x62, 0x53, 0x6f, 0x63, 0x6b, 0x65, 0x74, 0x2d, 0x41, 0x63, 0x63, 0x65, 0x70,
   0x74, 0x3a, 0x20] ++
  [0x73, 0x33, 0x70, 0x50, 0x4c, 0x4d, 0x42, 0x69, 0x54, 0x78, 0x61, 0x51, 0x39, 0x6b, 0x59, 0x47, 0x7a, 0x7a, 0x68,
   0x5a, 0x52, 0x62, 0x4b, 0x2b, 0x78, 0x4f, 0x6f, 0x3d] ++
  [0x0d, 0x0a, 0x0d, 0x0a]

/-! ## The reference host's moves, written out -/

/-- `load IN, bs; run <the command word v>` (R94), access by access. -/
def loadAndRun (v : Word) (bs : Bytes) : List HostOp :=
  bs.mapIdx (fun i b => .access (.inWrite i b))
    ++ [.access (.regWrite 4 0x08 (BitVec.ofNat 32 bs.length)), .access (.regWrite 4 0x00 v), .wait]

/-- The host's side as it goes on from a message (R236, R249): under ACCUMULATE, while Q is not empty and CONN = OPEN,
at most IN_CAP bytes of Q are loaded and decoded; otherwise the next Read. -/
def HostSide.atNextMessage (c : Config) (h : HostSide) : HostSide :=
  if c.reassembly = .accumulate ∧ h.queue ≠ [] ∧ h.conn = .opened then
    { h with script := loadAndRun 0x00000001#32 (h.queue.take c.inCap.toNat), phase := .decoded }
  else { h with script := [], phase := .read }

/-- The phases in which the reference host reads a result of the command it ran: RESULT, FR_FRAMELEN, CLASS, OUT_LEN
or OUT. -/
def Phase.usesResults : Phase → Bool
  | .detectResult _ | .frameLen | .classify | .outLength _ | .collect _ _ _ => true
  | .read | .detected _ | .ran _ | .decoded | .write _ _ | .validate _ | .store _ | .closed => false

/-! ## Invariants of the block -/

/-- The frame-field registers hold a decoded frame (R30 to R34): HDRLEN is what LEN7 and MASKED make it (R31), the
reserved field is 0, the length is in FR_PLEN_LO alone (R32), an unmasked frame has key 0 (R33), FR_FRAMELEN is the
sum (R34), and a short LEN7 is the length itself (R134). -/
def State.FrameDecoded (s : State) : Prop :=
  frCtrlReserved s.frCtrl = 0#12
    ∧ (frCtrlHdrLen s.frCtrl).toNat
        = 2 + extOfLen7 (frCtrlLen7 s.frCtrl).toNat + (if frCtrlMasked s.frCtrl then 4 else 0)
    ∧ s.frPlenHi = 0#32
    ∧ (frCtrlMasked s.frCtrl = false → s.frMaskKey = 0#32)
    ∧ s.frFrameLen.toNat = (frCtrlHdrLen s.frCtrl).toNat + s.frPlenLo.toNat
    ∧ ((frCtrlLen7 s.frCtrl).toNat ≤ 125 → s.frPlenLo.toNat = (frCtrlLen7 s.frCtrl).toNat)

/-- No frame has been decoded since reset: every frame-field register is 0 (R30). -/
def State.NoFrame (s : State) : Prop :=
  s.frCtrl = 0#32 ∧ s.frPlenLo = 0#32 ∧ s.frPlenHi = 0#32 ∧ s.frMaskKey = 0#32 ∧ s.frFrameLen = 0#32

/-- The block's invariant. -/
structure State.Inv (s : State) : Prop where
  /-- the configuration is one the spec allows (R7 to R9, R13) -/
  cfgOk : s.cfg.wf = true
  /-- STATUS: reserved bits 0, ERR 0 to 8 (R25, R27) -/
  statusOk : statusLegal s.status = true
  /-- IN is in canonical form, every index below IN_CAP (R39) -/
  inWf : Memory.wf s.inBuf = true
  inWithin : Memory.within s.cfg.inCap.toNat s.inBuf = true
  /-- OUT is in canonical form, every index below OUT_CAP (R40) -/
  outWf : Memory.wf s.outBuf = true
  outWithin : Memory.within s.cfg.outCap.toNat s.outBuf = true
  /-- OUT_LEN is at most OUT_CAP (R29) and counts written bytes: reading a result never finds one unwritten -/
  outLenOk : s.outLen.toNat ≤ s.cfg.outCap.toNat
  outFilled : Memory.filled s.outLen.toNat s.outBuf = true
  /-- RESULT[31:1] reads 0 (R36) -/
  resultOk : s.result = 0#32 ∨ s.result = 1#32
  /-- the frame-field registers are as after reset or as a successful DECODE leaves them -/
  frameOk : s.NoFrame ∨ s.FrameDecoded

/-! ## Invariants of the reference host -/

/-- No text the oracle rejects has been handed to StoreRecord, and none is about to be (R251). -/
def State.OnlyValidStored (s : State) : Prop :=
  (∀ x ∈ s.host.stored, Config.validateText x = true)
    ∧ ∀ x, s.host.phase = .store x → Config.validateText x = true

/-- The command codes of R81. -/
def tabledOps : List Byte :=
  [opDecode, opEncodeText, opGenPing, opGenPong, opGenClose, opHsDetect, opHsCompose]

/-- The input a command would read is there: IN_LEN within IN_CAP and every byte of it written (R294 step 2). -/
def State.InputReady (s : State) : Prop :=
  s.inLen.toNat ≤ s.cfg.inCap.toNat ∧ Memory.filled s.inLen.toNat s.inBuf = true

/-- The only payload the reference host encodes is `OK`, two bytes (R238). -/
def EncodesOk (op : Byte) (n : Nat) : Prop := op = opEncodeText → n = 2

/-- How the reference host's script stands with the block, at whatever step of `load; run` it is (R248, R294): the
rest of a load is to come, with the bytes before it written; or a command is to be issued; or one has been issued
and is waited for; or the script is made and no command is pending. -/
def State.ScriptOk (s : State) : Prop :=
  (∃ i bs op, s.host.script = inWrites i bs
      ++ [.access (.regWrite 4 Reg.inLen.offset (BitVec.ofNat 32 (i + bs.length)))] ++ runOps op
      ∧ op ∈ tabledOps ∧ EncodesOk op (i + bs.length) ∧ i + bs.length ≤ s.cfg.inCap.toNat
      ∧ Memory.filled i s.inBuf = true ∧ s.busy = false)
    ∨ (∃ op, s.host.script = runOps op ∧ op ∈ tabledOps ∧ EncodesOk op s.inLen.toNat ∧ s.busy = false)
    ∨ (s.host.script = [.wait] ∧ ∃ op, s.cmd = commandWord op ∧ op ∈ tabledOps ∧ EncodesOk op s.inLen.toNat)
    ∨ (s.host.script = [] ∧ s.busy = false)

/-- The reference host at any point of its loop (R249). -/
structure State.HostInv (s : State) : Prop where
  scriptOk : s.ScriptOk
  inputReady : s.InputReady
  /-- the bytes of OUT it is reading out are within OUT_LEN (R248) -/
  collectOk : ∀ p n got, s.host.phase = .collect p n got →
    s.host.script = [] ∧ got.length ≤ n ∧ n ≤ s.outLen.toNat
  /-- results are used only after ERR = 0 was read (R248) -/
  resultsOk : s.host.phase.usesResults = true → s.host.script = [] ∧ s.err = 0#4
  /-- a closed connection has nothing left to do (R242) -/
  closedOk : s.host.conn = .closed → s.host.phase = .closed ∧ s.host.script = []

end Sys2Proof.Machine
end

