-- ==== Sys2Proof/Certificates/Slice0/Obligations.lean ====
section
/-! DEFINITION. The statements about the model, for the provers. Each says which rule of spec/ it formalises; where it
rests on a choice of the model's own it names the log entry. -/

open Sys2Proof Sys2Proof.Machine

/-! ## Encodings -/

/-- Words written out from R81 and R84 decode to the instructions they stand for. -/
def Obligations.TabledWordsDecode : Prop :=
  decode (.command 0x00000001#32) = .ok .decode
    ∧ decode (.command 0x00000002#32) = .ok .encodeText
    ∧ decode (.command 0x00000003#32) = .ok .genPing
    ∧ decode (.command 0x00000004#32) = .ok .genPong
    ∧ decode (.command 0x00000005#32) = .ok .genClose
    ∧ decode (.command 0x00000006#32) = .ok .hsDetect
    ∧ decode (.command 0x00000007#32) = .ok .hsCompose
    ∧ decode (.header 0b1000000100000101#16) = .ok (.wsText ⟨true, false, false, false, false, 5⟩)
    ∧ decode (.header 0b0101100111111110#16) = .ok (.wsPing ⟨false, true, false, true, true, 126⟩)
    ∧ decode (.header 0b0010111101111111#16) = .ok (.wsOpcodeF ⟨false, false, true, false, false, 127⟩)

/-- R83: the decoding of the command word is total over all 2^32 values: seven words are commands, every other is
illegal. -/
def Obligations.CommandDecodeIsTotal : Prop :=
  ∀ v : Word,
    (decodeCmd v = .ok .decode ↔ v = 0x00000001#32)
      ∧ (decodeCmd v = .ok .encodeText ↔ v = 0x00000002#32)
      ∧ (decodeCmd v = .ok .genPing ↔ v = 0x00000003#32)
      ∧ (decodeCmd v = .ok .genPong ↔ v = 0x00000004#32)
      ∧ (decodeCmd v = .ok .genClose ↔ v = 0x00000005#32)
      ∧ (decodeCmd v = .ok .hsDetect ↔ v = 0x00000006#32)
      ∧ (decodeCmd v = .ok .hsCompose ↔ v = 0x00000007#32)
      ∧ (decodeCmd v = .error .illegalCommand ↔ v = 0#32 ∨ 0x00000008#32 ≤ v)

/-- R84: the fields of the header, from its two bytes and from the header word. -/
def Obligations.HeaderFieldsAreTheBits : Prop :=
  (∀ (b0 b1 : Byte) (rest : Bytes), decodeWire (b0 :: b1 :: rest) =
      .ok (.ofOpcode (b0.extractLsb' 0 4)
        ⟨b0.getLsbD 7, b0.getLsbD 6, b0.getLsbD 5, b0.getLsbD 4, b1.getLsbD 7, (b1.extractLsb' 0 7).toNat⟩, rest))
    ∧ ∀ h : BitVec 16, decode (.header h) =
      .ok (.ofOpcode (h.extractLsb' 8 4)
        ⟨h.getLsbD 15, h.getLsbD 14, h.getLsbD 13, h.getLsbD 12, h.getLsbD 7, (h.extractLsb' 0 7).toNat⟩)

/-- Decoding the code of a well-formed instruction gives the instruction back, with every field (R80, R81, R84, R90). -/
def Obligations.DecodeOfEncode : Prop :=
  ∀ i : Instr, i.wellFormed = true → decode (encode i) = .ok i

/-- Every code that decodes is the code of the instruction it decodes to, and that instruction is well formed. -/
def Obligations.EncodeOfDecode : Prop :=
  ∀ (c : Code) (i : Instr), decode c = .ok i → i.wellFormed = true ∧ encode i = c

/-- A code that decodes is accepted by its instruction's row of the opcode table and by no other row. -/
def Obligations.OneTableRowAcceptsACode : Prop :=
  ∀ (c : Code) (i : Instr), decode c = .ok i →
    ∀ (k : Nat) (r : TableRow), opcodeTable[k]? = some r → (r.accepts c = true ↔ k = i.rowIndex)

/-! ## The step and the fetch -/

/-- A step with a pending command, on the codec's turn, is exec of the fetched instruction at that state; a turn the
schedule gives takes its entry off. -/
def Obligations.StepRunsTheFetchedInstruction : Prop :=
  ∀ (s : State) (i : Instr), s.busy = true → s.fetch = .ok i →
    (s.schedule = [] → step s = exec i s)
      ∧ ∀ rest, s.schedule = .codec :: rest → step s = exec i { s with schedule := rest }

/-- What is fetched: the command CMD decodes to; under DECODE, the header the input begins with, and DECODE itself
where the input has no two bytes to read. DESIGN CHOICE (log 1). -/
def Obligations.FetchReadsTheCommandThenTheHeader : Prop :=
  ∀ s : State,
    (∀ i, decode (.command s.cmd) = .ok i → i ≠ .decode → s.fetch = .ok i)
      ∧ (decode (.command s.cmd) = .ok .decode →
          (∀ b0 b1 rest, s.input = .bytes (b0 :: b1 :: rest) →
            decode (.header (b0 ++ b1)) = s.fetch)
          ∧ ((∀ b0 b1 rest, s.input ≠ .bytes (b0 :: b1 :: rest)) → s.fetch = .ok .decode))

/-- Whichever header is fetched under the DECODE word, the step is DECODE (R113, R150): the meaning of a wire header
on its own frame is DECODE's. -/
def Obligations.DecodeWordRunsDecode : Prop :=
  ∀ s : State, s.busy = true → s.cmd = 0x00000001#32 → s.schedule = [] → step s = exec .decode s

/-- R261: the completion of a word that is no command ends with ILLEGAL_CMD and nothing but STATUS changes, whether or
not IN and IN_LEN could be read; a step with such a word pending is that completion. -/
def Obligations.IllegalWordChangesOnlyStatus : Prop :=
  ∀ (s : State) (e : DecodeError), decodeCmd s.cmd = .error e →
    ∃ t, s.complete = .next t ∧ FailsWith s t .illegalCmd ∧ (s.busy = true → s.schedule = [] → step s = .next t)

/-! ## Every completion -/

/-- R114: a completion that ends with a nonzero ERR, of any instruction or of any word in CMD, differs from the state
before only in STATUS.ERR and STATUS.BUSY = 0. -/
def Obligations.FailedCommandChangesOnlyStatus : Prop :=
  ∀ s t : State, (s.complete = .next t ∨ ∃ i, exec i s = .next t) → t.err ≠ 0#4 →
    ∃ c, c ≠ .success ∧ FailsWith s t c

/-- No completion writes CMD, IN_LEN or IN, or touches the configuration or the other agents (R24, R28, R39). -/
def Obligations.CompletionKeepsItsInputs : Prop :=
  ∀ (i : Instr) (s t : State), exec i s = .next t → SameInputs s t

/-- Every instruction ends in a next state with BUSY = 0, an ERR of R260 and the reserved bits of STATUS as they were,
or in the one fault of R117; none is refused. -/
def Obligations.CompletionEndsOrInputIsUnwritten : Prop :=
  ∀ (i : Instr) (s : State),
    (∃ t c, exec i s = .next t ∧ StatusIs s t c)
      ∨ (exec i s = .fault .unwrittenInput ∧ i.readsInput = true ∧ s.input = .unwritten)

/-- R116: IN_LEN above IN_CAP is IN_LEN_RANGE for what reads IN, and the generators never raise it. -/
def Obligations.InLenAboveCapacityFails : Prop :=
  ∀ (i : Instr) (s : State),
    (i.readsInput = true → s.cfg.inCap.toNat < s.inLen.toNat → ∃ t, exec i s = .next t ∧ FailsWith s t .inLenRange)
      ∧ (i.readsInput = false → ∀ t, exec i s = .next t → t.err ≠ 7#4)

/-- R117: for what reads IN, one unwritten byte of `IN[0 .. IN_LEN-1]` is the host fault; with every byte written there
is none. IN is in its canonical form, which every step keeps. -/
def Obligations.UnwrittenInputByteFaults : Prop :=
  ∀ (i : Instr) (s : State), i.readsInput = true → Memory.wf s.inBuf = true → s.inLen.toNat ≤ s.cfg.inCap.toNat →
    ((∃ a < s.inLen.toNat, Memory.read s.inBuf a = none) → exec i s = .fault .unwrittenInput)
      ∧ ((∀ a < s.inLen.toNat, Memory.read s.inBuf a ≠ none) → ∃ t, exec i s = .next t)

/-- R118: an output longer than OUT_CAP is OUT_OVERFLOW; the generators never overflow when OUT_CAP is at least 2, and
DECODE and ENCODE_TEXT never do when OUT_CAP is at least IN_CAP + 10. -/
def Obligations.OutputAboveCapacityFails : Prop :=
  ∀ (i : Instr) (s : State),
    (∀ bs e o, (i.readsInput = true → s.input = .bytes bs) → i.perform s.cfg bs = .ok e → e.out = some o →
        s.cfg.outCap.toNat < o.length → ∃ t, exec i s = .next t ∧ FailsWith s t .outOverflow)
      ∧ (i.readsInput = false → 2 ≤ s.cfg.outCap.toNat → ∀ t, exec i s = .next t → t.err ≠ 8#4)
      ∧ (i.isDecode = true ∨ i = .encodeText → s.cfg.inCap.toNat + 10 ≤ s.cfg.outCap.toNat →
          ∀ t, exec i s = .next t → t.err ≠ 8#4)

/-- R120: two completions of the same instruction with the same input, under the same configuration, have the same
outcome: the same fault, or the same ERR and, on success, the same results, whatever else the two states hold. -/
def Obligations.OutcomeIsAFunctionOfTheInput : Prop :=
  ∀ (i : Instr) (s u : State), s.cfg = u.cfg → (i.readsInput = true → s.input = u.input) →
    (∃ f, exec i s = .fault f ∧ exec i u = .fault f)
      ∨ ∃ t v, exec i s = .next t ∧ exec i u = .next v ∧ t.err = v.err
          ∧ (t.err = 0#4 →
              (i ≠ .hsDetect → t.outLen = v.outLen
                ∧ ∀ a < t.outLen.toNat, Memory.read t.outBuf a = Memory.read v.outBuf a)
              ∧ (i = .hsDetect → t.result = v.result)
              ∧ (i.isDecode = true → t.frCtrl = v.frCtrl ∧ t.frPlenLo = v.frPlenLo ∧ t.frPlenHi = v.frPlenHi
                  ∧ t.frMaskKey = v.frMaskKey ∧ t.frFrameLen = v.frFrameLen))

/-- What a completion does not list it leaves, success or not (R151, R175, R195, R201, R215): ENCODE_TEXT, the
generators and HS_COMPOSE leave the frame-field registers, CLASS and RESULT; HS_DETECT leaves the frame-field
registers, CLASS, OUT_LEN and OUT; DECODE and the headers leave RESULT. -/
def Obligations.UnlistedResultsAreKept : Prop :=
  ∀ (i : Instr) (s t : State), exec i s = .next t →
    (i = .encodeText ∨ i = .genPing ∨ i = .genPong ∨ i = .genClose ∨ i = .hsCompose →
        SameFrame s t ∧ t.result = s.result)
      ∧ (i = .hsDetect → SameFrame s t ∧ SameOutput s t)
      ∧ (i.isDecode = true → t.result = s.result)

/-- A completion leaves every byte of OUT at or above the length of its output as it was (R40, R119), and all of OUT
where it fails or is HS_DETECT (R114, R201). -/
def Obligations.OutputBeyondItsLengthIsKept : Prop :=
  ∀ (i : Instr) (s t : State), exec i s = .next t →
    ∀ a, (i = .hsDetect ∨ t.err ≠ 0#4 ∨ t.outLen.toNat ≤ a) → Memory.read t.outBuf a = Memory.read s.outBuf a

/-! ## DECODE and the wire headers -/

/-- DECODE of a whole frame on the wire, in any of the three length encodings, masked or not, with any bytes after it,
that fits OUT: it completes with the payload in OUT, the frame-field registers and CLASS of the frame, and nothing
else changed (R142, R151). -/
def Obligations.DecodeOfAFrameCompletes : Prop :=
  ∀ (s : State) (op : BitVec 4) (h : WireHeader) (f : LenForm) (k : MaskKey) (w rest : Bytes),
    h.len7 = f.len7 w.length → f.carries w.length →
    s.input = .bytes (wireFrame op h f k w ++ rest) → w.length ≤ s.cfg.outCap.toNat →
    ∃ t, exec .decode s = .next t ∧ StatusIs s t .success ∧ SameInputs s t
      ∧ OutputIs s t (framePayload h.masked k w) ∧ FrameIs t op h f k w.length
      ∧ t.reg .classBits = classOf op ∧ t.result = s.result

/-- The sixteen wire headers wsContinuation, wsText, wsBinary, wsOpcode3 to wsOpcode7, wsClose, wsPing, wsPong and
wsOpcodeB to wsOpcodeF: each completes on a whole frame that begins with it, as DECODE does, with its opcode in
FR_CTRL and its class in CLASS (R90, R138, R190 to R193, R196). -/
def Obligations.WireHeadersComplete : Prop :=
  ∀ (s : State) (op : BitVec 4) (h : WireHeader) (f : LenForm) (k : MaskKey) (w rest : Bytes),
    h.len7 = f.len7 w.length → f.carries w.length →
    s.input = .bytes (wireFrame op h f k w ++ rest) → w.length ≤ s.cfg.outCap.toNat →
    ∃ t, exec (.ofOpcode op h) s = .next t ∧ StatusIs s t .success ∧ SameInputs s t
      ∧ OutputIs s t (framePayload h.masked k w) ∧ FrameIs t op h f k w.length
      ∧ t.reg .classBits = classOf op ∧ t.result = s.result

/-- R152: the errors of DECODE in the order they are checked, each leaving all but STATUS unchanged; with none of them
DECODE succeeds. -/
def Obligations.DecodeErrorsInOrder : Prop :=
  ∀ (s : State) (bs : Bytes), s.input = .bytes bs →
    (∀ c, firstDecodeError bs = some c → ∃ t, exec .decode s = .next t ∧ FailsWith s t c)
      ∧ (firstDecodeError bs = none →
          (s.cfg.outCap.toNat < wireLength (len7Of bs) bs →
            ∃ t, exec .decode s = .next t ∧ FailsWith s t .outOverflow)
          ∧ (wireLength (len7Of bs) bs ≤ s.cfg.outCap.toNat →
            ∃ t, exec .decode s = .next t ∧ StatusIs s t .success
              ∧ t.outLen.toNat = wireLength (len7Of bs) bs
              ∧ t.frFrameLen.toNat = hdrLenOf bs + wireLength (len7Of bs) bs))

/-- R31: after a successful DECODE, FR_CTRL.HDRLEN = 2 + ext + 4*MASKED, with ext told by LEN7. -/
def Obligations.HeaderLengthFollowsByteOne : Prop :=
  ∀ (i : Instr) (s t : State), i.isDecode = true → exec i s = .next t → t.err = 0#4 →
    (frCtrlHdrLen t.frCtrl).toNat
      = 2 + (if (frCtrlLen7 t.frCtrl).toNat ≤ 125 then 0 else if (frCtrlLen7 t.frCtrl).toNat = 126 then 2 else 8)
        + (if frCtrlMasked t.frCtrl then 4 else 0)

/-- After a successful DECODE the payload length is in FR_PLEN_LO alone and is OUT_LEN (R32, R151), FR_FRAMELEN is
HDRLEN plus it (R34), and the frame lies within the input (R142). -/
def Obligations.DecodedLengthsAgree : Prop :=
  ∀ (i : Instr) (s t : State), i.isDecode = true → exec i s = .next t → t.err = 0#4 →
    t.frPlenHi = 0#32 ∧ t.frPlenLo = t.outLen
      ∧ t.frFrameLen.toNat = (frCtrlHdrLen t.frCtrl).toNat + t.frPlenLo.toNat
      ∧ t.frFrameLen.toNat ≤ s.inLen.toNat

/-- R143: the mask applicator is its own inverse. -/
def Obligations.MaskingTwiceGivesTheWireBytes : Prop :=
  ∀ (k : MaskKey) (w : Bytes), applyMask k (applyMask k w) = w

/-- R134, R135, R136: the three forms of the length decoder, with the length by the formula of R93. -/
def Obligations.LengthDecoderForms : Prop :=
  ∀ s : Bytes,
    (∀ n ≤ 125, lengthField n s = .ok (0, n))
      ∧ lengthField 126 s = (if s.length < 4 then .error .truncHeader else .ok (2, wireLength 126 s))
      ∧ lengthField 127 s = (if s.length < 10 then .error .truncHeader
          else if 2 ^ 63 ≤ wireLength 127 s then .error .lenRange else .ok (8, wireLength 127 s))

/-! ## ENCODE_TEXT and the generators -/

/-- ENCODE_TEXT completes on every payload within MAX_ENCODE_LEN whose frame fits OUT: the minimal header and the
payload unchanged, nothing else written (R171, R173, R175). -/
def Obligations.EncodeTextCompletes : Prop :=
  ∀ (s : State) (p : Bytes), s.input = .bytes p → p.length ≤ s.cfg.maxEncodeLen →
    (minimalHeader p.length).length + p.length ≤ s.cfg.outCap.toNat →
    ∃ t, exec .encodeText s = .next t ∧ StatusIs s t .success ∧ SameInputs s t
      ∧ OutputIs s t (minimalHeader p.length ++ p) ∧ SameFrame s t ∧ t.result = s.result

/-- R174: a payload longer than MAX_ENCODE_LEN is SIZE_LIMIT, which can arise only when IN_CAP exceeds it. -/
def Obligations.TooLongPayloadIsSizeLimit : Prop :=
  (∀ (s : State) (p : Bytes), s.input = .bytes p → s.cfg.maxEncodeLen < p.length →
      ∃ t, exec .encodeText s = .next t ∧ FailsWith s t .sizeLimit)
    ∧ ∀ s t : State, exec .encodeText s = .next t → t.err = 4#4 → s.cfg.maxEncodeLen < s.cfg.inCap.toNat

/-- R181: what ENCODE_TEXT makes of a payload, read from OUT, loaded into IN of a block and decoded there, is the
payload again, as an unmasked text frame with FIN = 1 that fills its input. -/
def Obligations.EncodeThenDecodeRoundTrip : Prop :=
  ∀ (s t u : State) (p o : Bytes), s.input = .bytes p → exec .encodeText s = .next t → t.err = 0#4 →
    Memory.readBytes t.outBuf 0 t.outLen.toNat = some o → u.input = .bytes o → p.length ≤ u.cfg.outCap.toNat →
    ∃ v, exec .decode u = .next v ∧ v.err = 0#4
      ∧ Memory.readBytes v.outBuf 0 v.outLen.toNat = some p
      ∧ v.frPlenLo.toNat = p.length ∧ v.frPlenHi = 0#32
      ∧ frCtrlOpcode v.frCtrl = 0x1#4 ∧ frCtrlFin v.frCtrl = true ∧ frCtrlMasked v.frCtrl = false
      ∧ v.frFrameLen = u.inLen

/-- R182: the header ENCODE_TEXT makes has 2, 4 or 10 bytes by the payload's length, and never shrinks as it grows. -/
def Obligations.EncodedHeaderLengthIsMonotone : Prop :=
  (∀ (s t : State) (p : Bytes), s.input = .bytes p → exec .encodeText s = .next t → t.err = 0#4 →
      t.outLen.toNat - p.length = if p.length ≤ 125 then 2 else if p.length ≤ 65535 then 4 else 10)
    ∧ ∀ (s t s' t' : State) (p p' : Bytes), s.input = .bytes p → exec .encodeText s = .next t → t.err = 0#4 →
        s'.input = .bytes p' → exec .encodeText s' = .next t' → t'.err = 0#4 → p.length ≤ p'.length →
        t.outLen.toNat - p.length ≤ t'.outLen.toNat - p'.length

/-- R178, R179, R180: with OUT_CAP at least 2 (R8) the three generators complete from any state, whatever IN and
IN_LEN hold, with their two fixed bytes in OUT and nothing else written. -/
def Obligations.GeneratorsComplete : Prop :=
  ∀ s : State, 2 ≤ s.cfg.outCap.toNat →
    (∃ t, exec .genPing s = .next t ∧ StatusIs s t .success ∧ SameInputs s t ∧ OutputIs s t [0x89#8, 0x00#8]
        ∧ SameFrame s t ∧ t.result = s.result)
      ∧ (∃ t, exec .genPong s = .next t ∧ StatusIs s t .success ∧ SameInputs s t ∧ OutputIs s t [0x8A#8, 0x00#8]
        ∧ SameFrame s t ∧ t.result = s.result)
      ∧ (∃ t, exec .genClose s = .next t ∧ StatusIs s t .success ∧ SameInputs s t ∧ OutputIs s t [0x88#8, 0x00#8]
        ∧ SameFrame s t ∧ t.result = s.result)

/-! ## CLASS -/

/-- R194: CLASS for each of the 16 opcode values; CLASS[31:4] is 0 and at most one bit is 1. -/
def Obligations.ClassFollowsTheOpcodeTable : Prop :=
  ∀ s : State,
    s.reg .classBits = classOf (frCtrlOpcode s.frCtrl)
      ∧ (s.reg .classBits).extractLsb' 4 28 = 0#28
      ∧ ∀ i j, i < j → j < 4 → ¬ ((s.reg .classBits).getLsbD i = true ∧ (s.reg .classBits).getLsbD j = true)

/-! ## The handshake unit -/

/-- R201, R202: HS_DETECT completes on every input; RESULT is 1 iff the input begins with `GET`, else 0; nothing else
is written. -/
def Obligations.DetectCompletes : Prop :=
  ∀ (s : State) (bs : Bytes), s.input = .bytes bs →
    ∃ t, exec .hsDetect s = .next t ∧ StatusIs s t .success ∧ SameInputs s t ∧ SameFrame s t ∧ SameOutput s t
      ∧ (BeginsWithGet s.cfg.getCaseInsensitive bs → t.result = 1#32)
      ∧ (¬ BeginsWithGet s.cfg.getCaseInsensitive bs → t.result = 0#32)

/-- R204, R205: there is no key iff no line start matches; else the key is the rest of the smallest matching line, up to
the next LF or the end of the input, with the whitespace at both ends removed. -/
def Obligations.KeyIsTakenFromTheFirstMatchingLine : Prop :=
  ∀ s : Bytes,
    (handshakeKey s = none ↔ ∀ p, ¬ IsKeyLine s p)
      ∧ ∀ p q, IsKeyLine s p → (∀ p' < p, ¬ IsKeyLine s p') → p + 19 ≤ q → q ≤ s.length →
          (q = s.length ∨ s[q]? = some 0x0A#8) → (∀ j, p + 19 ≤ j → j < q → s[j]? ≠ some 0x0A#8) →
          ∃ key, handshakeKey s = some key ∧ TrimmedOf ((s.drop (p + 19)).take (q - (p + 19))) key

/-- HS_COMPOSE on a request with a key: it completes with the response for the accept value of R211 in OUT, and nothing
else written (R215); where that response is longer than OUT_CAP, with OUT_OVERFLOW (R216). The accept value is that
of the external functions, whose length no rule but P-B64 fixes (log 3). -/
def Obligations.ComposeCompletes : Prop :=
  ∀ (s : State) (bs key : Bytes), s.input = .bytes bs → handshakeKey bs = some key →
    ∃ t, exec .hsCompose s = .next t
      ∧ (101 + (Config.base64 (Config.sha1 (key ++ guid))).length ≤ s.cfg.outCap.toNat →
          StatusIs s t .success ∧ SameInputs s t ∧ SameFrame s t ∧ t.result = s.result
          ∧ OutputIs s t (response (Config.base64 (Config.sha1 (key ++ guid)))))
      ∧ (s.cfg.outCap.toNat < 101 + (Config.base64 (Config.sha1 (key ++ guid))).length →
          FailsWith s t .outOverflow)

/-- R207: with no matching line HS_COMPOSE fails with HS_NO_KEY and nothing but STATUS changes. -/
def Obligations.ComposeWithoutAKeyLineFails : Prop :=
  ∀ (s : State) (bs : Bytes), s.input = .bytes bs → (∀ p, ¬ IsKeyLine bs p) →
    ∃ t, exec .hsCompose s = .next t ∧ FailsWith s t .hsNoKey

/-- R213: the response is 101 bytes and the accept value; under P-B64, whose Base64 is PRESUMED (log 3), it is 129
bytes. -/
def Obligations.ResponseLength : Prop :=
  (∀ a : Bytes, (response a).length = 101 + a.length)
    ∧ ∀ (sha1 : Bytes → Vector Byte 20) (base64 : Vector Byte 20 → Bytes), PB64 base64 →
        ∀ key, (response (acceptValue sha1 base64 key)).length = 129

/-- The source's handshake vector (R218, 95_test_vectors.md S-2 and HS-1): under P-VEC, a request whose key is the
vector's composes the 129 bytes S-2 lists. -/
def Obligations.SourceVectorComposes : Prop :=
  ∀ (sha1 : Bytes → Vector Byte 20) (base64 : Vector Byte 20 → Bytes), PVec sha1 base64 →
    ∀ bs, handshakeKey bs = some vectorKey →
      performCompose sha1 base64 bs = .ok ⟨some sourceResponse, none, none⟩

/-! ## The host's accesses -/

/-- R64: which host accesses are faults of the access itself, whatever the state: an offset outside the map or a width
other than 32 bits, a write to an RO or C register, an index at or above the capacity. Where several rules forbid an
access, which fault is named is the model's choice (log 8): each clause here comes before BUSY and before the unwritten
byte, and the offset and the width before the access class. -/
def Obligations.ForbiddenAccessesFault : Prop :=
  ∀ s : State,
    (∀ w off v, (w ≠ 4 ∨ off % 4 ≠ 0 ∨ 0x30 < off) →
        s.regRead w off = .error .badRegAccess ∧ s.regWrite w off v = .error .badRegAccess)
      ∧ (∀ off v, off % 4 = 0 → off ≤ 0x30 → off ≠ 0x00 → off ≠ 0x08 →
        s.regWrite 4 off v = .error .writeReadOnly)
      ∧ (∀ i b, s.cfg.inCap.toNat ≤ i → s.inWrite i b = .error .badBufferIndex ∧ s.inRead i = .error .badBufferIndex)
      ∧ ∀ i, s.cfg.outCap.toNat ≤ i → s.outRead i = .error .badBufferIndex

/-- The register map (R22): what a 32-bit read of each offset returns while no command is pending. -/
def Obligations.RegisterMapReads : Prop :=
  ∀ s : State, s.busy = false →
    s.regRead 4 0x00 = .ok s.cmd ∧ s.regRead 4 0x04 = .ok s.status ∧ s.regRead 4 0x08 = .ok s.inLen
      ∧ s.regRead 4 0x0C = .ok s.outLen ∧ s.regRead 4 0x10 = .ok s.frCtrl ∧ s.regRead 4 0x14 = .ok s.frPlenLo
      ∧ s.regRead 4 0x18 = .ok s.frPlenHi ∧ s.regRead 4 0x1C = .ok s.frMaskKey
      ∧ s.regRead 4 0x20 = .ok s.frFrameLen ∧ s.regRead 4 0x24 = .ok (classOf (frCtrlOpcode s.frCtrl))
      ∧ s.regRead 4 0x28 = .ok s.result ∧ s.regRead 4 0x2C = .ok s.cfg.inCap ∧ s.regRead 4 0x30 = .ok s.cfg.outCap

/-- R110: a write to CMD while BUSY = 0 stores the word and sets BUSY, ERR keeps the previous outcome and nothing else
changes; while BUSY = 1 it is a fault. -/
def Obligations.IssueSetsCmdAndBusy : Prop :=
  ∀ (s : State) (v : Word),
    (s.busy = false → ∃ t, s.regWrite 4 0x00 v = .ok t ∧ t.cmd = v ∧ t.busy = true ∧ t.err = s.err
        ∧ t.status &&& 0xFFFFFF0E#32 = s.status &&& 0xFFFFFF0E#32
        ∧ t = { s with cmd := t.cmd, status := t.status })
      ∧ (s.busy = true → s.regWrite 4 0x00 v = .error .writeWhileBusy)

/-- R297: while BUSY = 1, a read of a result register, of IN_LEN, or of a byte of IN or OUT is a fault; STATUS, CMD,
CAP_IN and CAP_OUT may be read. That an unwritten byte read then is READ_WHILE_BUSY too is the model's choice of the
fault's name (log 8). -/
def Obligations.ReadsWhileBusy : Prop :=
  ∀ s : State, s.busy = true →
    (∀ off ∈ [0x08, 0x0C, 0x10, 0x14, 0x18, 0x1C, 0x20, 0x24, 0x28], s.regRead 4 off = .error .readWhileBusy)
      ∧ (∀ i < s.cfg.inCap.toNat, s.inRead i = .error .readWhileBusy)
      ∧ (∀ i < s.cfg.outCap.toNat, s.outRead i = .error .readWhileBusy)
      ∧ s.regRead 4 0x04 = .ok s.status ∧ s.regRead 4 0x00 = .ok s.cmd
      ∧ s.regRead 4 0x2C = .ok s.cfg.inCap ∧ s.regRead 4 0x30 = .ok s.cfg.outCap

/-- R296: while BUSY = 1, a write to CMD, to IN_LEN or to a byte of IN is a fault; so no step of the host changes the
pending command or its input. -/
def Obligations.InputIsFixedWhileBusy : Prop :=
  ∀ s : State, s.busy = true →
    (∀ v, s.regWrite 4 0x00 v = .error .writeWhileBusy ∧ s.regWrite 4 0x08 v = .error .writeWhileBusy)
      ∧ (∀ i b, i < s.cfg.inCap.toNat → s.inWrite i b = .error .writeWhileBusy)
      ∧ ∀ t, s.hostStep = .next t → t.cmd = s.cmd ∧ t.inLen = s.inLen ∧ t.inBuf = s.inBuf ∧ t.status = s.status

/-- A host read has no side effect on the block (R65): it returns what RegRead, InRead or OutRead gives, and only the
host's own record of what it read grows, by that value. The record is the model's (log 12). -/
def Obligations.HostReadsHaveNoSideEffect : Prop :=
  ∀ s t : State,
    (∀ w off, s.access (.regRead w off) = .ok t →
        ∃ v, s.regRead w off = .ok v ∧ t = s.withHost { s.host with seen := s.host.seen ++ [.word v] })
      ∧ (∀ i, s.access (.inRead i) = .ok t →
        ∃ b, s.inRead i = .ok b ∧ t = s.withHost { s.host with seen := s.host.seen ++ [.byte b] })
      ∧ ∀ i, s.access (.outRead i) = .ok t →
        ∃ b, s.outRead i = .ok b ∧ t = s.withHost { s.host with seen := s.host.seen ++ [.byte b] }

/-- The host's writes and byte reads while BUSY = 0: IN_LEN takes any 32-bit value, which reads back, and nothing else
changes (R23, R28); a byte of IN below IN_CAP is written and reads back, with every other byte of IN and all else as it
was (R39); a read of OUT below OUT_CAP returns the byte there, stale or not, and faults on one that nothing has written
(R40, R298). -/
def Obligations.BufferBytesReadBack : Prop :=
  ∀ (s : State) (i : Nat), s.busy = false →
    (∀ v, s.regWrite 4 0x08 v = .ok { s with inLen := v } ∧ State.regRead { s with inLen := v } 4 0x08 = .ok v)
      ∧ (∀ b, i < s.cfg.inCap.toNat → ∃ t, s.inWrite i b = .ok t ∧ t.inRead i = .ok b
        ∧ (∀ j, j ≠ i → Memory.read t.inBuf j = Memory.read s.inBuf j) ∧ t = { s with inBuf := t.inBuf })
      ∧ (i < s.cfg.outCap.toNat →
          (∀ b, Memory.read s.outBuf i = some b → s.outRead i = .ok b)
          ∧ (Memory.read s.outBuf i = none → s.outRead i = .error .unwrittenOutput))

/-! ## Reset -/

/-- R290, R291: reset, at any time, sets every register of the map but the two constants to 0, CLASS reading 0 with
them, leaves every byte of IN and OUT unwritten and no command pending. That the host's side stays is DEDUCED (log 13),
and the schedule is the model's own (log 5). -/
def Obligations.ResetStepClearsTheBlock : Prop :=
  ∀ (s : State) (rest : List Agent), s.schedule = .resetInput :: rest →
    ∃ t, step s = .next t ∧ t.busy = false ∧ t.err = 0#4
      ∧ (∀ r, r ≠ .capIn → r ≠ .capOut → t.reg r = 0#32)
      ∧ t.reg .capIn = s.reg .capIn ∧ t.reg .capOut = s.reg .capOut
      ∧ (∀ i, Memory.read t.inBuf i = none ∧ Memory.read t.outBuf i = none)
      ∧ t.cfg = s.cfg ∧ t.schedule = rest ∧ t.host = s.host

/-- The values after reset (R42), in every configuration: State.reset is the one of log 2. -/
def Obligations.ResetStateHasTheResetValues : Prop :=
  (∀ c : Config, (∀ r, r ≠ .capIn → r ≠ .capOut → (State.resetWith c).reg r = 0#32)
      ∧ (State.resetWith c).reg .capIn = c.inCap ∧ (State.resetWith c).reg .capOut = c.outCap
      ∧ (State.resetWith c).busy = false
      ∧ ∀ i, Memory.read (State.resetWith c).inBuf i = none ∧ Memory.read (State.resetWith c).outBuf i = none)
    ∧ ∃ c : Config, State.reset = State.resetWith c

/-! ## The whole machine -/

/-- The block's invariant holds at reset in every configuration the spec allows, and the reference host's two in every
configuration. -/
def Obligations.ResetMeetsTheInvariants : Prop :=
  (∀ c : Config, c.wf = true → (State.resetWith c).Inv) ∧ State.reset.Inv
    ∧ ∀ c : Config, (State.resetWith c).HostInv ∧ (State.resetWith c).OnlyValidStored

/-- Every step keeps the block's invariant: STATUS stays legal (R25, R27), the buffers keep their canonical form within
their capacities (R39, R40), OUT_LEN counts written bytes (R29), RESULT and the frame-field registers stay as the
rules make them (R30 to R36). -/
def Obligations.StepKeepsTheInvariant : Prop :=
  ∀ s t : State, s.Inv → step s = .next t → t.Inv

/-- Only a successful DECODE, or reset, changes a frame-field register (R30, R33, R43). -/
def Obligations.FrameRegistersChangeOnlyByDecode : Prop :=
  ∀ s t : State, step s = .next t → ¬ SameFrame s t →
    (∃ rest, s.schedule = .resetInput :: rest)
      ∨ (s.busy = true ∧ s.cmd = 0x00000001#32 ∧ t.busy = false ∧ t.err = 0#4)

/-- R26: only an issue sets STATUS.BUSY; only a completion or reset clears it; ERR changes only at a completion or at
reset. -/
def Obligations.BusyAndErrChangeOnlyAsStated : Prop :=
  ∀ s t : State, step s = .next t →
    (s.busy = false → t.busy = true →
        ∃ v rest, s.host.script = .access (.regWrite 4 0x00 v) :: rest ∧ t.cmd = v ∧ t.err = s.err)
      ∧ (s.busy = true → t.busy = false →
        (∃ rest, s.schedule = .resetInput :: rest)
          ∨ State.complete { s with schedule := s.schedule.tail } = .next t)
      ∧ (t.err ≠ s.err → (∃ rest, s.schedule = .resetInput :: rest)
          ∨ (s.busy = true ∧ t.busy = false ∧ State.complete { s with schedule := s.schedule.tail } = .next t))

/-- A pending command is completed after finitely many steps of a polling host (R112): the schedule puts the codec off
for `n` steps, the host polls STATUS, and the next step is the completion of the command as it was issued. -/
def Obligations.PollingHostReachesTheCompletion : Prop :=
  ∀ (n : Nat) (s : State), s.busy = true → s.schedule = List.replicate n .host → (∃ rest, s.host.script = .wait :: rest) →
    Sys2Proof.core.run (n + 1) s = State.complete { s with schedule := [] }

/-! ## The reference host -/

/-- A successful DECODE is dispatched (R234), under ACCUMULATE once its FR_FRAMELEN bytes have left Q (R236; before the
dispatch: log 10). The host branches on CLASS alone (R237): text is read out (R238), a ping is answered with GEN_PONG
(R239), a pong changes nothing (R240), a close closes (R241), an opcode with no predicate is ignored or closes (R243).
A text that was read out closes the connection if ValidateText rejects it; else it is handed to StoreRecord, and a
failed store closes while a successful one loads `OK` and runs ENCODE_TEXT (R238). Nothing is written to the transport
in these steps. The answers are the oracles', and `draws` is the model's own (log 4). -/
def Obligations.DispatchFollowsTheClass : Prop :=
  ∀ s : State, s.host.script = [] → s.busy = false →
    (s.host.phase = .decoded → s.err = 0#4 → s.hostStep = .next (s.withHost
        { s.host with phase := if s.cfg.reassembly = .accumulate then .frameLen else .classify }))
      ∧ (s.host.phase = .frameLen → s.hostStep = .next (s.withHost
        { s.host with phase := .classify, queue := s.host.queue.drop s.frFrameLen.toNat }))
      ∧ (s.host.phase = .classify →
        (frCtrlOpcode s.frCtrl = 0x1#4 → s.hostStep = .next (s.withHost { s.host with phase := .outLength .text }))
        ∧ (frCtrlOpcode s.frCtrl = 0x9#4 → s.hostStep = .next (s.withHost
            { s.host with script := [.access (.regWrite 4 0x00 0x00000004#32), .wait], phase := .ran .reply }))
        ∧ (frCtrlOpcode s.frCtrl = 0xA#4 → s.hostStep = .next (s.withHost (s.host.atNextMessage s.cfg)))
        ∧ (frCtrlOpcode s.frCtrl = 0x8#4 →
            s.hostStep = .next (s.withHost { s.host with conn := .closed, phase := .closed }))
        ∧ (frCtrlOpcode s.frCtrl ∉ [0x1#4, 0x8#4, 0x9#4, 0xA#4] →
            (s.cfg.unhandledOpcode = .ignore → s.hostStep = .next (s.withHost (s.host.atNextMessage s.cfg)))
            ∧ (s.cfg.unhandledOpcode = .close →
              s.hostStep = .next (s.withHost { s.host with conn := .closed, phase := .closed }))))
      ∧ (∀ x, s.host.phase = .validate x → s.hostStep = .next (s.withHost
          (if Config.validateText x then { s.host with phase := .store x }
          else { s.host with conn := .closed, phase := .closed })))
      ∧ ∀ x, s.host.phase = .store x → s.hostStep = .next (s.withHost
          (if Config.storeRecord s.host.draws x then
            { s.host with stored := s.host.stored ++ [x], draws := s.host.draws + 1
                          script := loadAndRun 0x00000002#32 [0x4F#8, 0x4B#8], phase := .ran .reply }
          else { s.host with stored := s.host.stored ++ [x], draws := s.host.draws + 1
                             conn := .closed, phase := .closed }))

/-- A frame that fails to decode is no message (R235): nothing is written, CONN stays, and the host goes on to the next
Read. Under ACCUMULATE, Q is discarded on LEN_RANGE or when it is longer than IN_CAP, and waits for the next read on
TRUNC_HEADER and TRUNC_PAYLOAD (R236); that it waits on any other ERR is the model's reading (log 10). -/
def Obligations.DecodeFailureIsNoMessage : Prop :=
  ∀ s : State, s.host.script = [] → s.host.phase = .decoded → s.busy = false → s.err ≠ 0#4 →
    (s.cfg.reassembly = .drop → s.hostStep = .next (s.withHost { s.host with phase := .read }))
      ∧ (s.cfg.reassembly = .accumulate →
        (s.err = 3#4 ∨ s.cfg.inCap.toNat < s.host.queue.length →
            s.hostStep = .next (s.withHost { s.host with phase := .read, queue := [] }))
        ∧ (s.err ≠ 3#4 → s.host.queue.length ≤ s.cfg.inCap.toNat →
            s.hostStep = .next (s.withHost { s.host with phase := .read })))

/-- After HS_DETECT of a read in AWAIT_HS (R233, C1), whose ERR is checked first (R248): with DETECT = 1 the host runs
HS_COMPOSE; else it runs DECODE, on the read that stands in IN, or under ACCUMULATE on Q with the read appended (R236),
and under FIRST_READ_ONLY the connection is OPEN from then on. After the command whose output is wanted (HS_COMPOSE,
GEN_PONG, ENCODE_TEXT) the output is used only with ERR = 0 (R248), and HS_NO_KEY closes with nothing written (R233).
That every other nonzero ERR closes too is the model's choice (log 11): R245 derives that none comes. -/
def Obligations.HandshakeCheckTransitions : Prop :=
  ∀ s : State, s.host.script = [] → s.busy = false →
    (∀ r, s.host.phase = .detected r →
        (s.err = 0#4 → s.hostStep = .next (s.withHost { s.host with phase := .detectResult r }))
        ∧ (s.err ≠ 0#4 → s.hostStep = .next (s.withHost { s.host with conn := .closed, phase := .closed })))
      ∧ (∀ r conn, s.host.phase = .detectResult r →
        conn = (if s.cfg.handshakeCheck = .firstReadOnly then .opened else s.host.conn) →
        (s.result.getLsbD 0 = true → s.hostStep = .next (s.withHost { s.host with
            script := [.access (.regWrite 4 0x00 0x00000007#32), .wait], phase := .ran .response }))
        ∧ (s.result.getLsbD 0 = false → s.cfg.reassembly = .drop → s.hostStep = .next (s.withHost { s.host with
            script := [.access (.regWrite 4 0x00 0x00000001#32), .wait], phase := .decoded, conn := conn }))
        ∧ (s.result.getLsbD 0 = false → s.cfg.reassembly = .accumulate → s.hostStep = .next (s.withHost { s.host with
            script := loadAndRun 0x00000001#32 ((s.host.queue ++ r).take s.cfg.inCap.toNat)
            phase := .decoded, conn := conn, queue := s.host.queue ++ r })))
      ∧ ∀ p, s.host.phase = .ran p →
        (s.err = 0#4 → s.hostStep = .next (s.withHost { s.host with phase := .outLength p }))
        ∧ (s.err ≠ 0#4 → s.hostStep = .next (s.withHost { s.host with conn := .closed, phase := .closed }))

/-- R242: CLOSED is terminal: the socket is released (the host's phase is closed), and no step of a closed connection
makes a further Read or Write, issues a command, or changes the host's side at all. Only the reset input writes CMD then.
-/
def Obligations.ClosedConnectionIsTerminal : Prop :=
  ∀ s t : State, s.HostInv → s.host.conn = .closed → step s = .next t →
    t.host = s.host ∧ t.host.phase = .closed ∧ t.busy = false ∧ (t.cmd = s.cmd ∨ (t.cmd = 0#32 ∧ ∃ rest, s.schedule = .resetInput :: rest))

/-- The transport (R232, R244, R247). Read: with no result to come it blocks, which the model writes as an empty inbox
(log 7); TransportError and a Read of no bytes close the connection; otherwise at most READ_MAX bytes are taken, the
rest staying for the next Read (log 7), and are loaded for HS_DETECT in AWAIT_HS (R233) or for DECODE in OPEN (R234),
under ACCUMULATE behind what Q holds, at most IN_CAP bytes of it (R236). What is written or validated is
`OUT[0 .. OUT_LEN-1]`, read byte by byte while no command is pending (R232, R238). Write: the bytes are recorded and the
host goes on, the response opening the connection; a Write that fails closes it with nothing recorded. The answer of
Write is the oracle's (log 4). -/
def Obligations.TransportOutcomes : Prop :=
  ∀ s : State, s.host.script = [] →
    (s.host.phase = .read →
        (s.host.inbox = [] → s.hostStep = .next s)
        ∧ (∀ rest, s.host.inbox = .transportError :: rest ∨ s.host.inbox = .bytes [] :: rest →
          s.hostStep = .next (s.withHost { s.host with inbox := rest, conn := .closed, phase := .closed }))
        ∧ ∀ r rest got left, s.host.inbox = .bytes r :: rest → r ≠ [] → 1 ≤ s.cfg.readMax →
          got = r.take s.cfg.readMax →
          left = (if r.length ≤ s.cfg.readMax then rest else .bytes (r.drop s.cfg.readMax) :: rest) →
          (s.host.conn = .awaitHs → s.hostStep = .next (s.withHost { s.host with
              script := loadAndRun 0x00000006#32 got, phase := .detected got, inbox := left }))
          ∧ (s.host.conn = .opened → s.cfg.reassembly = .drop → s.hostStep = .next (s.withHost { s.host with
              script := loadAndRun 0x00000001#32 got, phase := .decoded, inbox := left }))
          ∧ (s.host.conn = .opened → s.cfg.reassembly = .accumulate → s.hostStep = .next (s.withHost { s.host with
              script := loadAndRun 0x00000001#32 ((s.host.queue ++ got).take s.cfg.inCap.toNat)
              phase := .decoded, inbox := left, queue := s.host.queue ++ got })))
      ∧ (∀ p o, s.host.phase = .outLength p → s.busy = false → s.schedule = [] →
        Memory.wf s.outBuf = true → s.outLen.toNat ≤ s.cfg.outCap.toNat →
        Memory.readBytes s.outBuf 0 s.outLen.toNat = some o →
        Sys2Proof.core.run (s.outLen.toNat + 2) s = .next (s.withHost
          { s.host with phase := if p = .text then .validate o else .write p o }))
      ∧ ∀ p out, s.host.phase = .write p out → s.hostStep = .next (s.withHost
          (if Config.writeOk s.host.draws out then
            if p = .response then { s.host with
              draws := s.host.draws + 1, sent := s.host.sent ++ [out], phase := .read, conn := .opened }
            else HostSide.atNextMessage s.cfg { s.host with draws := s.host.draws + 1, sent := s.host.sent ++ [out] }
          else { s.host with draws := s.host.draws + 1, conn := .closed, phase := .closed }))

/-- Every step keeps it that no text the validation oracle rejects reaches StoreRecord (R251). -/
def Obligations.RejectedTextIsNeverStored : Prop :=
  ∀ s t : State, s.OnlyValidStored → step s = .next t → t.OnlyValidStored

/-- The reference host, under any configuration the spec allows, any reads of the transport and any interleaving with
the codec, takes no action the interface forbids, keeps the order of `load; run; read results`, and reads results only
after ERR = 0 (R248, R296 to R298; what it does on an ERR the rules give no reaction to: log 11). The reset input stays
off: a reset under a load would leave its bytes unwritten. -/
def Obligations.ReferenceHostNeverFaults : Prop :=
  ∀ s : State, s.Inv → s.HostInv → .resetInput ∉ s.schedule → ∃ t, step s = .next t ∧ t.HostInv

/-- Under the conditions of R245 no command of the reference host completes with SIZE_LIMIT, ILLEGAL_CMD or IN_LEN_RANGE,
and none with OUT_OVERFLOW unless it is HS_COMPOSE with an accept value longer than the 28 bytes P-B64 makes it (log 3). -/
def Obligations.ReferenceHostMeetsNoInterfaceError : Prop :=
  ∀ s t : State, s.Inv → s.HostInv → s.cfg.roomy = true → .resetInput ∉ s.schedule → s.busy = true →
    step s = .next t → t.busy = false →
    t.err ∉ [4#4, 6#4, 7#4]
      ∧ (t.err = 8#4 → s.cmd = 0x00000007#32 ∧ ∃ bs key, s.input = .bytes bs ∧ handshakeKey bs = some key
          ∧ 28 < (Config.base64 (Config.sha1 (key ++ guid))).length)
end

