-- ==== Sys2Proof/Laws/Flags.lean ====
section
/-! SUPPORT. The laws of STATUS, CLASS and the fields of FR_CTRL: each field is read back as it was written, and no
write of a field touches another bit. -/

namespace Sys2Proof.Machine

/-! ## STATUS -/

@[simp] theorem statusBusy_withBusy (st : Word) (b : Bool) : statusBusy (statusWithBusy st b) = b := by
  cases b <;> simp [statusBusy, statusWithBusy]

@[simp] theorem statusBusy_withErr (st : Word) (e : BitVec 4) : statusBusy (statusWithErr st e) = statusBusy st := by
  simp [statusBusy, statusWithErr]

@[simp] theorem statusErr_withBusy (st : Word) (b : Bool) : statusErr (statusWithBusy st b) = statusErr st := by
  apply BitVec.eq_of_getLsbD_eq
  intro i hi
  interval_cases i <;> cases b <;> simp [statusErr, statusWithBusy]

@[simp] theorem statusErr_withErr (st : Word) (e : BitVec 4) : statusErr (statusWithErr st e) = e := by
  apply BitVec.eq_of_getLsbD_eq
  intro i hi
  interval_cases i <;> simp [statusErr, statusWithErr]

/-- The bits of STATUS other than BUSY and ERR. -/
theorem statusWithBusy_others (st : Word) (b : Bool) :
    statusWithBusy st b &&& 0xFFFFFF0E#32 = st &&& 0xFFFFFF0E#32 := by
  apply BitVec.eq_of_getLsbD_eq
  intro i hi
  interval_cases i <;> cases b <;> simp [statusWithBusy]

theorem statusWithErr_others (st : Word) (e : BitVec 4) :
    statusWithErr st e &&& 0xFFFFFF0E#32 = st &&& 0xFFFFFF0E#32 := by
  apply BitVec.eq_of_getLsbD_eq
  intro i hi
  interval_cases i <;> simp [statusWithErr]

@[simp] theorem statusCompleted_busy (st : Word) (c : ErrCode) : statusBusy (statusCompleted st c) = false := by
  simp [statusCompleted]

@[simp] theorem statusCompleted_err (st : Word) (c : ErrCode) : statusErr (statusCompleted st c) = c.code := by
  simp [statusCompleted]

theorem statusCompleted_others (st : Word) (c : ErrCode) :
    statusCompleted st c &&& 0xFFFFFF0E#32 = st &&& 0xFFFFFF0E#32 := by
  rw [statusCompleted, statusWithBusy_others, statusWithErr_others]

theorem ErrCode.code_le (c : ErrCode) : c.code.toNat ≤ 8 := by cases c <;> decide

/-- Distinct outcomes have distinct codes (R260). -/
theorem ErrCode.code_injective {c d : ErrCode} (h : c.code = d.code) : c = d := by
  revert h
  cases c <;> cases d <;> decide

/-- A completion leaves a legal STATUS legal. -/
theorem statusLegal_completed {st : Word} (h : statusLegal st = true) (c : ErrCode) :
    statusLegal (statusCompleted st c) = true := by
  simp only [statusLegal, Bool.and_eq_true, beq_iff_eq, decide_eq_true_eq] at h ⊢
  exact ⟨by rw [statusCompleted_others]; exact h.1, by simpa using c.code_le⟩

/-- An issue leaves a legal STATUS legal. -/
theorem statusLegal_withBusy {st : Word} (h : statusLegal st = true) (b : Bool) :
    statusLegal (statusWithBusy st b) = true := by
  simp only [statusLegal, Bool.and_eq_true, beq_iff_eq, decide_eq_true_eq] at h ⊢
  exact ⟨by rw [statusWithBusy_others]; exact h.1, by simpa using h.2⟩

/-- A STATUS is told by its three parts: BUSY, ERR, the rest. -/
theorem status_ext {st st' : Word} (hb : statusBusy st = statusBusy st') (he : statusErr st = statusErr st')
    (ho : st &&& 0xFFFFFF0E#32 = st' &&& 0xFFFFFF0E#32) : st = st' := by
  apply BitVec.eq_of_getLsbD_eq
  intro i hi
  have ho' := congrArg (fun w : Word => w.getLsbD i) ho
  have he' := congrArg (fun w : BitVec 4 => w.getLsbD (i - 4)) he
  clear ho he
  interval_cases i <;> simp_all [statusBusy, statusErr]

/-! ## CLASS -/

theorem classWord_eq (w : Word) : classWord w = classWord ((frCtrlOpcode w).setWidth 32) := by
  have : frCtrlOpcode ((frCtrlOpcode w).setWidth 32) = frCtrlOpcode w := by
    apply BitVec.eq_of_getLsbD_eq
    intro i hi
    interval_cases i <;> simp [frCtrlOpcode]
  simp [classWord, this]

/-! ## FR_CTRL -/

section
variable (b0 b1 : Byte) (hdr : Nat)

@[simp] theorem frCtrlWord_byte0 : (frCtrlWord b0 b1 hdr).extractLsb' 0 8 = b0 := by
  apply BitVec.eq_of_getLsbD_eq
  intro i hi
  interval_cases i <;> simp [frCtrlWord]

@[simp] theorem frCtrlWord_byte1 : (frCtrlWord b0 b1 hdr).extractLsb' 8 8 = b1 := by
  apply BitVec.eq_of_getLsbD_eq
  intro i hi
  interval_cases i <;> simp [frCtrlWord]

@[simp] theorem frCtrlWord_hdrLen : frCtrlHdrLen (frCtrlWord b0 b1 hdr) = BitVec.ofNat 4 hdr := by
  have hx : BitVec.ofNat 4 hdr = (BitVec.ofNat 32 hdr).setWidth 4 := by
    apply BitVec.eq_of_toNat_eq
    simp
  rw [hx, frCtrlWord]
  generalize BitVec.ofNat 32 hdr = x
  apply BitVec.eq_of_getLsbD_eq
  intro i hi
  interval_cases i <;> simp [frCtrlHdrLen]

@[simp] theorem frCtrlWord_opcode : frCtrlOpcode (frCtrlWord b0 b1 hdr) = b0.extractLsb' 0 4 := by
  apply BitVec.eq_of_getLsbD_eq
  intro i hi
  interval_cases i <;> simp [frCtrlOpcode, frCtrlWord]

@[simp] theorem frCtrlWord_len7 : frCtrlLen7 (frCtrlWord b0 b1 hdr) = b1.extractLsb' 0 7 := by
  apply BitVec.eq_of_getLsbD_eq
  intro i hi
  interval_cases i <;> simp [frCtrlLen7, frCtrlWord]

@[simp] theorem frCtrlWord_masked : frCtrlMasked (frCtrlWord b0 b1 hdr) = b1.getLsbD 7 := by
  simp [frCtrlMasked, frCtrlWord]

theorem frCtrlWord_reserved (h : hdr < 16) : frCtrlReserved (frCtrlWord b0 b1 hdr) = 0#12 := by
  have hx : BitVec.ofNat 32 hdr = (BitVec.ofNat 4 hdr).setWidth 32 := by
    apply BitVec.eq_of_toNat_eq
    simp
    omega
  rw [frCtrlWord, hx]
  apply BitVec.eq_of_getLsbD_eq
  intro i hi
  interval_cases i <;> simp [frCtrlReserved]

end

/-! ## FR_MASKKEY -/

section
variable (k : MaskKey)

@[simp] theorem maskKeyWord_k0 : (maskKeyWord k).extractLsb' 24 8 = k.k0 := by
  apply BitVec.eq_of_getLsbD_eq
  intro i hi
  interval_cases i <;> simp [maskKeyWord]

@[simp] theorem maskKeyWord_k1 : (maskKeyWord k).extractLsb' 16 8 = k.k1 := by
  apply BitVec.eq_of_getLsbD_eq
  intro i hi
  interval_cases i <;> simp [maskKeyWord]

@[simp] theorem maskKeyWord_k2 : (maskKeyWord k).extractLsb' 8 8 = k.k2 := by
  apply BitVec.eq_of_getLsbD_eq
  intro i hi
  interval_cases i <;> simp [maskKeyWord]

@[simp] theorem maskKeyWord_k3 : (maskKeyWord k).extractLsb' 0 8 = k.k3 := by
  apply BitVec.eq_of_getLsbD_eq
  intro i hi
  interval_cases i <;> simp [maskKeyWord]

end

end Sys2Proof.Machine
end

