-- ==== Sys2Proof/Laws/Memory.lean ====
section
/-! SUPPORT. The laws of the buffers: read after write, and that every operation keeps the canonical form and the
capacity. -/

namespace Sys2Proof.Machine

/-! ## Read after write -/

@[simp] theorem Memory.read_nil (a : Nat) : Memory.read [] a = none := rfl

theorem Memory.read_cons (k : Nat) (v : Byte) (m : Memory) (a : Nat) :
    Memory.read ((k, v) :: m) a = if a = k then some v else Memory.read m a := rfl

/-- Read after a write of one byte: the byte at its index, every other index as before. -/
theorem Memory.read_write (m : Memory) (a : Nat) (b : Byte) (x : Nat) :
    Memory.read (Memory.write m a b) x = if x = a then some b else Memory.read m x := by
  induction m with
  | nil => simp [Memory.write, Memory.read, Memory.unlisted]
  | cons c m ih =>
    obtain ⟨k, v⟩ := c
    unfold Memory.write
    split
    · simp [Memory.read_cons]
    · split
      · subst_vars
        simp only [Memory.read_cons]
        split <;> rfl
      · simp only [Memory.read_cons, ih]
        split
        · split
          · omega
          · rfl
        · rfl

theorem Memory.read_append (m m' : Memory) (a : Nat) :
    Memory.read (m ++ m') a = (Memory.read m a).or (Memory.read m' a) := by
  induction m with
  | nil => simp
  | cons c m ih =>
    obtain ⟨k, v⟩ := c
    simp only [List.cons_append, Memory.read_cons, ih]
    split <;> simp

theorem Memory.read_filter (p : Nat → Bool) (m : Memory) (a : Nat) :
    Memory.read (m.filter fun c => p c.1) a = if p a then Memory.read m a else none := by
  induction m with
  | nil => simp
  | cons c m ih =>
    obtain ⟨k, v⟩ := c
    simp only [List.filter_cons, Memory.read_cons]
    by_cases hak : a = k
    · subst hak
      by_cases hp : p a <;> simp [hp, Memory.read_cons, ih]
    · by_cases hp : p k <;> simp [hp, hak, Memory.read_cons, ih]

theorem Memory.read_place (a : Nat) (bs : Bytes) (x : Nat) :
    Memory.read (Memory.place a bs) x = if a ≤ x then bs[x - a]? else none := by
  induction bs generalizing a with
  | nil => simp [Memory.place]
  | cons b bs ih =>
    simp only [Memory.place, Memory.read_cons, ih]
    by_cases hx : x = a
    · subst hx; simp
    · by_cases hax : a ≤ x
      · have h1 : x - a = (x - (a + 1)) + 1 := by omega
        simp [hx, hax, show a + 1 ≤ x by omega, h1]
      · simp [hx, hax, show ¬ a + 1 ≤ x by omega]

/-- Read after a write of a sequence: its bytes where they were written, every other index as before. -/
theorem Memory.read_writeBytes (m : Memory) (a : Nat) (bs : Bytes) (x : Nat) :
    Memory.read (Memory.writeBytes m a bs) x
      = if a ≤ x ∧ x < a + bs.length then bs[x - a]? else Memory.read m x := by
  have h1 := Memory.read_filter (fun k => decide (k < a)) m x
  have h2 := Memory.read_filter (fun k => decide (a + bs.length ≤ k)) m x
  simp only [Memory.writeBytes, Memory.read_append, Memory.read_place, h1, h2]
  by_cases hlt : x < a
  · have : ¬ a ≤ x := by omega
    have : ¬ a + bs.length ≤ x := by omega
    simp [*]
  · have hax : a ≤ x := by omega
    by_cases hin : x < a + bs.length
    · have : ¬ a + bs.length ≤ x := by omega
      simp [*]
    · have hge : a + bs.length ≤ x := by omega
      have hlen : bs.length ≤ x - a := by omega
      simp [hlt, hax, hin, hge, hlen]

/-! ## The canonical form -/

theorem Memory.risingFrom_mono {a a' : Nat} {m : Memory} (h : Memory.risingFrom a m = true) (ha : a' ≤ a) :
    Memory.risingFrom a' m = true := by
  cases m with
  | nil => rfl
  | cons c m =>
    obtain ⟨k, v⟩ := c
    simp only [Memory.risingFrom, Bool.and_eq_true, decide_eq_true_eq] at h ⊢
    exact ⟨by omega, h.2⟩

theorem Memory.risingFrom_write {lo : Nat} {m : Memory} (h : Memory.risingFrom lo m = true) {a : Nat} (b : Byte)
    (ha : lo ≤ a) : Memory.risingFrom lo (Memory.write m a b) = true := by
  induction m generalizing lo with
  | nil => simp [Memory.write, Memory.risingFrom, ha]
  | cons c m ih =>
    obtain ⟨k, v⟩ := c
    simp only [Memory.risingFrom, Bool.and_eq_true, decide_eq_true_eq] at h
    unfold Memory.write
    split
    · simp only [Memory.risingFrom, Bool.and_eq_true, decide_eq_true_eq]
      exact ⟨ha, by omega, h.2⟩
    · split
      · subst_vars
        simp only [Memory.risingFrom, Bool.and_eq_true, decide_eq_true_eq]
        exact ⟨ha, h.2⟩
      · simp only [Memory.risingFrom, Bool.and_eq_true, decide_eq_true_eq]
        exact ⟨h.1, ih h.2 (by omega)⟩

/-- A write of one byte keeps the canonical form. -/
theorem Memory.wf_write {m : Memory} (h : Memory.wf m = true) (a : Nat) (b : Byte) :
    Memory.wf (Memory.write m a b) = true :=
  Memory.risingFrom_write h b (Nat.zero_le a)

theorem Memory.risingFrom_filter {lo : Nat} {m : Memory} (h : Memory.risingFrom lo m = true) (p : Host.Cell → Bool) :
    Memory.risingFrom lo (m.filter p) = true := by
  induction m generalizing lo with
  | nil => rfl
  | cons c m ih =>
    obtain ⟨k, v⟩ := c
    simp only [Memory.risingFrom, Bool.and_eq_true, decide_eq_true_eq] at h
    rw [List.filter_cons]
    split
    · simp only [Memory.risingFrom, Bool.and_eq_true, decide_eq_true_eq]
      exact ⟨h.1, ih h.2⟩
    · exact ih (Memory.risingFrom_mono h.2 (by omega))

theorem Memory.risingFrom_place (a : Nat) (bs : Bytes) : Memory.risingFrom a (Memory.place a bs) = true := by
  induction bs generalizing a with
  | nil => rfl
  | cons b bs ih => simp [Memory.place, Memory.risingFrom, ih]

/-- Two rising buffers in a row rise, if a bound `mid` lies between them. -/
theorem Memory.risingFrom_append {lo mid : Nat} {m m' : Memory} (h : Memory.risingFrom lo m = true)
    (h' : Memory.risingFrom mid m' = true) (hlo : lo ≤ mid) (hm : ∀ c ∈ m, c.1 < mid) :
    Memory.risingFrom lo (m ++ m') = true := by
  induction m generalizing lo with
  | nil => exact Memory.risingFrom_mono h' hlo
  | cons c m ih =>
    obtain ⟨k, v⟩ := c
    simp only [Memory.risingFrom, Bool.and_eq_true, decide_eq_true_eq] at h
    have hk : k < mid := hm (k, v) (by simp)
    simp only [List.cons_append, Memory.risingFrom, Bool.and_eq_true, decide_eq_true_eq]
    exact ⟨h.1, ih h.2 (by omega) fun c hc => hm c (by simp [hc])⟩

theorem Memory.mem_place_lt {a : Nat} {bs : Bytes} {c : Host.Cell} (h : c ∈ Memory.place a bs) :
    a ≤ c.1 ∧ c.1 < a + bs.length := by
  induction bs generalizing a with
  | nil => simp [Memory.place] at h
  | cons b bs ih =>
    simp only [Memory.place, List.mem_cons, List.length_cons] at h ⊢
    rcases h with rfl | h
    · simp
    · have := ih h
      omega

theorem Memory.risingFrom_drop_lt {lo a : Nat} {m : Memory} (h : Memory.risingFrom lo m = true) :
    Memory.risingFrom a (m.filter fun c => decide (a ≤ c.1)) = true := by
  induction m generalizing lo with
  | nil => rfl
  | cons c m ih =>
    obtain ⟨k, v⟩ := c
    simp only [Memory.risingFrom, Bool.and_eq_true, decide_eq_true_eq] at h
    rw [List.filter_cons]
    split
    · rename_i hk
      simp only [decide_eq_true_eq] at hk
      simp only [Memory.risingFrom, Bool.and_eq_true, decide_eq_true_eq]
      exact ⟨hk, Memory.risingFrom_filter h.2 _⟩
    · exact ih h.2

/-- A write of a sequence keeps the canonical form. -/
theorem Memory.wf_writeBytes {m : Memory} (h : Memory.wf m = true) (a : Nat) (bs : Bytes) :
    Memory.wf (Memory.writeBytes m a bs) = true := by
  unfold Memory.writeBytes
  have hplace := Memory.risingFrom_place a bs
  have hlow := Memory.risingFrom_filter h (fun c => decide (c.1 < a))
  have hhigh := Memory.risingFrom_drop_lt (a := a + bs.length) h
  rw [List.append_assoc]
  refine Memory.risingFrom_append hlow
    (Memory.risingFrom_append hplace hhigh (by omega) fun c hc => (Memory.mem_place_lt hc).2) (by omega) ?_
  intro c hc
  simpa using (List.mem_filter.mp hc).2

/-! ## The capacity -/

theorem Memory.within_iff {cap : Nat} {m : Memory} : Memory.within cap m = true ↔ ∀ c ∈ m, c.1 < cap := by
  simp [Memory.within]

theorem Memory.mem_write {m : Memory} {a : Nat} {b : Byte} {c : Host.Cell} (h : c ∈ Memory.write m a b) :
    c = (a, b) ∨ c ∈ m := by
  induction m with
  | nil => simpa [Memory.write] using h
  | cons d m ih =>
    obtain ⟨k, v⟩ := d
    unfold Memory.write at h
    split at h
    · simpa using h
    · split at h
      · simp only [List.mem_cons] at h ⊢
        tauto
      · simp only [List.mem_cons] at h ⊢
        rcases h with h | h
        · tauto
        · rcases ih h with h | h <;> tauto

/-- A write below the capacity stays below it. -/
theorem Memory.within_write {cap : Nat} {m : Memory} (h : Memory.within cap m = true) {a : Nat} (b : Byte)
    (ha : a < cap) : Memory.within cap (Memory.write m a b) = true := by
  rw [Memory.within_iff] at h ⊢
  intro c hc
  rcases Memory.mem_write hc with rfl | hc
  · exact ha
  · exact h c hc

/-- A sequence that ends at or below the capacity stays below it. -/
theorem Memory.within_writeBytes {cap : Nat} {m : Memory} (h : Memory.within cap m = true) {a : Nat} {bs : Bytes}
    (ha : a + bs.length ≤ cap) : Memory.within cap (Memory.writeBytes m a bs) = true := by
  rw [Memory.within_iff] at h ⊢
  intro c hc
  simp only [Memory.writeBytes, List.mem_append, List.mem_filter] at hc
  rcases hc with (hc | hc) | hc
  · exact h c hc.1
  · have := Memory.mem_place_lt hc
    omega
  · exact h c hc.1

/-! ## Reading a sequence -/

theorem Memory.read_none_of_rising {lo : Nat} {m : Memory} (h : Memory.risingFrom lo m = true) {a : Nat}
    (ha : a < lo) : Memory.read m a = none := by
  induction m generalizing lo with
  | nil => rfl
  | cons c m ih =>
    obtain ⟨k, v⟩ := c
    simp only [Memory.risingFrom, Bool.and_eq_true, decide_eq_true_eq] at h
    rw [Memory.read_cons, if_neg (by omega)]
    exact ih h.2 (by omega)

/-- Reading one more byte of a buffer in canonical form: the byte there, and the rest. -/
theorem Memory.readBytes_succ {lo : Nat} {m : Memory} (h : Memory.risingFrom lo m = true) (a n : Nat) :
    Memory.readBytes m a (n + 1)
      = (Memory.read m a).bind fun b => (Memory.readBytes m (a + 1) n).map (b :: ·) := by
  induction m generalizing lo with
  | nil => rfl
  | cons c m ih =>
    obtain ⟨k, v⟩ := c
    have h' := h
    simp only [Memory.risingFrom, Bool.and_eq_true, decide_eq_true_eq] at h
    rw [Memory.readBytes, Memory.read_cons]
    by_cases hka : k < a
    · rw [if_pos hka, if_neg (by omega), ih h.2]
      have : ∀ n, Memory.readBytes ((k, v) :: m) (a + 1) n = Memory.readBytes m (a + 1) n := by
        intro n
        cases n with
        | zero => cases m <;> rfl
        | succ n => rw [Memory.readBytes, if_pos (by omega)]
      simp [this]
    · rw [if_neg hka]
      by_cases hk : k = a
      · subst hk
        have : ∀ n, Memory.readBytes ((k, v) :: m) (k + 1) n = Memory.readBytes m (k + 1) n := by
          intro n
          cases n with
          | zero => cases m <;> rfl
          | succ n => rw [Memory.readBytes, if_pos (by omega)]
        simp [this]
      · rw [if_neg hk, if_neg (by omega), Memory.read_none_of_rising h.2 (by omega)]
        rfl

/-- The bytes read from a buffer in canonical form are as many as asked for and the ones at their indexes. -/
theorem Memory.readBytes_eq_some {m : Memory} (h : Memory.wf m = true) {a n : Nat} {bs : Bytes} :
    Memory.readBytes m a n = some bs ↔ bs.length = n ∧ ∀ i < n, Memory.read m (a + i) = bs[i]? := by
  induction n generalizing a bs with
  | zero =>
    have : Memory.readBytes m a 0 = some [] := by cases m <;> rfl
    rw [this]
    constructor
    · rintro h; cases h; simp
    · rintro ⟨hl, -⟩; rw [List.length_eq_zero_iff.mp hl]
  | succ n ih =>
    rw [Memory.readBytes_succ h]
    constructor
    · intro hs
      obtain ⟨b, hb, hs⟩ := Option.bind_eq_some_iff.mp hs
      obtain ⟨rest, hr, rfl⟩ := Option.map_eq_some_iff.mp hs
      obtain ⟨hl, hi⟩ := ih.mp hr
      refine ⟨by simp [hl], fun i hi' => ?_⟩
      cases i with
      | zero => simpa using hb
      | succ i => simpa [Nat.add_assoc, Nat.add_comm 1] using hi i (by omega)
    · rintro ⟨hl, hi⟩
      cases bs with
      | nil => simp at hl
      | cons b rest =>
        have h0 := hi 0 (by omega)
        simp only [Nat.add_zero, List.getElem?_cons_zero] at h0
        rw [h0]
        have : Memory.readBytes m (a + 1) n = some rest := by
          refine ih.mpr ⟨by simpa using hl, fun i hi' => ?_⟩
          simpa [Nat.add_assoc, Nat.add_comm 1] using hi (i + 1) (by omega)
        simp [this]

/-- A range of a buffer in canonical form can be read iff every byte of it is written. -/
theorem Memory.readBytes_isSome {m : Memory} (h : Memory.wf m = true) (a n : Nat) :
    (Memory.readBytes m a n).isSome = true ↔ ∀ i < n, (Memory.read m (a + i)).isSome = true := by
  induction n generalizing a with
  | zero => cases m <;> simp [Memory.readBytes]
  | succ n ih =>
    rw [Memory.readBytes_succ h]
    constructor
    · intro hs i hi
      obtain ⟨x, hx⟩ := Option.isSome_iff_exists.mp hs
      obtain ⟨b, hb, hx⟩ := Option.bind_eq_some_iff.mp hx
      obtain ⟨rest, hr, -⟩ := Option.map_eq_some_iff.mp hx
      cases i with
      | zero => simp [hb]
      | succ i =>
        have := (ih (a + 1)).mp (by simp [hr]) i (by omega)
        simpa [Nat.add_assoc, Nat.add_comm 1] using this
    · intro hi
      have h0 := hi 0 (by omega)
      obtain ⟨b, hb⟩ := Option.isSome_iff_exists.mp h0
      have : (Memory.readBytes m (a + 1) n).isSome = true :=
        (ih (a + 1)).mpr fun i hi' => by simpa [Nat.add_assoc, Nat.add_comm 1] using hi (i + 1) (by omega)
      obtain ⟨rest, hr⟩ := Option.isSome_iff_exists.mp this
      rw [Nat.add_zero] at hb
      simp [hb, hr]

theorem Memory.filled_iff {m : Memory} (h : Memory.wf m = true) (n : Nat) :
    Memory.filled n m = true ↔ ∀ i < n, (Memory.read m i).isSome = true := by
  simpa [Memory.filled] using Memory.readBytes_isSome h 0 n

theorem Memory.readBytes_place (a : Nat) (bs : Bytes) (m : Memory) :
    Memory.readBytes (Memory.place a bs ++ m) a bs.length = some bs := by
  induction bs generalizing a with
  | nil => cases m <;> rfl
  | cons b bs ih =>
    have : ∀ n, Memory.readBytes ((a, b) :: (Memory.place (a + 1) bs ++ m)) (a + 1) n
        = Memory.readBytes (Memory.place (a + 1) bs ++ m) (a + 1) n := by
      intro n
      cases n with
      | zero => cases (Memory.place (a + 1) bs ++ m) <;> rfl
      | succ n => rw [Memory.readBytes, if_pos (by omega)]
    simp [Memory.place, Memory.readBytes, ih]

/-- A sequence written from index 0 is read back whole. -/
theorem Memory.readBytes_writeBytes_zero (m : Memory) (bs : Bytes) :
    Memory.readBytes (Memory.writeBytes m 0 bs) 0 bs.length = some bs := by
  simp [Memory.writeBytes, Memory.readBytes_place]

theorem Memory.readBytes_length {m : Memory} {a n : Nat} {bs : Bytes} (h : Memory.readBytes m a n = some bs) :
    bs.length = n := by
  induction m generalizing a n bs with
  | nil =>
    cases n with
    | zero => cases h; rfl
    | succ n => cases h
  | cons c m ih =>
    obtain ⟨k, v⟩ := c
    cases n with
    | zero => cases h; rfl
    | succ n =>
      rw [Memory.readBytes] at h
      split at h
      · exact ih h
      · split at h
        · obtain ⟨rest, hr, rfl⟩ := Option.map_eq_some_iff.mp h
          simp [ih hr]
        · cases h

end Sys2Proof.Machine
end

