-- ==== Sys2Proof/Laws/Operands.lean ====
section
/-! SUPPORT. The laws of the operands: what a command's input is, how long it is, and the small facts of the length
decoder, the mask applicator and the serializer's header. -/

namespace Sys2Proof.Machine

/-! ## The input -/

theorem State.input_eq_tooLong {s : State} : s.input = .tooLong ↔ s.cfg.inCap.toNat < s.inLen.toNat := by
  unfold State.input
  split
  · simpa
  · split <;> simp_all

theorem State.input_eq_bytes {s : State} {bs : Bytes} :
    s.input = .bytes bs ↔
      s.inLen.toNat ≤ s.cfg.inCap.toNat ∧ Memory.readBytes s.inBuf 0 s.inLen.toNat = some bs := by
  unfold State.input
  split
  · simp; omega
  · split <;> simp_all

theorem State.input_eq_unwritten {s : State} :
    s.input = .unwritten ↔
      s.inLen.toNat ≤ s.cfg.inCap.toNat ∧ Memory.readBytes s.inBuf 0 s.inLen.toNat = none := by
  unfold State.input
  split
  · simp; omega
  · split <;> simp_all

/-- The input is as long as IN_LEN says and no longer than IN. -/
theorem State.input_length {s : State} {bs : Bytes} (h : s.input = .bytes bs) :
    bs.length = s.inLen.toNat ∧ bs.length ≤ s.cfg.inCap.toNat := by
  obtain ⟨hle, hr⟩ := State.input_eq_bytes.mp h
  have := Memory.readBytes_length hr
  omega

/-- Two states with the same IN, IN_LEN and IN_CAP have the same input. -/
theorem State.input_congr {s t : State} (hl : t.inLen = s.inLen) (hb : t.inBuf = s.inBuf) (hc : t.cfg = s.cfg) :
    t.input = s.input := by
  simp [State.input, hl, hb, hc]

/-! ## Big-endian integers -/

theorem bigEndian_append_singleton (bs : Bytes) (b : Byte) :
    bigEndian (bs ++ [b]) = bigEndian bs * 256 + b.toNat := by
  simp [bigEndian]

@[simp] theorem bigEndianBytes_length (n v : Nat) : (bigEndianBytes n v).length = n := by
  induction n with
  | zero => rfl
  | succ n ih => simp [bigEndianBytes, ih]

/-! ## The mask applicator -/

@[simp] theorem applyMaskFrom_length (k : MaskKey) (i : Nat) (ws : Bytes) :
    (applyMaskFrom k i ws).length = ws.length := by
  induction ws generalizing i with
  | nil => rfl
  | cons w ws ih => simp [applyMaskFrom, ih]

@[simp] theorem applyMask_length (k : MaskKey) (ws : Bytes) : (applyMask k ws).length = ws.length :=
  applyMaskFrom_length k 0 ws

theorem applyMaskFrom_getElem? (k : MaskKey) (i : Nat) (ws : Bytes) (j : Nat) :
    (applyMaskFrom k i ws)[j]? = ws[j]?.map (· ^^^ k.lane (i + j)) := by
  induction ws generalizing i j with
  | nil => simp [applyMaskFrom]
  | cons w ws ih =>
    cases j with
    | zero => simp [applyMaskFrom]
    | succ j => simp [applyMaskFrom, ih, Nat.add_assoc, Nat.add_comm 1]

@[simp] theorem MaskKey.lane_zero (i : Nat) : MaskKey.zero.lane i = 0#8 := by
  unfold MaskKey.lane MaskKey.zero
  split <;> rfl

/-- With the placeholder key of an unmasked frame the applicator is the identity (R140). -/
@[simp] theorem applyMask_zero (ws : Bytes) : applyMask .zero ws = ws := by
  apply List.ext_getElem?
  intro j
  simp [applyMask, applyMaskFrom_getElem?]

/-! ## The extent of a frame -/

/-- The header length and the payload length of an accepted length field are bounded (R134 to R137). -/
theorem lengthField_ok {len7 : Nat} {s : Bytes} {ext plen : Nat} (h : lengthField len7 s = .ok (ext, plen)) :
    (len7 ≤ 125 ∧ ext = 0 ∧ plen = len7)
      ∨ (len7 = 126 ∧ ext = 2 ∧ 4 ≤ s.length ∧ plen = bigEndian ((s.drop 2).take 2))
      ∨ (126 < len7 ∧ ext = 8 ∧ 10 ≤ s.length ∧ plen = bigEndian ((s.drop 2).take 8) ∧ plen < 2 ^ 63) := by
  unfold lengthField at h
  split at h
  · cases h; omega
  · split at h
    · split at h
      · cases h
      · cases h
        refine .inr (.inl ⟨by assumption, rfl, by omega, rfl⟩)
    · split at h
      · cases h
      · dsimp only at h
        split at h
        · cases h
        · cases h
          refine .inr (.inr ⟨by omega, rfl, by omega, rfl, by omega⟩)

theorem maskField_ok {masked : Bool} {n : Nat} {s : Bytes} {k : MaskKey} {hdr : Nat}
    (h : maskField masked n s = .ok (k, hdr)) :
    (masked = true ∧ n + 4 ≤ s.length ∧ hdr = n + 4
        ∧ k = ⟨byteAt s n, byteAt s (n + 1), byteAt s (n + 2), byteAt s (n + 3)⟩)
      ∨ (masked = false ∧ hdr = n ∧ k = .zero) := by
  unfold maskField at h
  split at h
  · split at h
    · cases h
    · cases h
      refine .inl ⟨by assumption, by omega, rfl, rfl⟩
  · cases h
    refine .inr ⟨by simp_all, rfl, rfl⟩

/-- What an accepted frame header says, and that its bytes are there (R131, R139). -/
theorem frameExtent_ok {masked : Bool} {len7 : Nat} {s : Bytes} {x : Extent}
    (h : frameExtent masked len7 s = .ok x) :
    2 ≤ s.length ∧ ∃ ext, lengthField len7 s = .ok (ext, x.plen) ∧ maskField masked (2 + ext) s = .ok (x.key, x.hdr) := by
  unfold frameExtent at h
  split at h
  · cases h
  · refine ⟨by omega, ?_⟩
    split at h
    · cases h
    · rename_i ext plen hl
      split at h
      · cases h
      · rename_i key hdr hm
        cases h
        exact ⟨ext, hl, hm⟩

theorem lengthField_error {len7 : Nat} {s : Bytes} {c : ErrCode} (h : lengthField len7 s = .error c) :
    c = .truncHeader ∨ c = .lenRange := by
  unfold lengthField at h
  dsimp only at h
  repeat' split at h
  all_goals cases h
  all_goals simp

theorem maskField_error {masked : Bool} {n : Nat} {s : Bytes} {c : ErrCode} (h : maskField masked n s = .error c) :
    c = .truncHeader := by
  unfold maskField at h
  repeat' split at h
  all_goals cases h
  all_goals rfl

theorem frameExtent_error {masked : Bool} {len7 : Nat} {s : Bytes} {c : ErrCode}
    (h : frameExtent masked len7 s = .error c) : c = .truncHeader ∨ c = .lenRange := by
  unfold frameExtent at h
  split at h
  · cases h; simp
  · split at h
    · rename_i hl
      cases h
      exact lengthField_error hl
    · split at h
      · rename_i hm
        cases h
        exact .inl (maskField_error hm)
      · cases h

/-- The errors of the decode path (R152). -/
theorem decodeFrame_error {b0 b1 : Byte} {s : Bytes} {c : ErrCode} (h : decodeFrame b0 b1 s = .error c) :
    c = .truncHeader ∨ c = .lenRange ∨ c = .truncPayload := by
  unfold decodeFrame at h
  split at h
  · rename_i hx
    cases h
    rcases frameExtent_error hx with h | h <;> simp [h]
  · split at h
    · cases h; simp
    · cases h

/-- What DECODE of an accepted frame writes: its payload, all of it in the input. -/
theorem decodeFrame_ok {b0 b1 : Byte} {s : Bytes} {e : Effect} (h : decodeFrame b0 b1 s = .ok e) :
    ∃ x, frameExtent (headerFields b0 b1).masked (headerFields b0 b1).len7 s = .ok x
      ∧ x.plen ≤ s.length - x.hdr ∧ e = frameEffect b0 b1 x s := by
  unfold decodeFrame at h
  split at h
  · cases h
  · rename_i x hx
    split at h
    · cases h
    · cases h
      exact ⟨x, hx, by omega, rfl⟩

/-! ## The serializer's header -/

theorem textHeader_length (n : Nat) :
    (textHeader n).length = if n ≤ 125 then 2 else if n ≤ 65535 then 4 else 10 := by
  unfold textHeader
  split
  · rfl
  · split <;> simp

end Sys2Proof.Machine
end

