-- ==== Sys2Proof/Laws/State.lean ====
section
/-! SUPPORT. One lemma per field per named update of the state, so that no proof unfolds a record update. -/

namespace Sys2Proof.Machine

/-! ### withHost -/

section
variable (s : State) (h : HostSide)

@[simp] theorem State.withHost_cmd : (s.withHost h).cmd = s.cmd := rfl
@[simp] theorem State.withHost_status : (s.withHost h).status = s.status := rfl
@[simp] theorem State.withHost_inLen : (s.withHost h).inLen = s.inLen := rfl
@[simp] theorem State.withHost_outLen : (s.withHost h).outLen = s.outLen := rfl
@[simp] theorem State.withHost_frCtrl : (s.withHost h).frCtrl = s.frCtrl := rfl
@[simp] theorem State.withHost_frPlenLo : (s.withHost h).frPlenLo = s.frPlenLo := rfl
@[simp] theorem State.withHost_frPlenHi : (s.withHost h).frPlenHi = s.frPlenHi := rfl
@[simp] theorem State.withHost_frMaskKey : (s.withHost h).frMaskKey = s.frMaskKey := rfl
@[simp] theorem State.withHost_frFrameLen : (s.withHost h).frFrameLen = s.frFrameLen := rfl
@[simp] theorem State.withHost_result : (s.withHost h).result = s.result := rfl
@[simp] theorem State.withHost_inBuf : (s.withHost h).inBuf = s.inBuf := rfl
@[simp] theorem State.withHost_outBuf : (s.withHost h).outBuf = s.outBuf := rfl
@[simp] theorem State.withHost_cfg : (s.withHost h).cfg = s.cfg := rfl
@[simp] theorem State.withHost_schedule : (s.withHost h).schedule = s.schedule := rfl
@[simp] theorem State.withHost_host : (s.withHost h).host = h := rfl

end

/-! ### record -/

section
variable (s : State) (v : ReadValue)

@[simp] theorem State.record_cmd : (s.record v).cmd = s.cmd := rfl
@[simp] theorem State.record_status : (s.record v).status = s.status := rfl
@[simp] theorem State.record_inLen : (s.record v).inLen = s.inLen := rfl
@[simp] theorem State.record_outLen : (s.record v).outLen = s.outLen := rfl
@[simp] theorem State.record_frCtrl : (s.record v).frCtrl = s.frCtrl := rfl
@[simp] theorem State.record_frPlenLo : (s.record v).frPlenLo = s.frPlenLo := rfl
@[simp] theorem State.record_frPlenHi : (s.record v).frPlenHi = s.frPlenHi := rfl
@[simp] theorem State.record_frMaskKey : (s.record v).frMaskKey = s.frMaskKey := rfl
@[simp] theorem State.record_frFrameLen : (s.record v).frFrameLen = s.frFrameLen := rfl
@[simp] theorem State.record_result : (s.record v).result = s.result := rfl
@[simp] theorem State.record_inBuf : (s.record v).inBuf = s.inBuf := rfl
@[simp] theorem State.record_outBuf : (s.record v).outBuf = s.outBuf := rfl
@[simp] theorem State.record_cfg : (s.record v).cfg = s.cfg := rfl
@[simp] theorem State.record_schedule : (s.record v).schedule = s.schedule := rfl
@[simp] theorem State.record_host : (s.record v).host = { s.host with seen := s.host.seen ++ [v] } := rfl

end

/-! ### issue -/

section
variable (s : State) (v : Word)

@[simp] theorem State.issue_cmd : (s.issue v).cmd = v := rfl
@[simp] theorem State.issue_status : (s.issue v).status = statusWithBusy s.status true := rfl
@[simp] theorem State.issue_inLen : (s.issue v).inLen = s.inLen := rfl
@[simp] theorem State.issue_outLen : (s.issue v).outLen = s.outLen := rfl
@[simp] theorem State.issue_frCtrl : (s.issue v).frCtrl = s.frCtrl := rfl
@[simp] theorem State.issue_frPlenLo : (s.issue v).frPlenLo = s.frPlenLo := rfl
@[simp] theorem State.issue_frPlenHi : (s.issue v).frPlenHi = s.frPlenHi := rfl
@[simp] theorem State.issue_frMaskKey : (s.issue v).frMaskKey = s.frMaskKey := rfl
@[simp] theorem State.issue_frFrameLen : (s.issue v).frFrameLen = s.frFrameLen := rfl
@[simp] theorem State.issue_result : (s.issue v).result = s.result := rfl
@[simp] theorem State.issue_inBuf : (s.issue v).inBuf = s.inBuf := rfl
@[simp] theorem State.issue_outBuf : (s.issue v).outBuf = s.outBuf := rfl
@[simp] theorem State.issue_cfg : (s.issue v).cfg = s.cfg := rfl
@[simp] theorem State.issue_schedule : (s.issue v).schedule = s.schedule := rfl
@[simp] theorem State.issue_host : (s.issue v).host = s.host := rfl

end

/-! ### resetBlock -/

section
variable (s : State) 

@[simp] theorem State.resetBlock_cmd : (s.resetBlock).cmd = 0#32 := rfl
@[simp] theorem State.resetBlock_status : (s.resetBlock).status = 0#32 := rfl
@[simp] theorem State.resetBlock_inLen : (s.resetBlock).inLen = 0#32 := rfl
@[simp] theorem State.resetBlock_outLen : (s.resetBlock).outLen = 0#32 := rfl
@[simp] theorem State.resetBlock_frCtrl : (s.resetBlock).frCtrl = 0#32 := rfl
@[simp] theorem State.resetBlock_frPlenLo : (s.resetBlock).frPlenLo = 0#32 := rfl
@[simp] theorem State.resetBlock_frPlenHi : (s.resetBlock).frPlenHi = 0#32 := rfl
@[simp] theorem State.resetBlock_frMaskKey : (s.resetBlock).frMaskKey = 0#32 := rfl
@[simp] theorem State.resetBlock_frFrameLen : (s.resetBlock).frFrameLen = 0#32 := rfl
@[simp] theorem State.resetBlock_result : (s.resetBlock).result = 0#32 := rfl
@[simp] theorem State.resetBlock_inBuf : (s.resetBlock).inBuf = [] := rfl
@[simp] theorem State.resetBlock_outBuf : (s.resetBlock).outBuf = [] := rfl
@[simp] theorem State.resetBlock_cfg : (s.resetBlock).cfg = s.cfg := rfl
@[simp] theorem State.resetBlock_schedule : (s.resetBlock).schedule = s.schedule := rfl
@[simp] theorem State.resetBlock_host : (s.resetBlock).host = s.host := rfl

end

/-! ### raise -/

section
variable (s : State) (c : ErrCode)

@[simp] theorem State.raise_cmd : (s.raise c).cmd = s.cmd := rfl
@[simp] theorem State.raise_status : (s.raise c).status = statusCompleted s.status c := rfl
@[simp] theorem State.raise_inLen : (s.raise c).inLen = s.inLen := rfl
@[simp] theorem State.raise_outLen : (s.raise c).outLen = s.outLen := rfl
@[simp] theorem State.raise_frCtrl : (s.raise c).frCtrl = s.frCtrl := rfl
@[simp] theorem State.raise_frPlenLo : (s.raise c).frPlenLo = s.frPlenLo := rfl
@[simp] theorem State.raise_frPlenHi : (s.raise c).frPlenHi = s.frPlenHi := rfl
@[simp] theorem State.raise_frMaskKey : (s.raise c).frMaskKey = s.frMaskKey := rfl
@[simp] theorem State.raise_frFrameLen : (s.raise c).frFrameLen = s.frFrameLen := rfl
@[simp] theorem State.raise_result : (s.raise c).result = s.result := rfl
@[simp] theorem State.raise_inBuf : (s.raise c).inBuf = s.inBuf := rfl
@[simp] theorem State.raise_outBuf : (s.raise c).outBuf = s.outBuf := rfl
@[simp] theorem State.raise_cfg : (s.raise c).cfg = s.cfg := rfl
@[simp] theorem State.raise_schedule : (s.raise c).schedule = s.schedule := rfl
@[simp] theorem State.raise_host : (s.raise c).host = s.host := rfl

end

/-! ### commit -/

section
variable (s : State) (e : Effect)

@[simp] theorem State.commit_cmd : (s.commit e).cmd = s.cmd := rfl
@[simp] theorem State.commit_status : (s.commit e).status = statusCompleted s.status .success := rfl
@[simp] theorem State.commit_inLen : (s.commit e).inLen = s.inLen := rfl
@[simp] theorem State.commit_inBuf : (s.commit e).inBuf = s.inBuf := rfl
@[simp] theorem State.commit_cfg : (s.commit e).cfg = s.cfg := rfl
@[simp] theorem State.commit_schedule : (s.commit e).schedule = s.schedule := rfl
@[simp] theorem State.commit_host : (s.commit e).host = s.host := rfl

end

/-! ### commit, by what the effect lists -/

section
variable (s : State) (o : Bytes) (f : FrameRegs) (r : Word) (out : Option Bytes) (fr : Option FrameRegs) (res : Option Word)

@[simp] theorem State.commit_some_outLen : (s.commit ⟨some o, fr, res⟩).outLen = BitVec.ofNat 32 o.length := rfl
@[simp] theorem State.commit_none_outLen : (s.commit ⟨none, fr, res⟩).outLen = s.outLen := rfl
@[simp] theorem State.commit_some_outBuf : (s.commit ⟨some o, fr, res⟩).outBuf = Memory.writeBytes s.outBuf 0 o := rfl
@[simp] theorem State.commit_none_outBuf : (s.commit ⟨none, fr, res⟩).outBuf = s.outBuf := rfl
@[simp] theorem State.commit_some_frCtrl : (s.commit ⟨out, some f, res⟩).frCtrl = f.ctrl := rfl
@[simp] theorem State.commit_none_frCtrl : (s.commit ⟨out, none, res⟩).frCtrl = s.frCtrl := rfl
@[simp] theorem State.commit_some_frPlenLo : (s.commit ⟨out, some f, res⟩).frPlenLo = f.plenLo := rfl
@[simp] theorem State.commit_none_frPlenLo : (s.commit ⟨out, none, res⟩).frPlenLo = s.frPlenLo := rfl
@[simp] theorem State.commit_some_frPlenHi : (s.commit ⟨out, some f, res⟩).frPlenHi = f.plenHi := rfl
@[simp] theorem State.commit_none_frPlenHi : (s.commit ⟨out, none, res⟩).frPlenHi = s.frPlenHi := rfl
@[simp] theorem State.commit_some_frMaskKey : (s.commit ⟨out, some f, res⟩).frMaskKey = f.maskKey := rfl
@[simp] theorem State.commit_none_frMaskKey : (s.commit ⟨out, none, res⟩).frMaskKey = s.frMaskKey := rfl
@[simp] theorem State.commit_some_frFrameLen : (s.commit ⟨out, some f, res⟩).frFrameLen = f.frameLen := rfl
@[simp] theorem State.commit_none_frFrameLen : (s.commit ⟨out, none, res⟩).frFrameLen = s.frFrameLen := rfl
@[simp] theorem State.commit_some_result : (s.commit ⟨out, fr, some r⟩).result = r := rfl
@[simp] theorem State.commit_none_result : (s.commit ⟨out, fr, none⟩).result = s.result := rfl

end

/-! ### withInput -/

section
variable (s : State) (bs : Bytes)

@[simp] theorem State.withInput_cmd : (s.withInput bs).cmd = s.cmd := rfl
@[simp] theorem State.withInput_status : (s.withInput bs).status = s.status := rfl
@[simp] theorem State.withInput_inLen : (s.withInput bs).inLen = BitVec.ofNat 32 bs.length := rfl
@[simp] theorem State.withInput_outLen : (s.withInput bs).outLen = s.outLen := rfl
@[simp] theorem State.withInput_frCtrl : (s.withInput bs).frCtrl = s.frCtrl := rfl
@[simp] theorem State.withInput_frPlenLo : (s.withInput bs).frPlenLo = s.frPlenLo := rfl
@[simp] theorem State.withInput_frPlenHi : (s.withInput bs).frPlenHi = s.frPlenHi := rfl
@[simp] theorem State.withInput_frMaskKey : (s.withInput bs).frMaskKey = s.frMaskKey := rfl
@[simp] theorem State.withInput_frFrameLen : (s.withInput bs).frFrameLen = s.frFrameLen := rfl
@[simp] theorem State.withInput_result : (s.withInput bs).result = s.result := rfl
@[simp] theorem State.withInput_inBuf : (s.withInput bs).inBuf = Memory.writeBytes s.inBuf 0 bs := rfl
@[simp] theorem State.withInput_outBuf : (s.withInput bs).outBuf = s.outBuf := rfl
@[simp] theorem State.withInput_cfg : (s.withInput bs).cfg = s.cfg := rfl
@[simp] theorem State.withInput_schedule : (s.withInput bs).schedule = s.schedule := rfl
@[simp] theorem State.withInput_host : (s.withInput bs).host = s.host := rfl

end

/-! ### withPending -/

section
variable (s : State) (v : Word)

@[simp] theorem State.withPending_cmd : (s.withPending v).cmd = v := rfl
@[simp] theorem State.withPending_status : (s.withPending v).status = statusWithBusy s.status true := rfl
@[simp] theorem State.withPending_inLen : (s.withPending v).inLen = s.inLen := rfl
@[simp] theorem State.withPending_outLen : (s.withPending v).outLen = s.outLen := rfl
@[simp] theorem State.withPending_frCtrl : (s.withPending v).frCtrl = s.frCtrl := rfl
@[simp] theorem State.withPending_frPlenLo : (s.withPending v).frPlenLo = s.frPlenLo := rfl
@[simp] theorem State.withPending_frPlenHi : (s.withPending v).frPlenHi = s.frPlenHi := rfl
@[simp] theorem State.withPending_frMaskKey : (s.withPending v).frMaskKey = s.frMaskKey := rfl
@[simp] theorem State.withPending_frFrameLen : (s.withPending v).frFrameLen = s.frFrameLen := rfl
@[simp] theorem State.withPending_result : (s.withPending v).result = s.result := rfl
@[simp] theorem State.withPending_inBuf : (s.withPending v).inBuf = s.inBuf := rfl
@[simp] theorem State.withPending_outBuf : (s.withPending v).outBuf = s.outBuf := rfl
@[simp] theorem State.withPending_cfg : (s.withPending v).cfg = s.cfg := rfl
@[simp] theorem State.withPending_schedule : (s.withPending v).schedule = [] := rfl
@[simp] theorem State.withPending_host : (s.withPending v).host = s.host := rfl

end

/-! ### the host's side -/

section
variable (h : HostSide) (ops : List HostOp) (p : Phase)

@[simp] theorem HostSide.next_script : (h.next ops p).script = ops := rfl
@[simp] theorem HostSide.next_phase : (h.next ops p).phase = p := rfl
@[simp] theorem HostSide.next_seen : (h.next ops p).seen = h.seen := rfl
@[simp] theorem HostSide.next_conn : (h.next ops p).conn = h.conn := rfl
@[simp] theorem HostSide.next_inbox : (h.next ops p).inbox = h.inbox := rfl
@[simp] theorem HostSide.next_queue : (h.next ops p).queue = h.queue := rfl
@[simp] theorem HostSide.next_sent : (h.next ops p).sent = h.sent := rfl
@[simp] theorem HostSide.next_stored : (h.next ops p).stored = h.stored := rfl
@[simp] theorem HostSide.next_draws : (h.next ops p).draws = h.draws := rfl

end

/-! ### updates of updates, and what is read through them -/

section
variable (s : State) (h h' : HostSide)

@[simp] theorem State.withHost_withHost : (s.withHost h).withHost h' = s.withHost h' := rfl
@[simp] theorem State.withHost_self : s.withHost s.host = s := rfl
@[simp] theorem State.withHost_busy : (s.withHost h).busy = s.busy := rfl
@[simp] theorem State.withHost_err : (s.withHost h).err = s.err := rfl
@[simp] theorem State.withHost_reg (r : Reg) : (s.withHost h).reg r = s.reg r := by cases r <;> rfl
@[simp] theorem State.withHost_regRead (w off : Nat) : (s.withHost h).regRead w off = s.regRead w off := by
  simp [State.regRead]
@[simp] theorem State.withHost_outRead (i : Nat) : (s.withHost h).outRead i = s.outRead i := rfl
@[simp] theorem State.withHost_inRead (i : Nat) : (s.withHost h).inRead i = s.inRead i := rfl
@[simp] theorem State.withHost_input : (s.withHost h).input = s.input := rfl
theorem State.record_eq (v : ReadValue) : s.record v = s.withHost { s.host with seen := s.host.seen ++ [v] } := rfl

end

end Sys2Proof.Machine
end

