-- ==== Sys2Proof/Laws/Complete.lean ====
section
/-! SUPPORT. What a completion can do, said once: every instruction is the common checks around its `perform` (R113),
and it ends in a fault, an error or a commit. -/

namespace Sys2Proof.Machine

/-! ## The shared operations -/

/-- The end of a completion: an error, which changes STATUS alone, or a commit of the effect that fits OUT. -/
theorem State.finish_cases (s : State) (r : Except ErrCode Effect) :
    (∃ c, r = .error c ∧ s.finish r = s.raise c)
      ∨ (∃ e, r = .ok e ∧ e.overflows s.cfg.outCap = true ∧ s.finish r = s.raise .outOverflow)
      ∨ ∃ e, r = .ok e ∧ e.overflows s.cfg.outCap = false ∧ s.finish r = s.commit e := by
  cases r with
  | error c => exact .inl ⟨c, rfl, rfl⟩
  | ok e =>
    by_cases h : e.overflows s.cfg.outCap = true
    · exact .inr (.inl ⟨e, rfl, h, by simp [State.finish, h]⟩)
    · simp only [Bool.not_eq_true] at h
      exact .inr (.inr ⟨e, rfl, h, by simp [State.finish, h]⟩)

/-- The completion of a command that reads IN, by what its input is. -/
theorem State.completeReading_cases (s : State) (perform : Bytes → Except ErrCode Effect) :
    (s.input = .tooLong ∧ s.completeReading perform = .next (s.raise .inLenRange))
      ∨ (s.input = .unwritten ∧ s.completeReading perform = .fault .unwrittenInput)
      ∨ ∃ bs, s.input = .bytes bs ∧ s.completeReading perform = .next (s.finish (perform bs)) := by
  cases h : s.input with
  | tooLong => exact .inl ⟨rfl, by simp [State.completeReading, h]⟩
  | unwritten => exact .inr (.inl ⟨rfl, by simp [State.completeReading, h]⟩)
  | bytes bs => exact .inr (.inr ⟨bs, rfl, by simp [State.completeReading, h]⟩)

theorem State.completeReading_bytes {s : State} {bs : Bytes} (h : s.input = .bytes bs)
    (perform : Bytes → Except ErrCode Effect) : s.completeReading perform = .next (s.finish (perform bs)) := by
  simp [State.completeReading, h]

/-! ## Every instruction -/

/-- Every instruction is its `perform` inside the common checks of R113. -/
theorem exec_eq (i : Instr) (s : State) :
    exec i s = if i.readsInput then s.completeReading (i.perform s.cfg)
      else s.completeWithoutInput (i.perform s.cfg []) := by
  cases i <;> rfl

/-- What an instruction can do: the error of an IN_LEN above IN_CAP, the fault of an unwritten byte, or the end of
its `perform` on its input. -/
theorem exec_cases (i : Instr) (s : State) :
    (i.readsInput = true ∧ s.input = .tooLong ∧ exec i s = .next (s.raise .inLenRange))
      ∨ (i.readsInput = true ∧ s.input = .unwritten ∧ exec i s = .fault .unwrittenInput)
      ∨ ∃ bs, (i.readsInput = true → s.input = .bytes bs) ∧ (i.readsInput = false → bs = [])
          ∧ exec i s = .next (s.finish (i.perform s.cfg bs)) := by
  rw [exec_eq]
  cases hr : i.readsInput with
  | false => exact .inr (.inr ⟨[], by simp, by simp, rfl⟩)
  | true =>
    rcases s.completeReading_cases (i.perform s.cfg) with ⟨h, he⟩ | ⟨h, he⟩ | ⟨bs, h, he⟩
    · exact .inl ⟨rfl, h, by simpa using he⟩
    · exact .inr (.inl ⟨rfl, h, by simpa using he⟩)
    · exact .inr (.inr ⟨bs, fun _ => h, by simp, by simpa using he⟩)

/-- No instruction's own check reports success as an error, and none reports an interface error (R260). -/
theorem perform_error {i : Instr} {c : Config} {bs : Bytes} {e : ErrCode} (h : i.perform c bs = .error e) :
    (i.isDecode = true ∧ (e = .truncHeader ∨ e = .lenRange ∨ e = .truncPayload))
      ∨ (i = .encodeText ∧ e = .sizeLimit) ∨ (i = .hsCompose ∧ e = .hsNoKey) := by
  cases i
  case encodeText =>
    simp only [Instr.perform, performEncodeText] at h
    split at h
    · cases h; simp
    · cases h
  case hsCompose =>
    simp only [Instr.perform, performCompose] at h
    split at h
    · cases h; simp
    · cases h
  case genPing => cases h
  case genPong => cases h
  case genClose => cases h
  case hsDetect => cases h
  all_goals exact .inl ⟨rfl, decodeFrame_error h⟩

/-- The effects of the instructions (R81): DECODE and the headers write OUT and the frame-field registers, HS_DETECT
writes RESULT alone, every other command OUT alone. -/
theorem perform_ok {i : Instr} {c : Config} {bs : Bytes} {e : Effect} (h : i.perform c bs = .ok e) :
    (i.isDecode = true ∧ ∃ b0 b1 x, frameExtent (headerFields b0 b1).masked (headerFields b0 b1).len7 bs = .ok x
        ∧ x.plen ≤ bs.length - x.hdr ∧ e = frameEffect b0 b1 x bs)
      ∨ (i = .hsDetect ∧ e = ⟨none, none, some (resultWord (detect c.getCaseInsensitive bs))⟩)
      ∨ (i.isDecode = false ∧ i ≠ .hsDetect ∧ ∃ o, e = ⟨some o, none, none⟩) := by
  cases i
  case encodeText =>
    simp only [Instr.perform, performEncodeText] at h
    split at h
    · cases h
    · cases h; exact .inr (.inr ⟨rfl, by simp, _, rfl⟩)
  case hsCompose =>
    simp only [Instr.perform, performCompose] at h
    split at h
    · cases h
    · cases h; exact .inr (.inr ⟨rfl, by simp, _, rfl⟩)
  case genPing => cases h; exact .inr (.inr ⟨rfl, by simp, _, rfl⟩)
  case genPong => cases h; exact .inr (.inr ⟨rfl, by simp, _, rfl⟩)
  case genClose => cases h; exact .inr (.inr ⟨rfl, by simp, _, rfl⟩)
  case hsDetect => cases h; exact .inr (.inl ⟨rfl, rfl⟩)
  all_goals
    obtain ⟨x, hx, hp, he⟩ := decodeFrame_ok h
    exact .inl ⟨rfl, _, _, x, hx, hp, he⟩

/-- A next state of an instruction is an error that changes STATUS alone, or the commit of an effect of its
`perform` that fits OUT. -/
theorem exec_next {i : Instr} {s t : State} (h : exec i s = .next t) :
    (∃ c, c ≠ .success ∧ t = s.raise c)
      ∨ ∃ bs e, (i.readsInput = true → s.input = .bytes bs) ∧ i.perform s.cfg bs = .ok e
          ∧ e.overflows s.cfg.outCap = false ∧ t = s.commit e := by
  rcases exec_cases i s with ⟨-, -, he⟩ | ⟨-, -, he⟩ | ⟨bs, hin, -, he⟩
  · rw [he] at h; cases h
    exact .inl ⟨_, by simp, rfl⟩
  · rw [he] at h; cases h
  · rw [he] at h; cases h
    rcases s.finish_cases (i.perform s.cfg bs) with ⟨c, hc, hf⟩ | ⟨e, -, -, hf⟩ | ⟨e, he', ho, hf⟩
    · refine .inl ⟨c, ?_, hf⟩
      rcases perform_error hc with ⟨-, h | h | h⟩ | ⟨-, h⟩ | ⟨-, h⟩ <;> simp [h]
    · exact .inl ⟨_, by simp, hf⟩
    · exact .inr ⟨bs, e, hin, he', ho, hf⟩

/-- The one fault of an instruction. -/
theorem exec_fault {i : Instr} {s : State} {f : Fault} (h : exec i s = .fault f) :
    f = .unwrittenInput ∧ i.readsInput = true ∧ s.input = .unwritten := by
  rcases exec_cases i s with ⟨-, -, he⟩ | ⟨hr, hi, he⟩ | ⟨bs, -, -, he⟩
  · rw [he] at h; cases h
  · rw [he] at h; cases h; exact ⟨rfl, hr, hi⟩
  · rw [he] at h; cases h

/-- No instruction is refused. -/
theorem exec_not_refused (i : Instr) (s : State) (r : Refusal) : exec i s ≠ .refused r := by
  rcases exec_cases i s with ⟨-, -, he⟩ | ⟨-, -, he⟩ | ⟨bs, -, -, he⟩ <;> rw [he] <;> simp

/-- The output of an effect that fits OUT is as long as OUT_LEN then says (R29). -/
theorem Effect.out_length {e : Effect} {cap : Word} {o : Bytes} (h : e.overflows cap = false) (ho : e.out = some o) :
    o.length ≤ cap.toNat ∧ (BitVec.ofNat 32 o.length).toNat = o.length := by
  simp only [Effect.overflows, ho, decide_eq_false_iff_not, Nat.not_lt] at h
  have := cap.isLt
  exact ⟨h, by rw [BitVec.toNat_ofNat, Nat.mod_eq_of_lt]; omega⟩

end Sys2Proof.Machine
end

