-- ==== Sys2Proof/Laws/PerInstr.lean ====
section
/-! SUPPORT. Facts stated per instruction: every instruction's code bears its row of the opcode table. -/

namespace Sys2Proof.Laws.TableBits

/-- The code of the instruction, under its row's mask, is its row's pattern, and the row has the code's width. -/
def Statement (i : Instr) : Prop := (opcodeTable[i.rowIndex]?).any (·.accepts (encode i)) = true

/-- Bits 11:8 of a header word are the opcode (R84). -/
theorem word_masked (h : WireHeader) (op : BitVec 4) : (h.word op).toNat &&& 0x0F00 = op.toNat * 256 := by
  have hw : (h.word op &&& 0x0F00#16) = (op.setWidth 16 <<< 8) := by
    apply BitVec.eq_of_getLsbD_eq
    intro i hi
    rw [BitVec.getLsbD_and, WireHeader.word, BitVec.getLsbD_append, WireHeader.byte0, BitVec.getLsbD_append]
    interval_cases i <;> simp
  have := congrArg BitVec.toNat hw
  have hop := op.isLt
  simp only [BitVec.toNat_and, BitVec.toNat_shiftLeft, BitVec.toNat_setWidth] at this
  rw [show (0x0F00#16).toNat = 0x0F00 from rfl] at this
  rw [this, Nat.shiftLeft_eq, Nat.mod_eq_of_lt (by omega), Nat.mod_eq_of_lt (by omega)]

theorem header_row (h : WireHeader) (op : BitVec 4) (p : Nat) (hp : op.toNat * 256 = p) :
    TableRow.accepts ⟨16, 0x0F00, p⟩ (.header (h.word op)) = true := by
  simp [TableRow.accepts, word_masked, hp]

theorem decode : Statement .decode := by unfold Statement; decide
theorem encodeText : Statement .encodeText := by unfold Statement; decide
theorem genPing : Statement .genPing := by unfold Statement; decide
theorem genPong : Statement .genPong := by unfold Statement; decide
theorem genClose : Statement .genClose := by unfold Statement; decide
theorem hsDetect : Statement .hsDetect := by unfold Statement; decide
theorem hsCompose : Statement .hsCompose := by unfold Statement; decide
theorem wsContinuation (h : WireHeader) : Statement (.wsContinuation h) := header_row h 0#4 _ rfl
theorem wsText (h : WireHeader) : Statement (.wsText h) := header_row h 1#4 _ rfl
theorem wsBinary (h : WireHeader) : Statement (.wsBinary h) := header_row h 2#4 _ rfl
theorem wsOpcode3 (h : WireHeader) : Statement (.wsOpcode3 h) := header_row h 3#4 _ rfl
theorem wsOpcode4 (h : WireHeader) : Statement (.wsOpcode4 h) := header_row h 4#4 _ rfl
theorem wsOpcode5 (h : WireHeader) : Statement (.wsOpcode5 h) := header_row h 5#4 _ rfl
theorem wsOpcode6 (h : WireHeader) : Statement (.wsOpcode6 h) := header_row h 6#4 _ rfl
theorem wsOpcode7 (h : WireHeader) : Statement (.wsOpcode7 h) := header_row h 7#4 _ rfl
theorem wsClose (h : WireHeader) : Statement (.wsClose h) := header_row h 8#4 _ rfl
theorem wsPing (h : WireHeader) : Statement (.wsPing h) := header_row h 9#4 _ rfl
theorem wsPong (h : WireHeader) : Statement (.wsPong h) := header_row h 10#4 _ rfl
theorem wsOpcodeB (h : WireHeader) : Statement (.wsOpcodeB h) := header_row h 11#4 _ rfl
theorem wsOpcodeC (h : WireHeader) : Statement (.wsOpcodeC h) := header_row h 12#4 _ rfl
theorem wsOpcodeD (h : WireHeader) : Statement (.wsOpcodeD h) := header_row h 13#4 _ rfl
theorem wsOpcodeE (h : WireHeader) : Statement (.wsOpcodeE h) := header_row h 14#4 _ rfl
theorem wsOpcodeF (h : WireHeader) : Statement (.wsOpcodeF h) := header_row h 15#4 _ rfl

end Sys2Proof.Laws.TableBits
end

