-- ==== Sys2Proof/Laws/Step.lean ====
section
/-! SUPPORT. What a step can do, said once: for the host's accesses, for the reference host, for a completion and for
the step itself. -/

namespace Sys2Proof.Machine

/-! ## The host's accesses -/

/-- A register write that is no fault: CMD, an issue, or IN_LEN; at full width, while no command is pending. -/
theorem State.regWrite_ok {s t : State} {w off : Nat} {v : Word} (h : s.regWrite w off v = .ok t) :
    w = 4 ∧ s.busy = false
      ∧ ((off = Reg.cmd.offset ∧ t = s.issue v) ∨ (off = Reg.inLen.offset ∧ t = { s with inLen := v })) := by
  unfold State.regWrite at h
  split at h
  · cases h
  · rename_i r hr
    split at h
    · cases h
    · split at h
      · cases h
      · split at h
        · cases h
        · rename_i hw hwr hb
          have hb' : s.busy = false := by simpa using hb
          have hoff : off = r.offset := by
            unfold regAt at hr
            split at hr <;> first | (cases hr; rfl) | cases hr
          refine ⟨by simpa using hw, hb', ?_⟩
          split at h
          · cases h; exact .inl ⟨hoff, rfl⟩
          · cases h; exact .inr ⟨hoff, rfl⟩
          all_goals cases h

/-- A register read that is no fault returns the register's value, at full width; while a command is pending, only of
the registers of R297. -/
theorem State.regRead_ok {s : State} {w off : Nat} {v : Word} (h : s.regRead w off = .ok v) :
    ∃ r : Reg, regAt off = some r ∧ w = 4 ∧ (s.busy = true → r.readableWhileBusy = true) ∧ v = s.reg r := by
  unfold State.regRead at h
  split at h
  · cases h
  · rename_i r hr
    split at h
    · cases h
    · split at h
      · cases h
      · rename_i hw hb
        cases h
        exact ⟨r, hr, by simpa using hw, by simpa using hb, rfl⟩

/-- A register read of the reference host while no command is pending. -/
theorem State.regRead_idle {s : State} (r : Reg) (h : s.busy = false) : s.regRead 4 r.offset = .ok (s.reg r) := by
  cases r <;> simp [State.regRead, regAt, Reg.offset, h]

theorem State.withReg_idle {s : State} (r : Reg) (k : Word → State) (h : s.busy = false) :
    s.withReg r k = .next (k (s.reg r)) := by
  simp [State.withReg, State.regRead_idle r h]

/-- An access that is no fault: an issue, a write of IN_LEN, a write of an IN byte below IN_CAP, all while no command
is pending; or a read, which changes the host's record alone (R65). -/
theorem State.access_ok {s t : State} {a : HostAccess} (h : s.access a = .ok t) :
    (s.busy = false ∧ ∃ v, a = .regWrite 4 Reg.cmd.offset v ∧ t = s.issue v)
      ∨ (s.busy = false ∧ ∃ v, a = .regWrite 4 Reg.inLen.offset v ∧ t = { s with inLen := v })
      ∨ (s.busy = false ∧ ∃ i b, a = .inWrite i b ∧ i < s.cfg.inCap.toNat
          ∧ t = { s with inBuf := Memory.write s.inBuf i b })
      ∨ ∃ v, t = s.record v := by
  cases a with
  | regWrite w off v =>
    obtain ⟨rfl, hb, ⟨rfl, rfl⟩ | ⟨rfl, rfl⟩⟩ := State.regWrite_ok h
    · exact .inl ⟨hb, v, rfl, rfl⟩
    · exact .inr (.inl ⟨hb, v, rfl, rfl⟩)
  | regRead w off =>
    simp only [State.access] at h
    cases hr : s.regRead w off with
    | error f => rw [hr] at h; cases h
    | ok v => rw [hr] at h; cases h; exact .inr (.inr (.inr ⟨_, rfl⟩))
  | inWrite i b =>
    simp only [State.access, State.inWrite] at h
    split at h
    · cases h
    · split at h
      · cases h
      · rename_i hi hb
        cases h
        exact .inr (.inr (.inl ⟨by simpa using hb, i, b, rfl, by omega, rfl⟩))
  | inRead i =>
    simp only [State.access] at h
    cases hr : s.inRead i with
    | error f => rw [hr] at h; cases h
    | ok v => rw [hr] at h; cases h; exact .inr (.inr (.inr ⟨_, rfl⟩))
  | outRead i =>
    simp only [State.access] at h
    cases hr : s.outRead i with
    | error f => rw [hr] at h; cases h
    | ok v => rw [hr] at h; cases h; exact .inr (.inr (.inr ⟨_, rfl⟩))

/-! ## The reference host changes the host's side alone -/

section
variable (s : State)

theorem State.closeConn_eq : ∃ h, s.closeConn = s.withHost h := ⟨_, rfl⟩

theorem State.startDecode_eq (loaded : Bool) (r : Bytes) : ∃ h, s.startDecode loaded r = s.withHost h := by
  unfold State.startDecode
  split <;> exact ⟨_, rfl⟩

theorem State.nextMessage_eq : ∃ h, s.nextMessage = s.withHost h := by
  unfold State.nextMessage
  split
  · exact s.startDecode_eq _ _
  · exact ⟨_, rfl⟩

theorem State.received_eq (r : Bytes) : ∃ h, s.received r = s.withHost h := by
  unfold State.received
  split
  · exact ⟨_, rfl⟩
  · exact s.startDecode_eq _ _
  · exact s.closeConn_eq

theorem State.hostRead_eq : ∃ h, s.hostRead = s.withHost h := by
  unfold State.hostRead
  split
  · exact ⟨s.host, rfl⟩
  · exact ⟨_, rfl⟩
  · dsimp only
    split
    · exact ⟨_, rfl⟩
    · exact State.received_eq (s.withHost _) _

theorem State.afterDetect_eq (r : Bytes) (v : Word) : ∃ h, s.afterDetect r v = s.withHost h := by
  unfold State.afterDetect
  split
  · exact ⟨_, rfl⟩
  · split
    · exact State.startDecode_eq (s.withHost _) _ _
    · exact s.startDecode_eq _ _

theorem State.afterRun_eq (p : Phase) (v : Word) : ∃ h, s.afterRun p v = s.withHost h := by
  unfold State.afterRun
  split <;> exact ⟨_, rfl⟩

theorem State.afterDecode_eq (v : Word) : ∃ h, s.afterDecode v = s.withHost h := by
  unfold State.afterDecode
  split
  · split <;> exact ⟨_, rfl⟩
  · split
    · exact ⟨_, rfl⟩
    · split <;> exact ⟨_, rfl⟩

theorem State.dispatchClass_eq (v : Word) : ∃ h, s.dispatchClass v = s.withHost h := by
  unfold State.dispatchClass
  split
  · exact ⟨_, rfl⟩
  · split
    · exact ⟨_, rfl⟩
    · split
      · exact s.nextMessage_eq
      · split
        · exact s.closeConn_eq
        · split
          · exact s.nextMessage_eq
          · exact s.closeConn_eq

theorem State.collected_eq (p : Purpose) (got : Bytes) : ∃ h, s.collected p got = s.withHost h := by
  cases p <;> exact ⟨_, rfl⟩

theorem State.afterWrite_eq (ok : Bool) (p : Purpose) (out : Bytes) : ∃ h, s.afterWrite ok p out = s.withHost h := by
  unfold State.afterWrite
  dsimp only
  split
  · split
    · exact ⟨_, rfl⟩
    · exact State.nextMessage_eq ((s.withHost _).withHost _)
    · exact State.nextMessage_eq ((s.withHost _).withHost _)
  · exact ⟨_, rfl⟩

theorem State.afterValidate_eq (ok : Bool) (text : Bytes) : ∃ h, s.afterValidate ok text = s.withHost h := by
  unfold State.afterValidate
  split <;> exact ⟨_, rfl⟩

theorem State.afterStore_eq (ok : Bool) (text : Bytes) : ∃ h, s.afterStore ok text = s.withHost h := by
  unfold State.afterStore
  dsimp only
  split <;> exact ⟨_, rfl⟩

end

theorem State.withReg_next {s t : State} {r : Reg} {k : Word → State} (h : s.withReg r k = .next t) :
    ∃ v, t = k v := by
  unfold State.withReg at h
  split at h
  · cases h
  · cases h; exact ⟨_, rfl⟩

/-- A step of the reference host changes the host's side alone. -/
theorem State.hostPhase_next {s t : State} (h : s.hostPhase = .next t) : ∃ g, t = s.withHost g := by
  unfold State.hostPhase at h
  split at h
  · cases h; exact s.hostRead_eq
  · obtain ⟨v, rfl⟩ := State.withReg_next h; exact s.afterRun_eq _ v
  · obtain ⟨v, rfl⟩ := State.withReg_next h; exact s.afterDetect_eq _ v
  · obtain ⟨v, rfl⟩ := State.withReg_next h; exact s.afterRun_eq _ v
  · obtain ⟨v, rfl⟩ := State.withReg_next h; exact s.afterDecode_eq v
  · obtain ⟨v, rfl⟩ := State.withReg_next h; exact ⟨_, rfl⟩
  · obtain ⟨v, rfl⟩ := State.withReg_next h; exact s.dispatchClass_eq v
  · obtain ⟨v, rfl⟩ := State.withReg_next h; exact ⟨_, rfl⟩
  · unfold State.hostCollect at h
    split at h
    · split at h
      · cases h
      · cases h; exact ⟨_, rfl⟩
    · cases h; exact s.collected_eq _ _
  · cases h; exact s.afterWrite_eq _ _ _
  · cases h; exact s.afterValidate_eq _ _
  · cases h; exact s.afterStore_eq _ _
  · cases h; exact ⟨s.host, rfl⟩

/-- The writes of a load, index by index. -/
theorem inWrites_eq_mapIdx (i : Nat) (bs : Bytes) :
    inWrites i bs = bs.mapIdx fun k b => .access (.inWrite (i + k) b) := by
  induction bs generalizing i with
  | nil => rfl
  | cons b bs ih => simp [inWrites, List.mapIdx_cons, ih, Nat.add_assoc, Nat.add_comm 1]

/-- A load and a run, as the claims write them. -/
theorem loadOps_append_runOps (op : Byte) (bs : Bytes) :
    loadOps bs ++ runOps op = loadAndRun (commandWord op) bs := by
  simp [loadOps, inWrites_eq_mapIdx, loadAndRun, runOps, cmdOp, Reg.offset]

/-- Going on to the next message, as the claims write it. -/
theorem State.nextMessage_eq_atNextMessage (s : State) :
    s.nextMessage = s.withHost (s.host.atNextMessage s.cfg) := by
  unfold State.nextMessage HostSide.atNextMessage
  split
  · rename_i h
    simp only [State.startDecode, h.1, List.append_nil, loadOps_append_runOps]
    rfl
  · rfl

/-! ## The host, the codec, the step -/

/-- A step of the host: an issue, a write of IN_LEN or of an IN byte, each the next line of its script and made while
no command is pending; or a change of its own side alone. -/
theorem State.hostStep_next {s t : State} (h : s.hostStep = .next t) :
    (s.busy = false ∧ ∃ v rest, s.host.script = .access (.regWrite 4 Reg.cmd.offset v) :: rest
        ∧ t = (s.withHost { s.host with script := rest }).issue v)
      ∨ (s.busy = false ∧ ∃ v rest, s.host.script = .access (.regWrite 4 Reg.inLen.offset v) :: rest
          ∧ t = { s.withHost { s.host with script := rest } with inLen := v })
      ∨ (s.busy = false ∧ ∃ i b rest, s.host.script = .access (.inWrite i b) :: rest ∧ i < s.cfg.inCap.toNat
          ∧ t = { s.withHost { s.host with script := rest } with inBuf := Memory.write s.inBuf i b })
      ∨ ∃ g, t = s.withHost g := by
  unfold State.hostStep at h
  split at h
  · rename_i a rest hs
    unfold State.hostAccess at h
    split at h
    · cases h
    · rename_i u hu
      cases h
      rcases State.access_ok hu with ⟨hb, v, rfl, rfl⟩ | ⟨hb, v, rfl, rfl⟩ | ⟨hb, i, b, rfl, hi, rfl⟩ | ⟨v, rfl⟩
      · exact .inl ⟨hb, v, rest, hs, rfl⟩
      · exact .inr (.inl ⟨hb, v, rest, hs, rfl⟩)
      · exact .inr (.inr (.inl ⟨hb, i, b, rest, hs, hi, rfl⟩))
      · exact .inr (.inr (.inr ⟨_, rfl⟩))
  · rename_i rest hs
    unfold State.hostWait at h
    split at h
    · cases h
    · split at h
      · cases h; exact .inr (.inr (.inr ⟨s.host, rfl⟩))
      · cases h; exact .inr (.inr (.inr ⟨_, rfl⟩))
  · exact .inr (.inr (.inr (State.hostPhase_next h)))

/-- A completion: the fetched instruction, or ILLEGAL_CMD. -/
theorem State.complete_next {s t : State} (h : s.complete = .next t) :
    (∃ i, s.fetch = .ok i ∧ exec i s = .next t) ∨ t = s.raise .illegalCmd := by
  unfold State.complete at h
  split at h
  · rename_i i hi
    exact .inl ⟨i, hi, h⟩
  · cases h; exact .inr rfl

/-- A completion is an error that changes STATUS alone, or the commit of an effect that fits OUT. -/
theorem State.complete_next_cases {s t : State} (h : s.complete = .next t) :
    (∃ c, c ≠ .success ∧ t = s.raise c)
      ∨ ∃ i bs e, s.fetch = .ok i ∧ (i.readsInput = true → s.input = .bytes bs) ∧ i.perform s.cfg bs = .ok e
          ∧ e.overflows s.cfg.outCap = false ∧ t = s.commit e := by
  rcases State.complete_next h with ⟨i, hi, he⟩ | rfl
  · rcases exec_next he with hc | ⟨bs, e, h1, h2, h3, h4⟩
    · exact .inl hc
    · exact .inr ⟨i, bs, e, hi, h1, h2, h3, h4⟩
  · exact .inl ⟨_, by simp, rfl⟩

/-- With no turn scheduled and no command pending, the host moves. -/
theorem step_of_idle {s : State} (hs : s.schedule = []) (hb : s.busy = false) : step s = s.hostStep := by
  simp [step, hs, hb]

/-- One step, by who moves: a completion, a step of the host, the reset input, or a turn of the codec with nothing
pending. The schedule loses its first entry. -/
theorem step_cases (s : State) :
    (s.busy = true ∧ step s = State.complete { s with schedule := s.schedule.tail })
      ∨ (step s = State.hostStep { s with schedule := s.schedule.tail } ∧ (s.schedule = [] → s.busy = false))
      ∨ (Agent.resetInput ∈ s.schedule ∧ step s = .next (State.resetBlock { s with schedule := s.schedule.tail }))
      ∨ (s.busy = false ∧ step s = .next { s with schedule := s.schedule.tail }) := by
  cases hs : s.schedule with
  | nil =>
    have he : ({ s with schedule := [] } : State) = s := by rw [← hs]
    cases hb : s.busy with
    | true => exact .inl ⟨rfl, by simp [step, hs, hb, he]⟩
    | false => exact .inr (.inl ⟨by simp [step, hs, hb, he], fun _ => rfl⟩)
  | cons a rest =>
    cases a with
    | host => exact .inr (.inl ⟨by simp [step, hs], by simp⟩)
    | codec =>
      cases hb : s.busy with
      | true =>
        have : State.busy { s with schedule := rest } = true := hb
        exact .inl ⟨rfl, by simp [step, hs, State.codecTurn, this]⟩
      | false =>
        have : State.busy { s with schedule := rest } = false := hb
        exact .inr (.inr (.inr ⟨rfl, by simp [step, hs, State.codecTurn, this]⟩))
    | resetInput => exact .inr (.inr (.inl ⟨by simp, by simp [step, hs]⟩))

/-! ## A loaded input -/

/-- What has been loaded is the input, if it fits IN. -/
theorem State.withInput_input {s : State} {bs : Bytes} (h : bs.length ≤ s.cfg.inCap.toNat) :
    (s.withInput bs).input = .bytes bs := by
  have hcap := s.cfg.inCap.isLt
  have hl : (s.withInput bs).inLen.toNat = bs.length := by
    simp only [State.withInput_inLen, BitVec.toNat_ofNat]
    omega
  rw [State.input_eq_bytes, hl]
  exact ⟨h, Memory.readBytes_writeBytes_zero _ _⟩

@[simp] theorem State.withPending_input (s : State) (v : Word) : (s.withPending v).input = s.input := rfl

/-! ## Runs -/

theorem run_succ_of_step (M : Host.Core) (n : Nat) (s u : M.State) (h : M.step s = .next u) :
    M.run (n + 1) s = M.run n u := by
  simp [Host.Core.run, h]

theorem run_one_eq_step (M : Host.Core) (s : M.State) : M.run 1 s = M.step s := by
  simp only [Host.Core.run]
  cases M.step s <;> rfl

/-- A run whose first step answers a next state goes on from there. -/
theorem core_run_succ {n : Nat} {s u : State} (h : step s = .next u) :
    Sys2Proof.core.run (n + 1) s = Sys2Proof.core.run n u :=
  run_succ_of_step Sys2Proof.core n s u h

/-- A run of one step is the step. -/
theorem core_run_one (s : State) : Sys2Proof.core.run 1 s = step s := run_one_eq_step Sys2Proof.core s

end Sys2Proof.Machine
end

