-- ==== Sys2Proof/Tests/Slice0.lean ====
section
/-! SUPPORT. Tests of single steps against words and vectors written out from spec/, and one witness for the hypotheses
of each statement that has some. The source of each expected value is named beside it. -/

namespace Sys2Proof.Tests

open Sys2Proof Sys2Proof.Machine

/-! ## Small states -/

/-- A small configuration the spec allows. -/
def small : Config := { Config.recommended with inCap := 64#32, outCap := 139#32, readMax := 16 }

/-- After reset, with a byte sequence loaded into IN. -/
def loaded (bs : Bytes) : State := (State.resetWith small).withInput bs

/-- After reset, with a byte sequence loaded and a command word pending. -/
def pending (bs : Bytes) (v : Word) : State := (loaded bs).withPending v

/-- What a step left, as a test looks at it. -/
def after (r : Host.Outcome State Fault Refusal) (f : State → Bool) : Bool :=
  match r with
  | .next t => f t
  | .fault _ => false
  | .refused _ => false

/-- A step ended in this fault. -/
def faults (r : Host.Outcome State Fault Refusal) (f : Fault) : Bool :=
  match r with
  | .fault g => decide (g = f)
  | .next _ => false
  | .refused _ => false

/-- The results of a completion that succeeded: STATUS, OUT and OUT_LEN. -/
def outIs (t : State) (out : Bytes) : Bool :=
  t.status == 0#32 && t.outLen == BitVec.ofNat 32 out.length && Memory.readBytes t.outBuf 0 out.length == some out

/-- A DECODE of these bytes leaves these results, FR_PLEN_HI 0 and OUT_LEN = FR_PLEN_LO (the columns of
95_test_vectors.md section 2.1). -/
def decodesTo (bs out : Bytes) (frCtrl plen key frameLen cls : Word) : Bool :=
  after (step (pending bs 0x00000001#32)) fun t =>
    outIs t out && t.frCtrl == frCtrl && t.frPlenLo == plen && t.frPlenHi == 0#32 && t.frMaskKey == key
      && t.frFrameLen == frameLen && t.reg .classBits == cls && t.cmd == 1#32

/-- A command fails with this ERR and leaves OUT_LEN, OUT and FR_CTRL as after reset. -/
def failsWith (bs : Bytes) (v : Word) (err : BitVec 4) : Bool :=
  after (step (pending bs v)) fun t =>
    t.err == err && !t.busy && t.outLen == 0#32 && t.outBuf == [] && t.frCtrl == 0#32 && t.inLen.toNat == bs.length

/-! ## Well-formedness -/

/-- LEN7 is a 7-bit field (R84): 128 is refused, 127 accepted, in each of the sixteen headers. -/
theorem test_len7_above_127_is_ill_formed :
    ∀ n : Fin 16, (Instr.ofOpcode (BitVec.ofNat 4 n) ⟨true, false, false, false, true, 128⟩).wellFormed = false
      ∧ (Instr.ofOpcode (BitVec.ofNat 4 n) ⟨true, false, false, false, true, 127⟩).wellFormed = true := by decide

/-! ## Decoding, from words written out -/

/-- The seven command words: OP in bits 7:0, zeros above (R80, R81). -/
theorem test_decode_command_words :
    decode (.command 0b00000000000000000000000000000001#32) = .ok .decode
      ∧ decode (.command 0b00000000000000000000000000000010#32) = .ok .encodeText
      ∧ decode (.command 0b00000000000000000000000000000011#32) = .ok .genPing
      ∧ decode (.command 0b00000000000000000000000000000100#32) = .ok .genPong
      ∧ decode (.command 0b00000000000000000000000000000101#32) = .ok .genClose
      ∧ decode (.command 0b00000000000000000000000000000110#32) = .ok .hsDetect
      ∧ decode (.command 0b00000000000000000000000000000111#32) = .ok .hsCompose := by decide

/-- Vectors C-1, C-2, C-3 and C-4: words that are no command. -/
theorem test_illegal_words :
    decode (.command 0x00000000#32) = .error .illegalCommand ∧ decode (.command 0x00000008#32) = .error .illegalCommand
      ∧ decode (.command 0x00000101#32) = .error .illegalCommand
      ∧ decode (.command 0x000000FF#32) = .error .illegalCommand := by decide

/-- Headers of opcodes 0x0 to 0x7, by the pattern FABCOOOO MLLLLLLL of R84. -/
theorem test_decode_header_words_low :
    decode (.header 0b1000000000000000#16) = .ok (.wsContinuation ⟨true, false, false, false, false, 0⟩)
      ∧ decode (.header 0b1000000110000101#16) = .ok (.wsText ⟨true, false, false, false, true, 5⟩)
      ∧ decode (.header 0b0100001001111101#16) = .ok (.wsBinary ⟨false, true, false, false, false, 125⟩)
      ∧ decode (.header 0b0010001101111110#16) = .ok (.wsOpcode3 ⟨false, false, true, false, false, 126⟩)
      ∧ decode (.header 0b0001010001111111#16) = .ok (.wsOpcode4 ⟨false, false, false, true, false, 127⟩)
      ∧ decode (.header 0b1111010110000001#16) = .ok (.wsOpcode5 ⟨true, true, true, true, true, 1⟩)
      ∧ decode (.header 0b0000011010000000#16) = .ok (.wsOpcode6 ⟨false, false, false, false, true, 0⟩)
      ∧ decode (.header 0b1010011101000000#16) = .ok (.wsOpcode7 ⟨true, false, true, false, false, 64⟩) := by decide

/-- Headers of opcodes 0x8 to 0xF. -/
theorem test_decode_header_words_high :
    decode (.header 0b1000100010000000#16) = .ok (.wsClose ⟨true, false, false, false, true, 0⟩)
      ∧ decode (.header 0b1000100100000000#16) = .ok (.wsPing ⟨true, false, false, false, false, 0⟩)
      ∧ decode (.header 0b0101101000000010#16) = .ok (.wsPong ⟨false, true, false, true, false, 2⟩)
      ∧ decode (.header 0b1100101100000100#16) = .ok (.wsOpcodeB ⟨true, true, false, false, false, 4⟩)
      ∧ decode (.header 0b0011110000001000#16) = .ok (.wsOpcodeC ⟨false, false, true, true, false, 8⟩)
      ∧ decode (.header 0b1001110110010000#16) = .ok (.wsOpcodeD ⟨true, false, false, true, true, 16⟩)
      ∧ decode (.header 0b0110111000100000#16) = .ok (.wsOpcodeE ⟨false, true, true, false, false, 32⟩)
      ∧ decode (.header 0b1000111101111110#16) = .ok (.wsOpcodeF ⟨true, false, false, false, false, 126⟩) := by decide

/-- Rows of spec/opcode_table.json with don't-care bits zero, and a word too wide for its row. -/
theorem test_decode_table_words :
    decodeTableWord 32 0x00000007 = some .hsCompose ∧ decodeTableWord 32 0x00000008 = none
      ∧ decodeTableWord 16 0x0900 = some (.wsPing ⟨false, false, false, false, false, 0⟩)
      ∧ decodeTableWord 16 0x10900 = none := by decide

/-- No two rows of the opcode table accept the same code: their patterns differ under both masks. -/
theorem test_table_rows_do_not_overlap :
    opcodeTable.Pairwise fun r q =>
      r.width ≠ q.width ∨ r.pattern &&& (r.mask &&& q.mask) ≠ q.pattern &&& (r.mask &&& q.mask) := by decide

/-! ## The seven commands -/

/-- Vector D-13: a mask key cut short is TRUNC_HEADER. -/
theorem test_decode_truncated_key : failsWith [0x81, 0x82, 0xAA, 0xBB, 0xCC] 0x00000001#32 1#4 = true := by decide

/-- Vector D-7: bit 63 of the length set is LEN_RANGE, although the mask key is missing too. -/
theorem test_decode_length_range :
    failsWith [0x81, 0xFF, 0x80, 0, 0, 0, 0, 0, 0, 0] 0x00000001#32 3#4 = true := by decide

/-- Vector E-8: the dispatcher's reply. -/
theorem test_encode_ok :
    (after (step (pending [0x4F, 0x4B] 0x00000002#32)) fun t =>
      outIs t [0x81, 0x02, 0x4F, 0x4B] && t.frCtrl == 0#32) = true := by decide

/-- The headers of vectors E-4, E-6 and E-7 (S-5, R177). -/
theorem test_encode_headers :
    textHeader 126 = [0x81, 0x7E, 0x00, 0x7E] ∧ textHeader 65535 = [0x81, 0x7E, 0xFF, 0xFF]
      ∧ textHeader 65536 = [0x81, 0x7F, 0x00, 0x00, 0x00, 0x00, 0x00, 0x01, 0x00, 0x00] := by decide

/-- Vector G-1: GEN_PING with IN unwritten and IN_LEN = 0xFFFF_FFFF. -/
theorem test_ping_reads_no_input :
    (after (step (State.withPending { State.resetWith small with inLen := 0xFFFFFFFF#32 } 0x00000003#32)) fun t =>
      outIs t [0x89, 0x00]) = true := by decide

/-- Vector G-2: GEN_PONG. -/
theorem test_pong : (after (step (pending [] 0x00000004#32)) fun t => outIs t [0x8A, 0x00]) = true := by decide

/-- Vector G-3: GEN_CLOSE after a DECODE leaves FR_CTRL and CLASS. -/
theorem test_close_keeps_the_frame :
    (after (step (State.withPending { loaded [] with frCtrl := 0x00068189#32 } 0x00000005#32)) fun t =>
      outIs t [0x88, 0x00] && t.frCtrl == 0x00068189#32 && t.reg .classBits == 4#32) = true := by decide

/-- Vectors HD-2 and HD-6: the prefix alone, and its case. -/
theorem test_detect_get :
    (after (step (pending (ascii ['G', 'E', 'T', 'X']) 0x00000006#32)) fun t =>
      t.result == 1#32 && t.status == 0#32 && t.outLen == 0#32) = true
      ∧ detect false (ascii ['g', 'e', 't', ' ', '/']) = false
      ∧ detect true (ascii ['g', 'e', 't', ' ', '/']) = true := by decide

/-- Vectors HD-4 and HD-7: too short, and no leading space. -/
theorem test_detect_none :
    (after (step (State.withPending { loaded (ascii ['G', 'E']) with result := 1#32 } 0x00000006#32)) fun t =>
      t.result == 0#32 && t.status == 0#32) = true
      ∧ detect false (ascii [' ', 'G', 'E', 'T']) = false := by decide

/-- Vector HS-9: no space after the colon is no key line. -/
theorem test_compose_no_key :
    failsWith (ascii ['S', 'e', 'c', '-', 'W', 'e', 'b', 'S', 'o', 'c', 'k', 'e', 't', '-', 'K', 'e', 'y', ':', 'a', 'b',
      'c', '\r', '\n']) 0x00000007#32 5#4 = true := by decide

/-- Vectors HS-2 and HS-5 (R205, R206): the trimmed key of a later line, and an empty key; HS-7: not at a line start. -/
theorem test_handshake_key :
    handshakeKey (ascii ['H', ':', '\r', '\n'] ++ keyPrefix ++ ascii [' ', ' ', 'v', ' ', ' ', '\r', '\n'])
        = some (ascii ['v'])
      ∧ handshakeKey (keyPrefix ++ ascii ['\r', '\n']) = some []
      ∧ handshakeKey (ascii ['X', '-'] ++ keyPrefix ++ ascii ['a']) = none := by decide

set_option maxRecDepth 100000 in
/-- Vector S-2: the response with the vector's accept value is the 129 bytes listed. -/
theorem test_source_response : response vectorAccept = sourceResponse ∧ sourceResponse.length = 129 := by decide

set_option maxRecDepth 100000 in
/-- SHA-1 and Base64 as External.lean writes them meet P-VEC (R11, S-2). -/
theorem test_reference_functions_meet_pvec : PVec sha1Digest fun d => base64Encode d.toList := by
  unfold PVec
  decide

set_option maxRecDepth 100000 in
/-- R251: the accepted text has the four fields of the grammar, so the named property can be met. -/
theorem test_validate_property_is_met : PValidate fun t => t == acceptedText :=
  ⟨by decide, fun t h => by
    rw [beq_eq_false_iff_ne]
    rintro rfl
    exact absurd h (by decide)⟩

/-- R251's rejection classes: a field too few, a non-numeric field, a quote, a comment, surrounding whitespace. -/
theorem test_no_record_texts :
    isRecordText (ascii ['1', ',', '2', ',', '3']) = false
      ∧ isRecordText (ascii ['1', ',', '2', ',', 'x', '1', ',', '4']) = false
      ∧ isRecordText (ascii ['1', ',', '2', ',', '3', ',', '4', '\'']) = false
      ∧ isRecordText (ascii ['1', ',', '2', ',', '3', ',', '4', '-', '-']) = false
      ∧ isRecordText (ascii [' ', '1', ',', '2', ',', '3', ',', '4']) = false
      ∧ isRecordText (ascii ['1', ',', '2', ',', '-', '3', '.', '5', ',', '4']) = true := by decide

/-! ## The sixteen wire headers: one frame each, from the vectors and S-4 -/

/-- S-4 with op = 0x0. -/
theorem test_continuation_frame : decodesTo [0x80, 0x00] [] 0x00020080#32 0#32 0#32 2#32 0#32 = true := by decide

/-- Vector D-4, the masked Hello. -/
theorem test_text_frame :
    decodesTo [0x81, 0x85, 0x37, 0xFA, 0x21, 0x3D, 0x7F, 0x9F, 0x4D, 0x51, 0x58] [0x48, 0x65, 0x6C, 0x6C, 0x6F]
      0x00068581#32 5#32 0x37FA213D#32 11#32 1#32 = true := by decide

/-- Vector D-23: 64-bit length and mask, HDRLEN = 14. -/
theorem test_text_frame_long_form :
    decodesTo [0x81, 0xFF, 0, 0, 0, 0, 0, 0, 0, 2, 0x10, 0x20, 0x30, 0x40, 0x51, 0x62] [0x41, 0x42]
      0x000EFF81#32 2#32 0x10203040#32 16#32 1#32 = true := by decide

/-- Vector D-6: a 64-bit length that is not minimal, opcode binary. -/
theorem test_binary_frame :
    decodesTo [0x82, 0x7F, 0, 0, 0, 0, 0, 0, 0, 3, 0xAA, 0xBB, 0xCC] [0xAA, 0xBB, 0xCC]
      0x000A7F82#32 3#32 0#32 13#32 0#32 = true := by decide

/-- S-4 with op = 0x3 to 0x7. -/
theorem test_opcode3_frame : decodesTo [0x83, 0x00] [] 0x00020083#32 0#32 0#32 2#32 0#32 = true := by decide
theorem test_opcode4_frame : decodesTo [0x84, 0x00] [] 0x00020084#32 0#32 0#32 2#32 0#32 = true := by decide
theorem test_opcode5_frame : decodesTo [0x85, 0x00] [] 0x00020085#32 0#32 0#32 2#32 0#32 = true := by decide
theorem test_opcode6_frame : decodesTo [0x86, 0x00] [] 0x00020086#32 0#32 0#32 2#32 0#32 = true := by decide
theorem test_opcode7_frame : decodesTo [0x87, 0x00] [] 0x00020087#32 0#32 0#32 2#32 0#32 = true := by decide

/-- Vector D-18: a masked empty close, its key captured. -/
theorem test_close_frame :
    decodesTo [0x88, 0x80, 0xAA, 0xBB, 0xCC, 0xDD] [] 0x00068088#32 0#32 0xAABBCCDD#32 6#32 2#32 = true := by decide

/-- Vector D-15: bytes after the frame are ignored; D-21: a ping with a payload. -/
theorem test_ping_frame : decodesTo [0x89, 0x00, 0x8A, 0x00] [] 0x00020089#32 0#32 0#32 2#32 4#32 = true := by decide
theorem test_ping_frame_with_payload :
    decodesTo [0x89, 0x81, 0xFF, 0xFF, 0xFF, 0xFF, 0x00] [0xFF] 0x00068189#32 1#32 0xFFFFFFFF#32 7#32 4#32 = true := by
  decide

/-- S-4 with op = 0xA to 0xF. -/
theorem test_pong_frame : decodesTo [0x8A, 0x00] [] 0x0002008A#32 0#32 0#32 2#32 8#32 = true := by decide
theorem test_opcodeB_frame : decodesTo [0x8B, 0x00] [] 0x0002008B#32 0#32 0#32 2#32 0#32 = true := by decide
theorem test_opcodeC_frame : decodesTo [0x8C, 0x00] [] 0x0002008C#32 0#32 0#32 2#32 0#32 = true := by decide
theorem test_opcodeD_frame : decodesTo [0x8D, 0x00] [] 0x0002008D#32 0#32 0#32 2#32 0#32 = true := by decide
theorem test_opcodeE_frame : decodesTo [0x8E, 0x00] [] 0x0002008E#32 0#32 0#32 2#32 0#32 = true := by decide

/-- Vector D-22's form on a reserved control opcode (R138): 16-bit length plus mask, HDRLEN = 8. -/
theorem test_opcodeF_frame :
    decodesTo [0x8F, 0xFE, 0x00, 0x06, 0x01, 0x02, 0x03, 0x04, 0x61, 0x62, 0x63, 0x64, 0x65, 0x66]
      [0x60, 0x60, 0x60, 0x60, 0x64, 0x64] 0x0008FE8F#32 6#32 0x01020304#32 14#32 0#32 = true := by decide

/-! ## The command protocol and the host's accesses -/

/-- Vector C-4: an illegal word reads no IN. -/
theorem test_illegal_word_reads_no_input :
    (after (step (State.withPending { State.resetWith small with inLen := 5#32 } 0x000000FF#32)) fun t =>
      t.status == 0x60#32) = true := by decide

/-- Vector C-6: the whole input is read, past the end of the frame. -/
theorem test_unwritten_trailing_byte :
    faults (step (State.withPending { loaded [0x81, 0x00] with inLen := 3#32 } 0x00000001#32)) .unwrittenInput
      = true := by decide

/-- Vector C-7: IN_LEN above IN_CAP. -/
theorem test_in_len_range :
    (after (step (State.withPending { loaded [] with inLen := 65#32 } 0x00000007#32)) fun t => t.status == 0x70#32)
      = true := by decide

/-- Vectors F-1 to F-4: what faults while BUSY = 1; F-5: STATUS may be read. -/
theorem test_busy_accesses :
    ((pending [0x81, 0x00] 1#32).access (.regWrite 4 0x00 1#32)).toOption = none
      ∧ (pending [0x81, 0x00] 1#32).inWrite 0 0#8 = .error .writeWhileBusy
      ∧ (pending [0x81, 0x00] 1#32).regWrite 4 0x08 0#32 = .error .writeWhileBusy
      ∧ (pending [0x81, 0x00] 1#32).regRead 4 0x0C = .error .readWhileBusy
      ∧ (pending [0x81, 0x00] 1#32).regRead 4 0x04 = .ok 1#32 := by decide

/-- Vectors F-6 to F-11. -/
theorem test_forbidden_accesses :
    (loaded []).outRead 0 = .error .unwrittenOutput ∧ (loaded []).regRead 4 0x34 = .error .badRegAccess
      ∧ (loaded []).regRead 2 0x05 = .error .badRegAccess
      ∧ (loaded []).regWrite 4 0x10 0#32 = .error .writeReadOnly ∧ (loaded []).regWrite 4 0x2C 0#32 = .error .writeReadOnly
      ∧ (loaded []).inWrite 64 0#8 = .error .badBufferIndex ∧ (loaded []).outRead 139 = .error .badBufferIndex := by decide

/-- Vector R-2: reset discards a pending command. -/
theorem test_reset_discards_the_command :
    (after (step { pending [0x81, 0x00] 1#32 with schedule := [.resetInput] }) fun t =>
      t.status == 0#32 && t.cmd == 0#32 && t.inBuf == [] && t.cfg == small) = true := by decide

/-- Vector H-3's step after the failed DECODE, and H-8's after a frame with no predicate. -/
theorem test_host_decisions :
    (after ({ loaded [] with status := 0x20#32, host := { HostSide.initial with conn := .opened, phase := .decoded } }
        : State).hostStep fun t => t.host.phase == .read && t.host.conn == .opened && t.host.sent == []) = true
      ∧ (after ({ loaded [] with
          cfg := { small with unhandledOpcode := .close }, frCtrl := 0x000A7F82#32
          host := { HostSide.initial with conn := .opened, phase := .classify } } : State).hostStep fun t =>
            t.host.phase == .closed && t.host.conn == .closed) = true := by decide

/-- Vector H-4 under ACCUMULATE: the second read joins Q, and D-3's whole frame is loaded. -/
theorem test_host_accumulates :
    (after ({ loaded [] with
        cfg := { small with reassembly := .accumulate }
        host := { HostSide.initial with
          conn := .opened, queue := [0x81, 0x85, 0x01, 0x02]
          inbox := [.bytes [0x03, 0x04, 0x01, 0x02, 0x03, 0x04, 0x05]] } } : State).hostStep fun t =>
      t.host.queue == [0x81, 0x85, 0x01, 0x02, 0x03, 0x04, 0x01, 0x02, 0x03, 0x04, 0x05]
        && t.host.script == loadOps t.host.queue ++ runOps 1#8 && t.host.phase == .decoded) = true := by decide

/-- R248: the reply of an ENCODE_TEXT that overflowed OUT is not written; one that succeeded is read out. -/
theorem test_failed_reply_is_not_used :
    (after ({ loaded [] with status := 0x80#32, host := { HostSide.initial with conn := .opened, phase := .ran .reply } }
        : State).hostStep fun t => t.host.conn == .closed && t.host.sent == []) = true
      ∧ (after ({ loaded [] with host := { HostSide.initial with conn := .opened, phase := .ran .reply } }
        : State).hostStep fun t => t.host.phase == .outLength .reply) = true := by decide

/-! ## Witnesses: states and operands that meet the hypotheses of each statement, at the ends of their ranges -/

/-- A configuration at the lower bound of R8 for OUT, with IN_CAP + 10 = OUT_CAP left to the larger one. -/
def tight : Config := { small with outCap := 2#32 }

/-- DecodeOfEncode: a command, and a header with LEN7 at both ends. -/
theorem wit_DecodeOfEncode :
    Instr.decode.wellFormed = true ∧ (Instr.wsText ⟨true, true, true, true, true, 127⟩).wellFormed = true
      ∧ (Instr.wsOpcodeF ⟨false, false, false, false, false, 0⟩).wellFormed = true := by decide

/-- EncodeOfDecode, OneTableRowAcceptsACode: codes of both kinds, the last command and the last header; a row each. -/
theorem wit_EncodeOfDecode :
    decode (.command 7#32) = .ok .hsCompose
      ∧ decode (.header 0xFFFF#16) = .ok (.wsOpcodeF ⟨true, true, true, true, true, 127⟩) := by decide
theorem wit_OneTableRowAcceptsACode :
    decode (.header 0x0000#16) = .ok (.wsContinuation ⟨false, false, false, false, false, 0⟩)
      ∧ opcodeTable[7]? = some ⟨16, 0x0F00, 0x0000⟩ ∧ opcodeTable[22]? = some ⟨16, 0x0F00, 0x0F00⟩ := by decide

/-- StepRunsTheFetchedInstruction: both schedules. -/
theorem wit_StepRunsTheFetchedInstruction :
    (pending [0x81, 0x00] 1#32).busy = true ∧ (pending [0x81, 0x00] 1#32).schedule = []
      ∧ (pending [0x81, 0x00] 1#32).fetch = .ok (.wsText ⟨true, false, false, false, false, 0⟩)
      ∧ ({ pending [] 3#32 with schedule := [.codec] } : State).busy = true
      ∧ ({ pending [] 3#32 with schedule := [.codec] } : State).fetch = .ok .genPing := by decide

/-- FetchReadsTheCommandThenTheHeader: another command; DECODE with two bytes; DECODE with one. -/
theorem wit_FetchReadsTheCommandThenTheHeader :
    decode (.command (pending [] 2#32).cmd) = .ok .encodeText ∧ Instr.encodeText ≠ .decode
      ∧ decode (.command (pending [0x81, 0x00] 1#32).cmd) = .ok .decode
      ∧ (pending [0x81, 0x00] 1#32).input = .bytes [0x81, 0x00] ∧ (pending [0x81] 1#32).input = .bytes [0x81] := by decide

theorem wit_DecodeWordRunsDecode :
    (pending [0x89, 0x00] 1#32).busy = true ∧ (pending [0x89, 0x00] 1#32).cmd = 1#32
      ∧ (pending [0x89, 0x00] 1#32).schedule = [] := by decide

/-- IllegalWordChangesOnlyStatus: 0, the first word past the table, a nonzero RSVD. -/
theorem wit_IllegalWordChangesOnlyStatus :
    ∀ v ∈ [0#32, 8#32, 0x101#32], decodeCmd (pending [] v).cmd = .error .illegalCommand
      ∧ (pending [] v).busy = true ∧ (pending [] v).schedule = [] := by
  simp only [List.forall_mem_cons]
  refine ⟨?_, ?_, ?_, fun _ h => absurd h List.not_mem_nil⟩ <;> decide

/-- FailedCommandChangesOnlyStatus: a failed DECODE, and an illegal word. -/
theorem wit_FailedCommandChangesOnlyStatus :
    (∃ t, exec .decode (pending [] 1#32) = .next t ∧ t.err ≠ 0#4)
      ∧ ∃ t, (pending [] 0#32).complete = .next t ∧ t.err ≠ 0#4 :=
  ⟨⟨_, rfl, by decide⟩, ⟨_, rfl, by decide⟩⟩

/-- CompletionKeepsItsInputs, UnlistedResultsAreKept: one completion of each shape. -/
theorem wit_CompletionKeepsItsInputs : ∃ t, exec .hsDetect (pending [0x47, 0x45, 0x54] 6#32) = .next t := ⟨_, rfl⟩
theorem wit_UnlistedResultsAreKept :
    (∃ t, exec .encodeText (pending [0x4F] 2#32) = .next t) ∧ (∃ t, exec .hsDetect (pending [] 6#32) = .next t)
      ∧ Instr.decode.isDecode = true ∧ ∃ t, exec .decode (pending [0x81, 0x00] 1#32) = .next t :=
  ⟨⟨_, rfl⟩, ⟨_, rfl⟩, rfl, ⟨_, rfl⟩⟩

/-- InLenAboveCapacityFails: one above IN_CAP, and a generator. -/
theorem wit_InLenAboveCapacityFails :
    Instr.decode.readsInput = true ∧ small.inCap.toNat < ({ loaded [] with inLen := 65#32 } : State).inLen.toNat
      ∧ Instr.genClose.readsInput = false ∧ ∃ t, exec .genClose { loaded [] with inLen := 65#32 } = .next t :=
  ⟨rfl, by decide, rfl, ⟨_, rfl⟩⟩

/-- UnwrittenInputByteFaults: IN_LEN at IN_CAP = 2, the last byte unwritten or every byte written. -/
theorem wit_UnwrittenInputByteFaults :
    let full : State := { loaded [7, 8] with cfg := { small with inCap := 2#32 } }
    let gap : State := { full with inBuf := [(0, 7)] }
    Instr.decode.readsInput = true ∧ Memory.wf gap.inBuf = true ∧ gap.inLen.toNat = gap.cfg.inCap.toNat
      ∧ 1 < gap.inLen.toNat ∧ Memory.read gap.inBuf 1 = none
      ∧ Memory.wf full.inBuf = true ∧ full.inLen.toNat = full.cfg.inCap.toNat
      ∧ ∀ a < full.inLen.toNat, Memory.read full.inBuf a ≠ none := by decide

/-- OutputAboveCapacityFails: an output one byte too long; a generator at OUT_CAP = 2; DECODE at OUT_CAP = IN_CAP + 10. -/
theorem wit_OutputAboveCapacityFails :
    ((State.resetWith tight).withInput [0x41]).input = .bytes [0x41]
      ∧ Instr.encodeText.perform tight [0x41] = .ok ⟨some [0x81, 0x01, 0x41], none, none⟩ ∧ tight.outCap.toNat < 3
      ∧ Instr.genPing.readsInput = false ∧ 2 ≤ tight.outCap.toNat
      ∧ Instr.decode.isDecode = true ∧ ({ small with outCap := 74#32 } : Config).inCap.toNat + 10 ≤ 74 :=
  ⟨by decide, by rfl, by decide, rfl, by decide, rfl, by decide⟩

/-- OutcomeIsAFunctionOfTheInput: the same input in two states that differ in RESULT and FR_CTRL. -/
theorem wit_OutcomeIsAFunctionOfTheInput :
    (loaded [0x81, 0x00]).cfg = ({ loaded [0x81, 0x00] with result := 1#32, frCtrl := 5#32 } : State).cfg
      ∧ (loaded [0x81, 0x00]).input = ({ loaded [0x81, 0x00] with result := 1#32, frCtrl := 5#32 } : State).input := by
  decide

/-- OutputBeyondItsLengthIsKept: at OUT_LEN; HS_DETECT; a failure. -/
theorem wit_OutputBeyondItsLengthIsKept :
    (∃ t, exec .genPing (loaded []) = .next t ∧ t.outLen.toNat ≤ 2) ∧ (∃ t, exec .hsDetect (loaded []) = .next t)
      ∧ ∃ t, exec .decode (loaded []) = .next t ∧ t.err ≠ 0#4 :=
  ⟨⟨_, rfl, by decide⟩, ⟨_, rfl⟩, ⟨_, rfl, by decide⟩⟩

/-- A state whose input is this sequence, in the recommended configuration. -/
theorem recommended_input {bs : Bytes} (h : bs.length ≤ 65546) : (State.reset.withInput bs).input = .bytes bs :=
  State.withInput_input (by simpa [State.reset, State.resetWith, Config.recommended] using h)

theorem wireFrame_length (op : BitVec 4) (h : WireHeader) (f : LenForm) (k : MaskKey) (w : Bytes) :
    (wireFrame op h f k w).length = f.hdrLen h.masked + w.length := by
  cases f <;> cases hm : h.masked <;>
    simp [wireFrame, LenForm.hdrLen, LenForm.ext, LenForm.extension, keyBytes, MaskKey.bytes, hm] <;> omega

/-- DecodeOfAFrameCompletes and WireHeadersComplete: the short form at 125, masked, bytes after the frame. -/
theorem wit_DecodeOfAFrameCompletes_short :
    let h : WireHeader := ⟨true, false, false, false, true, 125⟩
    let w : Bytes := List.replicate 125 7#8
    h.len7 = LenForm.len7 .short w.length ∧ LenForm.carries .short w.length
      ∧ (State.reset.withInput (wireFrame 1#4 h .short ⟨1, 2, 3, 4⟩ w ++ [0, 0])).input
          = .bytes (wireFrame 1#4 h .short ⟨1, 2, 3, 4⟩ w ++ [0, 0])
      ∧ w.length ≤ State.reset.cfg.outCap.toNat := by
  refine ⟨by simp [LenForm.len7], by simp [LenForm.carries], recommended_input ?_, ?_⟩
  · rw [List.length_append, wireFrame_length]
    simp [LenForm.hdrLen, LenForm.ext]
  · simp [State.reset, State.resetWith, Config.recommended]

/-- The 16-bit form at both ends: 0 and 65535 bytes, on a ping with FIN = 0 and the RSV bits set. -/
theorem wit_DecodeOfAFrameCompletes_mid :
    let h : WireHeader := ⟨false, true, true, true, true, 126⟩
    ∀ n, n = 0 ∨ n = 65535 → h.len7 = LenForm.len7 .mid n ∧ LenForm.carries .mid n
      ∧ (State.reset.withInput (wireFrame 9#4 h .mid ⟨0, 0, 0, 0⟩ (List.replicate n 7#8) ++ [])).input
          = .bytes (wireFrame 9#4 h .mid ⟨0, 0, 0, 0⟩ (List.replicate n 7#8) ++ [])
      ∧ (List.replicate n (7#8 : Byte)).length ≤ State.reset.cfg.outCap.toNat := by
  intro h n hn
  refine ⟨rfl, by simp [LenForm.carries]; omega, recommended_input ?_, ?_⟩
  · rw [List.length_append, wireFrame_length]
    simp [LenForm.hdrLen, LenForm.ext, h]
    omega
  · simp [State.reset, State.resetWith, Config.recommended]
    omega

/-- The 64-bit form: a payload that fills OUT, under a DECODE of an unmasked reserved opcode. -/
theorem wit_DecodeOfAFrameCompletes_long :
    let h : WireHeader := ⟨true, false, false, false, false, 127⟩
    let s : State := { State.reset with cfg := { Config.recommended with outCap := 3#32 } }
    let w : Bytes := [7, 8, 9]
    h.len7 = LenForm.len7 .long w.length ∧ LenForm.carries .long w.length
      ∧ (s.withInput (wireFrame 0xF#4 h .long ⟨0, 0, 0, 0⟩ w ++ [])).input
          = .bytes (wireFrame 0xF#4 h .long ⟨0, 0, 0, 0⟩ w ++ []) ∧ w.length = s.cfg.outCap.toNat :=
  ⟨rfl, by simp [LenForm.carries], by decide, by decide⟩

/-- DecodeErrorsInOrder: each error of R152, and a frame with none that fits OUT exactly or is one byte too long. -/
theorem wit_DecodeErrorsInOrder :
    firstDecodeError [] = some .truncHeader ∧ firstDecodeError [0x81, 0x7E, 0] = some .truncHeader
      ∧ firstDecodeError [0x81, 0xFF, 0x80, 0, 0, 0, 0, 0, 0, 0] = some .lenRange
      ∧ firstDecodeError [0x81, 0x80, 1, 2, 3] = some .truncHeader
      ∧ firstDecodeError [0x81, 0x01] = some .truncPayload
      ∧ firstDecodeError [0x81, 0x03, 1, 2, 3] = none ∧ wireLength (len7Of [0x81, 0x03, 1, 2, 3]) [0x81, 0x03, 1, 2, 3] = 3
      ∧ firstDecodeError [0x81, 0x02, 1, 2] = none ∧ wireLength (len7Of [0x81, 0x02, 1, 2]) [0x81, 0x02, 1, 2] = 2
      ∧ tight.outCap.toNat = 2 ∧ ((State.resetWith tight).withInput [0x81, 0x02, 1, 2]).input = .bytes [0x81, 0x02, 1, 2]
      ∧ (loaded [0x81, 0xFF, 0x80, 0, 0, 0, 0, 0, 0, 0]).input = .bytes [0x81, 0xFF, 0x80, 0, 0, 0, 0, 0, 0, 0] := by decide

/-- HeaderLengthFollowsByteOne, DecodedLengthsAgree. -/
theorem wit_HeaderLengthFollowsByteOne :
    Instr.decode.isDecode = true ∧ ∃ t, exec .decode (loaded [0x81, 0xFE, 0, 0, 1, 2, 3, 4]) = .next t ∧ t.err = 0#4 :=
  ⟨rfl, _, rfl, by decide⟩
theorem wit_DecodedLengthsAgree :
    (Instr.wsPing ⟨true, false, false, false, false, 1⟩).isDecode = true
      ∧ ∃ t, exec (.wsPing ⟨true, false, false, false, false, 1⟩) (loaded [0x89, 0x01, 5]) = .next t ∧ t.err = 0#4 :=
  ⟨rfl, _, rfl, by decide⟩

/-- EncodeTextCompletes: a payload of MAX_ENCODE_LEN bytes whose frame fills OUT. -/
theorem wit_EncodeTextCompletes :
    let s : State := { State.reset with cfg := { Config.recommended with maxEncodeLen := 65536, outCap := 65546#32 } }
    let p : Bytes := List.replicate 65536 7#8
    (s.withInput p).input = .bytes p ∧ p.length = s.cfg.maxEncodeLen
      ∧ (minimalHeader p.length).length + p.length = s.cfg.outCap.toNat := by
  refine ⟨State.withInput_input ?_, ?_, ?_⟩ <;> rw [List.length_replicate]
  · decide
  · decide

/-- TooLongPayloadIsSizeLimit (as vector E-10, on a smaller limit): one byte above MAX_ENCODE_LEN, and the completion with SIZE_LIMIT. -/
theorem wit_TooLongPayloadIsSizeLimit :
    let s : State := { loaded [1, 2] with cfg := { small with maxEncodeLen := 1 } }
    s.input = .bytes [1, 2] ∧ s.cfg.maxEncodeLen < 2 ∧ ∃ t, exec .encodeText s = .next t ∧ t.err = 4#4 :=
  ⟨by decide, by decide, _, rfl, by decide⟩

/-- EncodeThenDecodeRoundTrip, with an empty payload and with `OK`. -/
theorem wit_EncodeThenDecodeRoundTrip :
    (loaded [0x4F, 0x4B]).input = .bytes [0x4F, 0x4B]
      ∧ (∃ t, exec .encodeText (loaded [0x4F, 0x4B]) = .next t ∧ t.err = 0#4
          ∧ Memory.readBytes t.outBuf 0 t.outLen.toNat = some [0x81, 0x02, 0x4F, 0x4B])
      ∧ (loaded [0x81, 0x02, 0x4F, 0x4B]).input = .bytes [0x81, 0x02, 0x4F, 0x4B] ∧ 2 ≤ small.outCap.toNat :=
  ⟨by decide, ⟨_, rfl, by decide, by decide⟩, by decide, by decide⟩

/-- EncodedHeaderLengthIsMonotone: 125 and 126 bytes. -/
theorem wit_EncodedHeaderLengthIsMonotone :
    ∀ n, n = 125 ∨ n = 126 → (State.reset.withInput (List.replicate n 7#8)).input = .bytes (List.replicate n 7#8)
      ∧ ∃ t, exec .encodeText (State.reset.withInput (List.replicate n 7#8)) = .next t := by
  intro n hn
  have h : (State.reset.withInput (List.replicate n 7#8)).input = .bytes (List.replicate n 7#8) :=
    recommended_input (by simp; omega)
  exact ⟨h, _, State.completeReading_bytes h _⟩

theorem wit_GeneratorsComplete : 2 ≤ (State.resetWith tight).cfg.outCap.toNat := by decide

/-- DetectCompletes: both answers, at three and two bytes. -/
theorem wit_DetectCompletes :
    (loaded [0x47, 0x45, 0x54]).input = .bytes [0x47, 0x45, 0x54] ∧ BeginsWithGet false [0x47, 0x45, 0x54]
      ∧ (loaded [0x47, 0x45]).input = .bytes [0x47, 0x45] ∧ ¬ BeginsWithGet false [0x47, 0x45]
      ∧ BeginsWithGet true [0x67, 0x45, 0x74] := by
  refine ⟨by decide, ?_, by decide, ?_, ?_⟩ <;> simp [BeginsWithGet]

/-- KeyIsTakenFromTheFirstMatchingLine: a line that ends at an LF and one that ends with the input, an empty value. -/
theorem wit_KeyIsTakenFromTheFirstMatchingLine :
    IsKeyLine (keyPrefix ++ [0x61, 0x0A, 0x62]) 0 ∧ (keyPrefix ++ [0x61, 0x0A, 0x62])[20]? = some (0x0A#8)
      ∧ (keyPrefix ++ [0x61, 0x0A, 0x62])[19]? ≠ some (0x0A#8)
      ∧ IsKeyLine ([0x0A] ++ keyPrefix) 1 ∧ ¬ IsKeyLine ([0x0A] ++ keyPrefix) 0
      ∧ 1 + 19 = ([0x0A] ++ keyPrefix).length := by
  unfold IsKeyLine
  decide

theorem wit_ComposeCompletes :
    (loaded (keyPrefix ++ [0x61])).input = .bytes (keyPrefix ++ [0x61])
      ∧ handshakeKey (keyPrefix ++ [0x61]) = some [0x61] := by decide

/-- ComposeWithoutAKeyLineFails: one byte short of the header prefix. -/
theorem wit_ComposeWithoutAKeyLineFails :
    (loaded (keyPrefix.take 18)).input = .bytes (keyPrefix.take 18) ∧ ∀ p, ¬ IsKeyLine (keyPrefix.take 18) p := by
  refine ⟨by decide, fun p h => ?_⟩
  have := h.2.2.1
  have hl : (keyPrefix.take 18).length = 18 := by decide
  omega

theorem wit_ResponseLength : PB64 fun d => base64Encode d.toList := fun _ => rfl

/-- SourceVectorComposes: functions that meet P-VEC (the test above), and a request with the vector's key. -/
theorem wit_SourceVectorComposes :
    (PVec sha1Digest fun d => base64Encode d.toList) ∧ handshakeKey (keyPrefix ++ vectorKey) = some vectorKey :=
  ⟨test_reference_functions_meet_pvec, by decide⟩

/-- ForbiddenAccessesFault: each clause at its first value. -/
theorem wit_ForbiddenAccessesFault :
    ((2 : Nat) ≠ 4) ∧ 0x05 % 4 ≠ 0 ∧ 0x30 < 0x34 ∧ (0x30 % 4 = 0 ∧ 0x30 ≤ 0x30 ∧ 0x30 ≠ 0x00 ∧ 0x30 ≠ 0x08)
      ∧ (0x04 % 4 = 0 ∧ 0x04 ≤ 0x30 ∧ 0x04 ≠ 0x00 ∧ 0x04 ≠ 0x08) ∧ small.inCap.toNat ≤ 64 ∧ small.outCap.toNat ≤ 139 := by
  decide

theorem wit_RegisterMapReads : (loaded [0x81]).busy = false := by decide
theorem wit_IssueSetsCmdAndBusy : (loaded []).busy = false ∧ (pending [] 1#32).busy = true := by decide
theorem wit_ReadsWhileBusy : (pending [] 1#32).busy = true ∧ 63 < small.inCap.toNat ∧ 138 < small.outCap.toNat := by decide

/-- InputIsFixedWhileBusy: a host that polls. -/
theorem wit_InputIsFixedWhileBusy :
    let s : State := { pending [] 1#32 with host := { HostSide.initial with script := [.wait] } }
    s.busy = true ∧ 63 < s.cfg.inCap.toNat ∧ ∃ t, s.hostStep = .next t :=
  ⟨by decide, by decide, _, rfl⟩

/-- HostReadsHaveNoSideEffect: a register, the first byte of IN, the last of OUT. -/
theorem wit_HostReadsHaveNoSideEffect :
    (∃ t, (loaded [5]).access (.regRead 4 0x24) = .ok t) ∧ (∃ t, (loaded [5]).access (.inRead 0) = .ok t)
      ∧ ∃ t, ({ loaded [] with outBuf := [(138, 7)] } : State).access (.outRead 138) = .ok t :=
  ⟨⟨_, rfl⟩, ⟨_, rfl⟩, ⟨_, rfl⟩⟩

/-- BufferBytesReadBack: the last byte of each buffer, written and unwritten. -/
theorem wit_BufferBytesReadBack :
    (loaded []).busy = false ∧ 63 < small.inCap.toNat ∧ 138 < small.outCap.toNat
      ∧ Memory.read ({ loaded [] with outBuf := [(138, 7)] } : State).outBuf 138 = some 7
      ∧ Memory.read (loaded []).outBuf 138 = none := by decide

theorem wit_ResetStepClearsTheBlock :
    ({ pending [0x81] 1#32 with schedule := [.resetInput, .host] } : State).schedule = .resetInput :: [.host] := rfl

theorem wit_ResetMeetsTheInvariants : Config.recommended.wf = true ∧ small.wf = true ∧ tight.wf = true := by decide

/-- The invariant holds of a state with a command pending. -/
theorem pending_inv : (pending [0x81, 0x00] 1#32).Inv where
  cfgOk := by decide
  statusOk := by decide
  inWf := by decide
  inWithin := by decide
  outWf := by decide
  outWithin := by decide
  outLenOk := by decide
  outFilled := by decide
  resultOk := .inl rfl
  frameOk := .inl ⟨rfl, rfl, rfl, rfl, rfl⟩

theorem wit_StepKeepsTheInvariant : ∃ s t : State, s.Inv ∧ step s = .next t := ⟨_, _, pending_inv, rfl⟩

/-- FrameRegistersChangeOnlyByDecode: a DECODE, and a reset after one. -/
theorem wit_FrameRegistersChangeOnlyByDecode :
    (∃ t, step (pending [0x81, 0x00] 1#32) = .next t ∧ ¬ SameFrame (pending [0x81, 0x00] 1#32) t)
      ∧ ∃ t, step { loaded [] with frCtrl := 0x00020081#32, schedule := [.resetInput] } = .next t
          ∧ ¬ SameFrame { loaded [] with frCtrl := 0x00020081#32, schedule := [.resetInput] } t := by
  refine ⟨⟨_, rfl, fun h => ?_⟩, ⟨_, rfl, fun h => ?_⟩⟩
  · exact absurd h.1 (by decide)
  · exact absurd h.1 (by decide)

/-- BusyAndErrChangeOnlyAsStated: an issue, a completion, a completion that changes ERR. -/
theorem wit_BusyAndErrChangeOnlyAsStated :
    (let s : State := { loaded [] with host := { HostSide.initial with script := [.access (.regWrite 4 0 1#32)] } }
      ∃ t, step s = .next t ∧ s.busy = false ∧ t.busy = true)
      ∧ ∃ t, step (pending [] 1#32) = .next t ∧ (pending [] 1#32).busy = true ∧ t.busy = false
          ∧ t.err ≠ (pending [] 1#32).err :=
  ⟨⟨_, rfl, by decide, by decide⟩, ⟨_, rfl, by decide, by decide, by decide⟩⟩

/-- PollingHostReachesTheCompletion: no poll and two polls. -/
theorem wit_PollingHostReachesTheCompletion :
    ∀ n ∈ [0, 2], let s : State := { pending [] 1#32 with
        schedule := List.replicate n .host, host := { HostSide.initial with script := [.wait] } }
      s.busy = true ∧ s.schedule = List.replicate n .host ∧ s.host.script = .wait :: [] := by decide

/-- A host at this point of its loop, with this frame decoded. -/
def hostAt (p : Phase) (frCtrl : Word) : State :=
  { loaded [] with frCtrl := frCtrl, host := { HostSide.initial with conn := .opened, phase := p } }

/-- The same host under ACCUMULATE, with these bytes in Q. -/
def queuedAt (p : Phase) (q : Bytes) : State :=
  { hostAt p 0#32 with
    cfg := { small with reassembly := .accumulate }, host := { HostSide.initial with conn := .opened, phase := p, queue := q } }

/-- DispatchFollowsTheClass: each consumed opcode, and one without a predicate under each parameter; a decoded frame
under each reassembly, FR_FRAMELEN; a text. -/
theorem wit_DispatchFollowsTheClass :
    (∀ op ∈ [0x1#4, 0x8#4, 0x9#4, 0xA#4, 0x0#4, 0xF#4], (hostAt .classify (op.setWidth 32)).host.script = []
      ∧ (hostAt .classify (op.setWidth 32)).host.phase = .classify ∧ (hostAt .classify (op.setWidth 32)).busy = false
      ∧ frCtrlOpcode (hostAt .classify (op.setWidth 32)).frCtrl = op)
      ∧ small.unhandledOpcode = .ignore ∧ ({ small with unhandledOpcode := .close } : Config).unhandledOpcode = .close
      ∧ ((hostAt .decoded 0#32).host.script = [] ∧ (hostAt .decoded 0#32).host.phase = .decoded
        ∧ (hostAt .decoded 0#32).busy = false ∧ (hostAt .decoded 0#32).err = 0#4)
      ∧ (queuedAt .frameLen [0x81]).host.script = [] ∧ (queuedAt .frameLen [0x81]).busy = false
      ∧ (queuedAt .frameLen [0x81]).host.phase = .frameLen
      ∧ (hostAt (.validate [0x4F]) 0#32).host.script = [] ∧ (hostAt (.validate [0x4F]) 0#32).busy = false
      ∧ (hostAt (.validate [0x4F]) 0#32).host.phase = .validate [0x4F]
      ∧ (hostAt (.store [0x4F]) 0#32).host.script = [] ∧ (hostAt (.store [0x4F]) 0#32).busy = false
      ∧ (hostAt (.store [0x4F]) 0#32).host.phase = .store [0x4F] := by
  decide

/-- DecodeFailureIsNoMessage: under DROP; under ACCUMULATE with TRUNC_PAYLOAD and with LEN_RANGE, Q one byte above
IN_CAP and exactly at it. -/
theorem wit_DecodeFailureIsNoMessage :
    (let s : State := { hostAt .decoded 0#32 with status := 0x20#32 }
     s.host.script = [] ∧ s.host.phase = .decoded ∧ s.busy = false ∧ s.err ≠ 0#4 ∧ s.cfg.reassembly = .drop)
      ∧ (∀ n, n = 64 ∨ n = 65 →
        let s : State := { queuedAt .decoded (List.replicate n 0#8) with status := 0x20#32 }
        s.host.script = [] ∧ s.host.phase = .decoded ∧ s.busy = false ∧ s.err ≠ 0#4 ∧ s.err ≠ 3#4
          ∧ s.cfg.reassembly = .accumulate ∧ (s.host.queue.length ≤ s.cfg.inCap.toNat ↔ n = 64))
      ∧ ({ queuedAt .decoded [] with status := 0x30#32 } : State).err = 3#4 := by
  refine ⟨by decide, fun n hn => ?_, by decide⟩
  rcases hn with rfl | rfl <;> exact ⟨rfl, rfl, by decide, by decide, by decide, rfl, by decide⟩

/-- HandshakeCheckTransitions: success and failure of each command, both answers of HS_DETECT. -/
theorem wit_HandshakeCheckTransitions :
    (hostAt (.detected [1]) 0#32).host.script = [] ∧ (hostAt (.detected [1]) 0#32).busy = false
      ∧ (hostAt (.detected [1]) 0#32).host.phase = .detected [1] ∧ (hostAt (.detected [1]) 0#32).err = 0#4
      ∧ (hostAt (.detectResult [1]) 0#32).host.phase = .detectResult [1]
      ∧ (hostAt (.detectResult [1]) 0#32).result.getLsbD 0 = false
      ∧ (hostAt (.detectResult [1]) 0#32).cfg.reassembly = .drop
      ∧ (queuedAt (.detectResult [1]) []).cfg.reassembly = .accumulate
      ∧ ({ hostAt (.detectResult [1]) 0#32 with result := 1#32 } : State).result.getLsbD 0 = true
      ∧ (∀ p ∈ [Purpose.response, .reply], (hostAt (.ran p) 0#32).host.phase = .ran p ∧ (hostAt (.ran p) 0#32).err = 0#4
        ∧ ({ hostAt (.ran p) 0#32 with status := 0x50#32 } : State).err ≠ 0#4
        ∧ ({ hostAt (.ran p) 0#32 with status := 0x50#32 } : State).busy = false) := by decide

/-- A closed connection's host. -/
def closedHost : State :=
  { loaded [] with host := { HostSide.initial with conn := .closed, phase := .closed } }

theorem closedHost_hostInv : closedHost.HostInv where
  scriptOk := .inr (.inr (.inr ⟨rfl, by decide⟩))
  inputReady := ⟨by decide, by decide⟩
  collectOk := fun _ _ _ h => by simp [closedHost] at h
  resultsOk := fun h => by simp [closedHost, Phase.usesResults] at h
  closedOk := fun _ => ⟨rfl, rfl⟩

/-- ClosedConnectionIsTerminal: with nothing to do, and at the reset input. -/
theorem wit_ClosedConnectionIsTerminal :
    closedHost.HostInv ∧ closedHost.host.conn = .closed ∧ (∃ t, step closedHost = .next t)
      ∧ ∃ t, step { closedHost with schedule := [.resetInput] } = .next t :=
  ⟨closedHost_hostInv, rfl, ⟨_, rfl⟩, ⟨_, rfl⟩⟩

/-- TransportOutcomes: each Read in each state of CONN and under each reassembly, a result of READ_MAX bytes and one
longer, the read-out of no byte and of two, and a Write. -/
theorem wit_TransportOutcomes :
    (hostAt .read 0#32).host.script = [] ∧ (hostAt .read 0#32).host.phase = .read ∧ (hostAt .read 0#32).host.inbox = []
      ∧ (∀ r ∈ [ReadResult.bytes [], .transportError, .bytes (List.replicate 16 7), .bytes (List.replicate 17 7)],
        ∀ c ∈ [Conn.awaitHs, .opened],
        let s : State := { loaded [] with host := { HostSide.initial with inbox := [r], conn := c } }
        s.host.script = [] ∧ s.host.phase = .read ∧ s.host.inbox = r :: [] ∧ s.host.conn = c ∧ 1 ≤ s.cfg.readMax)
      ∧ small.readMax = 16 ∧ small.reassembly = .drop ∧ (queuedAt .read [5]).cfg.reassembly = .accumulate
      ∧ (∀ o ∈ [([] : Bytes), [7, 8]],
        let s : State := { hostAt (.outLength .text) 0#32 with
          outBuf := Memory.writeBytes [] 0 o, outLen := BitVec.ofNat 32 o.length }
        s.host.script = [] ∧ s.host.phase = .outLength .text ∧ s.busy = false ∧ s.schedule = []
          ∧ Memory.wf s.outBuf = true ∧ s.outLen.toNat ≤ s.cfg.outCap.toNat
          ∧ Memory.readBytes s.outBuf 0 s.outLen.toNat = some o)
      ∧ (hostAt (.write .response [1]) 0#32).host.phase = .write .response [1]
      ∧ (hostAt (.write .reply [1]) 0#32).host.phase = .write .reply [1] := by decide

theorem wit_RejectedTextIsNeverStored : ∃ s t : State, s.OnlyValidStored ∧ step s = .next t :=
  ⟨pending [] 3#32, _, ⟨fun _ h => absurd h (List.not_mem_nil), fun _ h => Phase.noConfusion h⟩, rfl⟩

/-- The host's invariant holds while it waits for a DECODE it has loaded and issued. -/
def waiting : State := { pending [0x81, 0x00] 1#32 with host := { HostSide.initial with script := [.wait], phase := .decoded } }

theorem waiting_hostInv : waiting.HostInv where
  scriptOk := .inr (.inr (.inl ⟨rfl, opDecode, by decide, by decide, fun h => absurd h (by decide)⟩))
  inputReady := ⟨by decide, by decide⟩
  collectOk := fun _ _ _ h => by simp [waiting] at h
  resultsOk := fun h => by simp [waiting, Phase.usesResults] at h
  closedOk := fun h => by simp [waiting, HostSide.initial] at h

theorem waiting_inv : waiting.Inv :=
  ⟨by decide, by decide, by decide, by decide, by decide, by decide, by decide, by decide, .inl rfl,
    .inl ⟨rfl, rfl, rfl, rfl, rfl⟩⟩

theorem wit_ReferenceHostNeverFaults : waiting.Inv ∧ waiting.HostInv ∧ .resetInput ∉ waiting.schedule :=
  ⟨waiting_inv, waiting_hostInv, by decide⟩

theorem wit_ReferenceHostMeetsNoInterfaceError :
    waiting.Inv ∧ waiting.HostInv ∧ waiting.cfg.roomy = true ∧ .resetInput ∉ waiting.schedule ∧ waiting.busy = true
      ∧ ∃ t, step waiting = .next t ∧ t.busy = false :=
  ⟨waiting_inv, waiting_hostInv, by decide, by decide, by decide, _, rfl, by decide⟩

end Sys2Proof.Tests
end

section
/-! SUPPORT. Proofs of the statements of 00_scope.md: the length of the handshake response and the source's vector
(R11, R212, R213), and the invariants at reset (R290, R295). -/

namespace Sys2Proof.Machine

/-! ## The response and its parts -/

@[simp] theorem statusLine_length : statusLine.length = 34 := rfl
@[simp] theorem connectionLine_length : connectionLine.length = 21 := rfl
@[simp] theorem upgradeLine_length : upgradeLine.length = 20 := rfl
@[simp] theorem acceptPrefix_length : acceptPrefix.length = 22 := rfl
@[simp] theorem blankLine_length : blankLine.length = 4 := rfl

@[simp] theorem response_length (accept : Bytes) : (response accept).length = 101 + accept.length := by
  simp only [response, List.length_append, statusLine_length, connectionLine_length, upgradeLine_length,
    acceptPrefix_length, blankLine_length]
  omega

/-- Base64 makes four characters of each group of three bytes, the last one padded. -/
theorem base64Encode_length (bs : Bytes) : (base64Encode bs).length = 4 * ((bs.length + 2) / 3) := by
  induction bs using base64Encode.induct with
  | case1 a b c rest ih => simp only [base64Encode, List.length_cons, ih]; omega
  | case2 | case3 | case4 => simp [base64Encode]

/-- Under P-B64 every accept value is the Base64 of a 20-byte digest (R211). -/
theorem acceptValue_length {base64 : Vector Byte 20 → Bytes} (h : PB64 base64) (sha1 : Bytes → Vector Byte 20)
    (key : Bytes) : (acceptValue sha1 base64 key).length = 28 := by
  rw [acceptValue, h, base64Encode_length, Vector.length_toList]

theorem performCompose_of_key {bs key : Bytes} (h : handshakeKey bs = some key) (sha1 : Bytes → Vector Byte 20)
    (base64 : Vector Byte 20 → Bytes) :
    performCompose sha1 base64 bs = .ok { out := some (response (acceptValue sha1 base64 key)) } := by
  simp only [performCompose, h]

/-- S-2: the model's header lines, written as characters, are the bytes the vector lists. -/
theorem response_vectorAccept : response vectorAccept = sourceResponse := rfl

/-! ## The state after reset -/

@[simp] theorem Memory.filled_zero (m : Memory) : Memory.filled 0 m = true := by simp [Memory.filled, Memory.readBytes]
@[simp] theorem statusLegal_zero : statusLegal 0#32 = true := by decide
@[simp] theorem statusBusy_zero : statusBusy 0#32 = false := by decide

/-- The one condition of the invariant that reset does not establish by itself is that the configuration is allowed. -/
theorem State.resetWith_inv {c : Config} (hc : c.wf = true) : (State.resetWith c).Inv where
  cfgOk := hc
  statusOk := statusLegal_zero
  inWf := rfl
  inWithin := rfl
  outWf := rfl
  outWithin := rfl
  outLenOk := Nat.zero_le _
  outFilled := Memory.filled_zero _
  resultOk := .inl rfl
  frameOk := .inl ⟨rfl, rfl, rfl, rfl, rfl⟩

/-- At accept the host has no script, its phase is `read`, and CONN = AWAIT_HS (R295). -/
theorem State.resetWith_hostInv (c : Config) : (State.resetWith c).HostInv where
  scriptOk := .inr (.inr (.inr ⟨rfl, statusBusy_zero⟩))
  inputReady := ⟨Nat.zero_le _, Memory.filled_zero _⟩
  collectOk := fun _ _ _ hphase => Phase.noConfusion hphase
  resultsOk := fun hused => Bool.noConfusion hused
  closedOk := fun hclosed => Conn.noConfusion hclosed

theorem State.resetWith_onlyValidStored (c : Config) : (State.resetWith c).OnlyValidStored :=
  ⟨fun _ hmem => absurd hmem List.not_mem_nil, fun _ hphase => Phase.noConfusion hphase⟩

/-! ## The statements -/

/-- Settles O37: the fixed lines of the response add up to 101 bytes (R213), and P-B64 makes the accept value 28. -/
theorem responseLength : Obligations.ResponseLength := by
  refine ⟨response_length, fun sha1 base64 hb64 key => ?_⟩
  rw [response_length, acceptValue_length hb64]

/-- Settles O38: P-VEC gives the accept value of the vector's key, and the response with it is S-2's. -/
theorem sourceVectorComposes : Obligations.SourceVectorComposes := by
  intro sha1 base64 hvec bs hkey
  rw [performCompose_of_key hkey, hvec, response_vectorAccept]

/-- Settles O48: `Config.recommended` is one of the allowed configurations, so State.reset is an instance. -/
theorem resetMeetsTheInvariants : Obligations.ResetMeetsTheInvariants :=
  ⟨fun _ hc => State.resetWith_inv hc, State.resetWith_inv (c := .recommended) (by decide),
    fun c => ⟨State.resetWith_hostInv c, State.resetWith_onlyValidStored c⟩⟩

end Sys2Proof.Machine
end

section
/-! SUPPORT. Proofs of the statements of 10_state.md: the register map and the buffers as the host sees them (R22 to
R42, R61, R64), what a completion writes and keeps (R113, R114, R119), and the block's invariant (R25 to R40). -/

namespace Sys2Proof.Machine

/-! ## The register map -/

theorem regAt_offset {off : Nat} {r : Reg} (h : regAt off = some r) : r.offset = off := by
  unfold regAt at h
  split at h <;> cases h <;> rfl

theorem regAt_eq_none {off : Nat} (h : off % 4 ≠ 0 ∨ 0x30 < off) : regAt off = none := by
  cases hr : regAt off with
  | none => rfl
  | some r =>
    obtain rfl := regAt_offset hr
    revert h
    cases r <;> decide

/-- The offsets of the map are the multiples of 4 up to 0x30 (R22). -/
theorem regAt_isSome {off : Nat} (h4 : off % 4 = 0) (h : off ≤ 0x30) : ∃ r, regAt off = some r := by
  obtain ⟨k, rfl⟩ := Nat.dvd_of_mod_eq_zero h4
  have hk : k ≤ 12 := by omega
  interval_cases k <;> exact ⟨_, rfl⟩

theorem State.regRead_badAccess {w off : Nat} (s : State) (h : w ≠ 4 ∨ regAt off = none) :
    s.regRead w off = .error .badRegAccess := by
  unfold State.regRead
  split
  · rfl
  · rename_i hr
    exact if_pos (h.resolve_right (by simp [hr]))

theorem State.regWrite_badAccess {w off : Nat} (s : State) (v : Word) (h : w ≠ 4 ∨ regAt off = none) :
    s.regWrite w off v = .error .badRegAccess := by
  unfold State.regWrite
  split
  · rfl
  · rename_i hr
    exact if_pos (h.resolve_right (by simp [hr]))

theorem State.regWrite_readOnly {off : Nat} {r : Reg} (s : State) (v : Word) (hr : regAt off = some r)
    (hw : r.writable = false) : s.regWrite 4 off v = .error .writeReadOnly := by
  simp [State.regWrite, hr, hw]

theorem Reg.writable_eq_false {r : Reg} (hcmd : r ≠ .cmd) (hlen : r ≠ .inLen) : r.writable = false := by
  cases r <;> simp_all [Reg.writable]

/-- CLASS is R194's table of the opcode (R35). -/
theorem classWord_eq_classOf (w : Word) : classWord w = classOf (frCtrlOpcode w) := by
  unfold classWord
  generalize frCtrlOpcode w = op
  revert op
  decide

theorem classWord_zero : classWord 0#32 = 0#32 := by decide

/-! ## The host's accesses that succeed -/

theorem State.regWrite_inLen_idle {s : State} (v : Word) (h : s.busy = false) :
    s.regWrite 4 Reg.inLen.offset v = .ok { s with inLen := v } := by
  simp [State.regWrite, regAt, Reg.offset, Reg.writable, h]

theorem State.inWrite_idle {s : State} {i : Nat} (b : Byte) (h : s.busy = false) (hi : i < s.cfg.inCap.toNat) :
    s.inWrite i b = .ok { s with inBuf := Memory.write s.inBuf i b } := by
  simp [State.inWrite, h, Nat.not_le.mpr hi]

theorem State.inRead_idle {s : State} {i : Nat} {b : Byte} (h : s.busy = false) (hi : i < s.cfg.inCap.toNat)
    (hb : Memory.read s.inBuf i = some b) : s.inRead i = .ok b := by
  simp [State.inRead, h, Nat.not_le.mpr hi, hb]

theorem State.outRead_written {s : State} {i : Nat} {b : Byte} (h : s.busy = false) (hi : i < s.cfg.outCap.toNat)
    (hb : Memory.read s.outBuf i = some b) : s.outRead i = .ok b := by
  simp [State.outRead, h, Nat.not_le.mpr hi, hb]

theorem State.outRead_unwritten {s : State} {i : Nat} (h : s.busy = false) (hi : i < s.cfg.outCap.toNat)
    (hb : Memory.read s.outBuf i = none) : s.outRead i = .error .unwrittenOutput := by
  simp [State.outRead, h, Nat.not_le.mpr hi, hb]

/-! ## Which instruction writes which result -/

theorem Instr.readsInput_of_isDecode {i : Instr} (h : i.isDecode = true) : i.readsInput = true := by
  cases i <;> simp_all [Instr.isDecode, Instr.readsInput]

/-- Only DECODE and the headers write the frame-field registers (R30). -/
theorem perform_frame_none {i : Instr} {c : Config} {bs : Bytes} {e : Effect} (h : i.perform c bs = .ok e)
    (hi : i.isDecode = false) : e.frame = none := by
  rcases perform_ok h with ⟨hd, -⟩ | ⟨-, rfl⟩ | ⟨-, -, o, rfl⟩
  · simp [hi] at hd
  · rfl
  · rfl

/-- Only HS_DETECT writes RESULT (R36). -/
theorem perform_result_none {i : Instr} {c : Config} {bs : Bytes} {e : Effect} (h : i.perform c bs = .ok e)
    (hi : i ≠ .hsDetect) : e.result = none := by
  rcases perform_ok h with ⟨-, b0, b1, x, -, -, rfl⟩ | ⟨hd, -⟩ | ⟨-, -, o, rfl⟩
  · rfl
  · exact absurd hd hi
  · rfl

/-- HS_DETECT writes no output (R201). -/
theorem performDetect_out_none {c : Config} {bs : Bytes} {e : Effect} (h : Instr.hsDetect.perform c bs = .ok e) :
    e.out = none := by
  cases h
  rfl

/-- RESULT is written as 0 or 1 (R36, R201). -/
theorem perform_result {i : Instr} {c : Config} {bs : Bytes} {e : Effect} {r : Word} (h : i.perform c bs = .ok e)
    (hr : e.result = some r) : r = 0#32 ∨ r = 1#32 := by
  by_cases hi : i = .hsDetect
  · subst hi
    cases h
    cases hr
    cases detect c.getCaseInsensitive bs
    · exact .inl rfl
    · exact .inr rfl
  · simp [perform_result_none h hi] at hr

/-! ## What an error and a commit leave -/

section
variable (s : State) (c : ErrCode) {e : Effect}

theorem State.raise_sameInputs : SameInputs s (s.raise c) := ⟨rfl, rfl, rfl, rfl, rfl, rfl⟩
theorem State.raise_sameFrame : SameFrame s (s.raise c) := ⟨rfl, rfl, rfl, rfl, rfl, rfl⟩
theorem State.raise_sameOutput : SameOutput s (s.raise c) := ⟨rfl, fun _ => rfl⟩
theorem State.commit_sameInputs : SameInputs s (s.commit e) := ⟨rfl, rfl, rfl, rfl, rfl, rfl⟩

@[simp] theorem State.raise_busy : (s.raise c).busy = false := statusCompleted_busy _ _
@[simp] theorem State.raise_err : (s.raise c).err = c.code := statusCompleted_err _ _
@[simp] theorem State.commit_busy : (s.commit e).busy = false := statusCompleted_busy _ _
@[simp] theorem State.commit_err : (s.commit e).err = 0#4 := statusCompleted_err _ _

theorem State.commit_sameFrame (h : e.frame = none) : SameFrame s (s.commit e) := by
  obtain ⟨out, fr, res⟩ := e
  cases h
  exact ⟨rfl, rfl, rfl, rfl, rfl, rfl⟩

theorem State.commit_sameOutput (h : e.out = none) : SameOutput s (s.commit e) := by
  obtain ⟨out, fr, res⟩ := e
  cases h
  exact ⟨rfl, fun _ => rfl⟩

theorem State.commit_sameResult (h : e.result = none) : (s.commit e).result = s.result := by
  obtain ⟨out, fr, res⟩ := e
  cases h
  rfl

/-- A commit leaves every byte of OUT at or above the new OUT_LEN (R40, R119). -/
theorem State.commit_read_outBuf_above (h : e.overflows s.cfg.outCap = false) {a : Nat}
    (ha : (s.commit e).outLen.toNat ≤ a) : Memory.read (s.commit e).outBuf a = Memory.read s.outBuf a := by
  obtain ⟨_ | o, fr, res⟩ := e
  · rfl
  · obtain ⟨-, hlen⟩ := Effect.out_length h rfl
    rw [State.commit_some_outLen, hlen] at ha
    rw [State.commit_some_outBuf, Memory.read_writeBytes, if_neg (by omega)]

end

theorem ErrCode.code_ne_zero {c : ErrCode} (h : c ≠ .success) : c.code ≠ 0#4 :=
  fun h0 => h (ErrCode.code_injective (d := .success) h0)

/-! ## What a successful DECODE leaves -/

/-- HDRLEN of an accepted header (R31). -/
theorem frameExtent_hdr {masked : Bool} {len7 : Nat} {bs : Bytes} {x : Extent}
    (h : frameExtent masked len7 bs = .ok x) : x.hdr = 2 + extOfLen7 len7 + if masked then 4 else 0 := by
  obtain ⟨-, ext, hl, hm⟩ := frameExtent_ok h
  have hext : ext = extOfLen7 len7 := by
    unfold extOfLen7
    rcases lengthField_ok hl with ⟨h7, rfl, -⟩ | ⟨rfl, rfl, -⟩ | ⟨h7, rfl, -⟩
    · rw [if_pos h7]
    · rfl
    · rw [if_neg (by omega), if_neg (by omega)]
  rcases maskField_ok hm with ⟨rfl, -, hx, -⟩ | ⟨rfl, hx, -⟩ <;> simp [hx, hext]

theorem frameExtent_hdr_lt {masked : Bool} {len7 : Nat} {bs : Bytes} {x : Extent}
    (h : frameExtent masked len7 bs = .ok x) : x.hdr < 16 := by
  rw [frameExtent_hdr h]
  unfold extOfLen7
  split_ifs <;> decide

/-- The whole header of an accepted frame is in the input (R131 to R139). -/
theorem frameExtent_hdr_le {masked : Bool} {len7 : Nat} {bs : Bytes} {x : Extent}
    (h : frameExtent masked len7 bs = .ok x) : x.hdr ≤ bs.length := by
  obtain ⟨h2, ext, hl, hm⟩ := frameExtent_ok h
  rcases maskField_ok hm with ⟨-, hle, hx, -⟩ | ⟨-, hx, -⟩
  · omega
  · rcases lengthField_ok hl with ⟨-, rfl, -⟩ | ⟨-, rfl, hle, -⟩ | ⟨-, rfl, hle, -⟩ <;> omega

theorem frameExtent_plen_of_short {masked : Bool} {len7 : Nat} {bs : Bytes} {x : Extent}
    (h : frameExtent masked len7 bs = .ok x) (h7 : len7 ≤ 125) : x.plen = len7 := by
  obtain ⟨-, ext, hl, -⟩ := frameExtent_ok h
  rcases lengthField_ok hl with ⟨-, -, hp⟩ | ⟨h7', -⟩ | ⟨h7', -⟩
  · exact hp
  all_goals omega

theorem frameExtent_key_of_unmasked {len7 : Nat} {bs : Bytes} {x : Extent}
    (h : frameExtent false len7 bs = .ok x) : x.key = .zero := by
  obtain ⟨-, ext, -, hm⟩ := frameExtent_ok h
  rcases maskField_ok hm with ⟨hf, -⟩ | ⟨-, -, hk⟩
  · cases hf
  · exact hk

theorem plenHiWord_eq_zero {plen : Nat} (h : plen < 2 ^ 32) : plenHiWord plen = 0#32 := by
  rw [plenHiWord, Nat.shiftRight_eq_div_pow, Nat.div_eq_of_lt h]

section
variable {s : State} {b0 b1 : Byte} {bs : Bytes} {x : Extent}

/-- The output of an accepted frame is its payload (R151). -/
theorem State.commit_frameEffect_outLen (hp : x.plen ≤ bs.length - x.hdr) :
    (s.commit (frameEffect b0 b1 x bs)).outLen = plenLoWord x.plen := by
  simp [frameEffect, plenLoWord, hp]

theorem State.commit_frameEffect_frFrameLen (hlt : x.hdr + x.plen < 2 ^ 32) :
    (s.commit (frameEffect b0 b1 x bs)).frFrameLen.toNat = x.hdr + x.plen :=
  Nat.mod_eq_of_lt hlt

/-- The frame-field registers after the commit of an accepted frame whose length fits a register (R30 to R34). -/
theorem State.commit_frameDecoded (hx : frameExtent (headerFields b0 b1).masked (headerFields b0 b1).len7 bs = .ok x)
    (hlt : x.hdr + x.plen < 2 ^ 32) : (s.commit (frameEffect b0 b1 x bs)).FrameDecoded := by
  have hhdr : (frCtrlHdrLen (frCtrlWord b0 b1 x.hdr)).toNat = x.hdr := by
    rw [frCtrlWord_hdrLen, BitVec.toNat_ofNat, Nat.mod_eq_of_lt (frameExtent_hdr_lt hx)]
  have hplen : (plenLoWord x.plen).toNat = x.plen := Nat.mod_eq_of_lt (by omega)
  have hframe := State.commit_frameEffect_frFrameLen (s := s) (b0 := b0) (b1 := b1) (bs := bs) hlt
  refine ⟨frCtrlWord_reserved _ _ _ (frameExtent_hdr_lt hx), ?_, plenHiWord_eq_zero (by omega), ?_, ?_, ?_⟩
  · simp only [frameEffect, State.commit_some_frCtrl, hhdr, frCtrlWord_len7, frCtrlWord_masked]
    exact frameExtent_hdr hx
  · simp only [frameEffect, State.commit_some_frCtrl, frCtrlWord_masked, State.commit_some_frMaskKey]
    intro hm
    have hm' : (headerFields b0 b1).masked = false := hm
    rw [frameExtent_key_of_unmasked (hm' ▸ hx)]
    decide
  · rw [hframe]
    simp only [frameEffect, State.commit_some_frCtrl, State.commit_some_frPlenLo, hhdr, hplen]
  · simp only [frameEffect, State.commit_some_frCtrl, State.commit_some_frPlenLo, frCtrlWord_len7, hplen]
    exact frameExtent_plen_of_short hx

end

/-- An accepted frame lies within the input, and with it its length fits a register (R142). -/
theorem State.frame_within_input {s : State} {masked : Bool} {len7 : Nat} {bs : Bytes} {x : Extent}
    (hin : s.input = .bytes bs) (hx : frameExtent masked len7 bs = .ok x) (hp : x.plen ≤ bs.length - x.hdr) :
    x.hdr + x.plen ≤ s.inLen.toNat ∧ x.hdr + x.plen < 2 ^ 32 := by
  obtain ⟨hlen, -⟩ := State.input_length hin
  have := frameExtent_hdr_le hx
  have := s.inLen.isLt
  omega

/-- A DECODE that succeeded committed a frame that lies within the input. -/
theorem exec_isDecode_success {i : Instr} {s t : State} (hi : i.isDecode = true) (h : exec i s = .next t)
    (he : t.err = 0#4) :
    ∃ bs b0 b1 x, s.input = .bytes bs ∧ frameExtent (headerFields b0 b1).masked (headerFields b0 b1).len7 bs = .ok x
      ∧ x.plen ≤ bs.length - x.hdr ∧ t = s.commit (frameEffect b0 b1 x bs) := by
  rcases exec_next h with ⟨c, hc, rfl⟩ | ⟨bs, e, hin, hperf, -, rfl⟩
  · exact absurd (State.raise_err s c ▸ he) (ErrCode.code_ne_zero hc)
  · rcases perform_ok hperf with ⟨-, b0, b1, x, hx, hp, rfl⟩ | ⟨rfl, -⟩ | ⟨hd, -⟩
    · exact ⟨bs, b0, b1, x, hin (Instr.readsInput_of_isDecode hi), hx, hp, rfl⟩
    · cases hi
    · simp [hi] at hd

/-- The effect of an instruction lists no frame-field register, or the registers of the frame it decoded. -/
theorem State.commit_frame_none_or_decoded {i : Instr} {s : State} {bs : Bytes} {e : Effect}
    (hin : i.readsInput = true → s.input = .bytes bs) (h : i.perform s.cfg bs = .ok e) :
    e.frame = none ∨ (s.commit e).FrameDecoded := by
  rcases perform_ok h with ⟨hi, b0, b1, x, hx, hp, rfl⟩ | ⟨-, rfl⟩ | ⟨-, -, o, rfl⟩
  · have hwithin := State.frame_within_input (hin (Instr.readsInput_of_isDecode hi)) hx hp
    exact .inr (State.commit_frameDecoded hx hwithin.2)
  all_goals exact .inl rfl

/-! ## What a completion leaves in BUSY and the frame-field registers -/

theorem State.complete_busy {s t : State} (h : s.complete = .next t) : t.busy = false := by
  rcases State.complete_next_cases h with ⟨c, -, rfl⟩ | ⟨i, bs, e, -, -, -, -, rfl⟩ <;> simp

/-- The one word that decodes to DECODE or a header is 1 (R81). -/
theorem decodeCmd_isDecode {v : Word} {i : Instr} (h : decodeCmd v = .ok i) (hi : i.isDecode = true) :
    v = 0x00000001#32 := by
  unfold decodeCmd at h
  dsimp only at h
  split at h
  · cases h
  · rename_i hhigh
    split at h
    · rename_i hlow
      have hhigh' := congrArg BitVec.toNat (not_not.mp hhigh)
      have hlow' := congrArg BitVec.toNat hlow
      have hv := v.isLt
      simp only [BitVec.extractLsb'_toNat, Nat.shiftRight_eq_div_pow, opDecode, BitVec.toNat_ofNat] at hhigh' hlow'
      apply BitVec.eq_of_toNat_eq
      simp only [BitVec.toNat_ofNat]
      omega
    · repeat' split at h
      all_goals cases h
      all_goals cases hi

theorem State.fetch_isDecode {s : State} {i : Instr} (h : s.fetch = .ok i) (hi : i.isDecode = true) :
    s.cmd = 0x00000001#32 := by
  unfold State.fetch at h
  split at h
  · rename_i hd
    exact decodeCmd_isDecode hd rfl
  · exact decodeCmd_isDecode h hi

/-- A completion that changes a frame-field register is a successful one of the DECODE word (R30). -/
theorem State.complete_frame {s t : State} (h : s.complete = .next t) (hf : ¬ SameFrame s t) :
    s.cmd = 0x00000001#32 ∧ t.err = 0#4 := by
  rcases State.complete_next_cases h with ⟨c, -, rfl⟩ | ⟨i, bs, e, hi, -, hperf, -, rfl⟩
  · exact absurd (s.raise_sameFrame c) hf
  · cases hd : i.isDecode with
    | true => exact ⟨State.fetch_isDecode hi hd, State.commit_err s⟩
    | false => exact absurd (s.commit_sameFrame (perform_frame_none hperf hd)) hf

/-! ## What a step of the host leaves -/

theorem State.hostStep_sameFrame {s t : State} (h : s.hostStep = .next t) : SameFrame s t := by
  rcases State.hostStep_next h with ⟨-, v, rest, -, rfl⟩ | ⟨-, v, rest, -, rfl⟩ | ⟨-, i, b, rest, -, -, rfl⟩ | ⟨g, rfl⟩
  all_goals exact ⟨rfl, rfl, rfl, rfl, rfl, rfl⟩

/-- A step of the host leaves STATUS, unless it is an issue (R26, R110). -/
theorem State.hostStep_status {s t : State} (h : s.hostStep = .next t) :
    t.status = s.status
      ∨ (s.busy = false ∧ t.status = statusWithBusy s.status true
        ∧ ∃ v rest, s.host.script = .access (.regWrite 4 Reg.cmd.offset v) :: rest ∧ t.cmd = v) := by
  rcases State.hostStep_next h with ⟨hb, v, rest, hs, rfl⟩ | ⟨-, v, rest, -, rfl⟩ | ⟨-, i, b, rest, -, -, rfl⟩ | ⟨g, rfl⟩
  · exact .inr ⟨hb, rfl, v, rest, hs, rfl⟩
  all_goals exact .inl rfl

/-! ## One step -/

/-- A next state, by who moved: a completion of a pending command, the host, the reset input at the head of the
schedule, or nobody. The schedule has lost its first entry. -/
theorem step_next {s t : State} (h : step s = .next t) :
    (s.busy = true ∧ State.complete { s with schedule := s.schedule.tail } = .next t)
      ∨ State.hostStep { s with schedule := s.schedule.tail } = .next t
      ∨ ((∃ rest, s.schedule = .resetInput :: rest) ∧ t = State.resetBlock { s with schedule := s.schedule.tail })
      ∨ t = { s with schedule := s.schedule.tail } := by
  unfold step at h
  split at h
  · rename_i hs
    have hself : ({ s with schedule := s.schedule.tail } : State) = s := by rw [hs, List.tail_nil, ← hs]
    rw [hself]
    split at h
    · exact .inl ⟨by assumption, h⟩
    · exact .inr (.inl h)
  · rename_i rest hs
    rw [hs]
    exact .inr (.inl h)
  · rename_i rest hs
    rw [hs]
    unfold State.codecTurn at h
    split at h
    · exact .inl ⟨by assumption, h⟩
    · cases h
      exact .inr (.inr (.inr rfl))
  · rename_i rest hs
    rw [hs]
    cases h
    exact .inr (.inr (.inl ⟨⟨rest, rfl⟩, rfl⟩))

/-- Who writes STATUS (R26): a completion and reset, which leave BUSY = 0; an issue of the host, which keeps ERR; and
nobody else. -/
theorem step_status {s t : State} (h : step s = .next t) :
    (s.busy = true ∧ t.busy = false ∧ State.complete { s with schedule := s.schedule.tail } = .next t)
      ∨ ((∃ rest, s.schedule = .resetInput :: rest) ∧ t.busy = false)
      ∨ (s.busy = false ∧ t.err = s.err
        ∧ ∃ v rest, s.host.script = .access (.regWrite 4 Reg.cmd.offset v) :: rest ∧ t.cmd = v)
      ∨ (t.busy = s.busy ∧ t.err = s.err) := by
  rcases step_next h with ⟨hb, hc⟩ | hh | ⟨hreset, rfl⟩ | rfl
  · exact .inl ⟨hb, State.complete_busy hc, hc⟩
  · rcases State.hostStep_status hh with hst | ⟨hb, hst, hissue⟩
    · exact .inr (.inr (.inr ⟨congrArg statusBusy hst, congrArg statusErr hst⟩))
    · exact .inr (.inr (.inl ⟨hb, (congrArg statusErr hst).trans (statusErr_withBusy _ _), hissue⟩))
  · exact .inr (.inl ⟨hreset, statusBusy_zero⟩)
  · exact .inr (.inr (.inr ⟨rfl, rfl⟩))

/-! ## The invariant -/

section
variable {s : State} (h : s.Inv)
include h

theorem State.Inv.withSchedule (l : List Agent) : State.Inv { s with schedule := l } := { h with }

theorem State.Inv.withHost (g : HostSide) : (s.withHost g).Inv := { h with }

theorem State.Inv.issue (v : Word) : (s.issue v).Inv :=
  { h with statusOk := statusLegal_withBusy h.statusOk true }

theorem State.Inv.withInLen (v : Word) : State.Inv { s with inLen := v } := { h with }

theorem State.Inv.writeIn {i : Nat} (b : Byte) (hi : i < s.cfg.inCap.toNat) :
    State.Inv { s with inBuf := Memory.write s.inBuf i b } :=
  { h with inWf := Memory.wf_write h.inWf i b, inWithin := Memory.within_write h.inWithin b hi }

/-- The block after reset is that of `State.resetWith`. -/
theorem State.Inv.resetBlock : s.resetBlock.Inv := { State.resetWith_inv h.cfgOk with }

/-- After a commit OUT_LEN still counts written bytes of OUT: a new output is written from OUT[0] on (R119). -/
theorem State.Inv.commit_out {e : Effect} (hfit : e.overflows s.cfg.outCap = false) :
    Memory.wf (s.commit e).outBuf = true ∧ Memory.within s.cfg.outCap.toNat (s.commit e).outBuf = true
      ∧ (s.commit e).outLen.toNat ≤ s.cfg.outCap.toNat
      ∧ Memory.filled (s.commit e).outLen.toNat (s.commit e).outBuf = true := by
  obtain ⟨_ | o, fr, res⟩ := e
  · exact ⟨h.outWf, h.outWithin, h.outLenOk, h.outFilled⟩
  · obtain ⟨hcap, hlen⟩ := Effect.out_length hfit rfl
    rw [State.commit_some_outLen, hlen, State.commit_some_outBuf]
    exact ⟨Memory.wf_writeBytes h.outWf 0 o, Memory.within_writeBytes h.outWithin (by omega), hcap,
      by rw [Memory.filled, Memory.readBytes_writeBytes_zero, Option.isSome_some]⟩

theorem State.Inv.commit_result {e : Effect} (hresult : ∀ r, e.result = some r → r = 0#32 ∨ r = 1#32) :
    (s.commit e).result = 0#32 ∨ (s.commit e).result = 1#32 := by
  obtain ⟨out, fr, _ | r⟩ := e
  · exact h.resultOk
  · exact hresult r rfl

theorem State.Inv.commit_frame {e : Effect} (hframe : e.frame = none ∨ (s.commit e).FrameDecoded) :
    (s.commit e).NoFrame ∨ (s.commit e).FrameDecoded := by
  obtain ⟨out, fr, res⟩ := e
  rcases hframe with hnone | hdecoded
  · cases hnone
    exact h.frameOk
  · exact .inr hdecoded

/-- A completion keeps the invariant: an error changes STATUS alone, and a commit writes an output that fits OUT, a
RESULT of 0 or 1, and the registers of a frame that lies within the input. -/
theorem State.Inv.complete {t : State} (hstep : s.complete = .next t) : t.Inv := by
  rcases State.complete_next_cases hstep with ⟨c, -, rfl⟩ | ⟨i, bs, e, -, hin, hperf, hfit, rfl⟩
  · exact { h with statusOk := statusLegal_completed h.statusOk c }
  · obtain ⟨hwf, hwithin, hlen, hfilled⟩ := h.commit_out hfit
    exact { h with
      statusOk := statusLegal_completed h.statusOk .success
      outWf := hwf
      outWithin := hwithin
      outLenOk := hlen
      outFilled := hfilled
      resultOk := h.commit_result fun r hr => perform_result hperf hr
      frameOk := h.commit_frame (State.commit_frame_none_or_decoded hin hperf) }

theorem State.Inv.hostStep {t : State} (hstep : s.hostStep = .next t) : t.Inv := by
  rcases State.hostStep_next hstep with
    ⟨-, v, rest, -, rfl⟩ | ⟨-, v, rest, -, rfl⟩ | ⟨-, i, b, rest, -, hi, rfl⟩ | ⟨g, rfl⟩
  · exact (h.withHost _).issue v
  · exact (h.withHost _).withInLen v
  · exact (h.withHost { s.host with script := rest }).writeIn b hi
  · exact h.withHost g

end

/-! ## The statements -/

/-- Settles O49: each of the four kinds of step keeps the invariant. -/
theorem stepKeepsTheInvariant : Obligations.StepKeepsTheInvariant := by
  intro s t h hstep
  have h' := h.withSchedule s.schedule.tail
  rcases step_next hstep with ⟨-, hc⟩ | hh | ⟨-, rfl⟩ | rfl
  · exact h'.complete hc
  · exact h'.hostStep hh
  · exact h'.resetBlock
  · exact h'

/-- Settles O12: neither an error nor a commit writes an input. -/
theorem completionKeepsItsInputs : Obligations.CompletionKeepsItsInputs := by
  intro i s t h
  rcases exec_next h with ⟨c, -, rfl⟩ | ⟨bs, e, -, -, -, rfl⟩
  · exact s.raise_sameInputs c
  · exact s.commit_sameInputs

/-- Settles O18: what an instruction does not write is not listed in the effect of its `perform`. -/
theorem unlistedResultsAreKept : Obligations.UnlistedResultsAreKept := by
  intro i s t h
  rcases exec_next h with ⟨c, -, rfl⟩ | ⟨bs, e, -, hperf, -, rfl⟩
  · exact ⟨fun _ => ⟨s.raise_sameFrame c, rfl⟩, fun _ => ⟨s.raise_sameFrame c, s.raise_sameOutput c⟩, fun _ => rfl⟩
  · refine ⟨fun hi => ?_, fun hi => ?_, fun hi => ?_⟩
    · have hkind : i.isDecode = false ∧ i ≠ .hsDetect := by
        rcases hi with rfl | rfl | rfl | rfl | rfl <;> exact ⟨rfl, by decide⟩
      exact ⟨s.commit_sameFrame (perform_frame_none hperf hkind.1),
        s.commit_sameResult (perform_result_none hperf hkind.2)⟩
    · subst hi
      exact ⟨s.commit_sameFrame (perform_frame_none hperf rfl), s.commit_sameOutput (performDetect_out_none hperf)⟩
    · have hne : i ≠ .hsDetect := by
        rintro rfl
        cases hi
      exact s.commit_sameResult (perform_result_none hperf hne)

/-- Settles O19: HS_DETECT and an error write no output, and a commit writes below the new OUT_LEN alone. -/
theorem outputBeyondItsLengthIsKept : Obligations.OutputBeyondItsLengthIsKept := by
  intro i s t h a ha
  rcases exec_next h with ⟨c, -, rfl⟩ | ⟨bs, e, -, hperf, hfit, rfl⟩
  · rfl
  · rcases ha with rfl | herr | ha
    · exact (s.commit_sameOutput (performDetect_out_none hperf)).2 a
    · exact absurd (State.commit_err s) herr
    · exact s.commit_read_outBuf_above hfit ha

/-- Settles O23: it is a part of what a decoded frame leaves in the frame-field registers. -/
theorem headerLengthFollowsByteOne : Obligations.HeaderLengthFollowsByteOne := by
  intro i s t hi h he
  obtain ⟨bs, b0, b1, x, hin, hx, hp, rfl⟩ := exec_isDecode_success hi h he
  obtain ⟨-, hhdr, -⟩ := State.commit_frameDecoded (s := s) hx (State.frame_within_input hin hx hp).2
  exact hhdr

/-- Settles O24: the registers are those of a decoded frame, whose payload is the output. -/
theorem decodedLengthsAgree : Obligations.DecodedLengthsAgree := by
  intro i s t hi h he
  obtain ⟨bs, b0, b1, x, hin, hx, hp, rfl⟩ := exec_isDecode_success hi h he
  obtain ⟨hle, hlt⟩ := State.frame_within_input hin hx hp
  obtain ⟨-, -, hhi, -, hsum, -⟩ := State.commit_frameDecoded (s := s) hx hlt
  refine ⟨hhi, (State.commit_frameEffect_outLen hp).symm, hsum, ?_⟩
  rw [State.commit_frameEffect_frFrameLen hlt]
  exact hle

/-- Settles O50: the host writes no frame-field register, and a completion only as a successful DECODE. -/
theorem frameRegistersChangeOnlyByDecode : Obligations.FrameRegistersChangeOnlyByDecode := by
  intro s t hstep hframe
  rcases step_next hstep with ⟨hb, hc⟩ | hh | ⟨hreset, -⟩ | rfl
  · obtain ⟨hcmd, herr⟩ := State.complete_frame hc hframe
    exact .inr ⟨hb, hcmd, State.complete_busy hc, herr⟩
  · exact absurd (State.hostStep_sameFrame hh) hframe
  · exact .inl hreset
  · exact absurd ⟨rfl, rfl, rfl, rfl, rfl, rfl⟩ hframe

/-- Settles O51: a completion and reset clear BUSY and write ERR, an issue sets BUSY alone. -/
theorem busyAndErrChangeOnlyAsStated : Obligations.BusyAndErrChangeOnlyAsStated := by
  intro s t hstep
  rcases step_status hstep with ⟨hb, ht, hc⟩ | ⟨hreset, ht⟩ | ⟨hb, herr, v, rest, hs, hv⟩ | ⟨hbusy, herr⟩
  · exact ⟨fun hidle => by simp [hb] at hidle, fun _ _ => .inr hc, fun _ => .inr ⟨hb, ht, hc⟩⟩
  · exact ⟨fun _ hpending => by simp [ht] at hpending, fun _ _ => .inl hreset, fun _ => .inl hreset⟩
  · exact ⟨fun _ _ => ⟨v, rest, hs, hv, herr⟩, fun hpending => by simp [hb] at hpending, fun hne => absurd herr hne⟩
  · rw [hbusy]
    exact ⟨fun hidle hpending => by simp [hidle] at hpending, fun hpending hidle => by simp [hidle] at hpending,
      fun hne => absurd herr hne⟩

/-- Settles O39: the offset and the width are checked first, then the access class, and for a buffer the index. -/
theorem forbiddenAccessesFault : Obligations.ForbiddenAccessesFault := by
  intro s
  refine ⟨fun w off v h => ?_, fun off v h4 hle hcmd hlen => ?_, fun i b hi => ⟨if_pos hi, if_pos hi⟩,
    fun i hi => if_pos hi⟩
  · have hbad : w ≠ 4 ∨ regAt off = none := h.imp_right regAt_eq_none
    exact ⟨s.regRead_badAccess hbad, s.regWrite_badAccess v hbad⟩
  · obtain ⟨r, hr⟩ := regAt_isSome h4 hle
    have hoff := regAt_offset hr
    refine s.regWrite_readOnly v hr (Reg.writable_eq_false ?_ ?_)
    · rintro rfl
      exact hcmd hoff.symm
    · rintro rfl
      exact hlen hoff.symm

/-- Settles O40: an idle read of a register's offset returns the register, and CLASS is R194's table of the opcode. -/
theorem registerMapReads : Obligations.RegisterMapReads := by
  intro s h
  have hread := fun r => State.regRead_idle (s := s) r h
  have hclass := hread .classBits
  rw [State.reg, classWord_eq_classOf] at hclass
  exact ⟨hread .cmd, hread .status, hread .inLen, hread .outLen, hread .frCtrl, hread .frPlenLo, hread .frPlenHi,
    hread .frMaskKey, hread .frFrameLen, hclass, hread .result, hread .capIn, hread .capOut⟩

/-- Settles O45: each write is one field's, which an idle read then returns. -/
theorem bufferBytesReadBack : Obligations.BufferBytesReadBack := by
  intro s i h
  refine ⟨fun v => ⟨State.regWrite_inLen_idle v h, State.regRead_idle .inLen h⟩, fun b hi => ?_, fun hi =>
    ⟨fun b hb => State.outRead_written h hi hb, fun hb => State.outRead_unwritten h hi hb⟩⟩
  refine ⟨_, State.inWrite_idle b h hi, State.inRead_idle h hi ?_, fun j hj => ?_, rfl⟩
  · rw [Memory.read_write, if_pos rfl]
  · rw [Memory.read_write, if_neg hj]

/-- Settles O47: State.reset is the reset state of `Config.recommended` (log 2). -/
theorem resetStateHasTheResetValues : Obligations.ResetStateHasTheResetValues := by
  refine ⟨fun c => ⟨fun r hin hout => ?_, rfl, rfl, statusBusy_zero, fun i => ⟨rfl, rfl⟩⟩, .recommended, rfl⟩
  cases r
  case capIn => exact absurd rfl hin
  case capOut => exact absurd rfl hout
  case classBits => exact classWord_zero
  all_goals rfl

end Sys2Proof.Machine
end

section
/-! SUPPORT. Proofs of the statements of 20_memory.md: what a step with a command pending runs (R71, R111, R113), and
what a read of the host leaves (R61, R65, R94). -/

namespace Sys2Proof.Machine

/-! ## A pending command at the step -/

/-- The schedule says whose turn it is and is not read by the fetch (log 5). -/
@[simp] theorem State.fetch_withSchedule (s : State) (l : List Agent) :
    State.fetch { s with schedule := l } = s.fetch := rfl

@[simp] theorem State.busy_withSchedule (s : State) (l : List Agent) :
    State.busy { s with schedule := l } = s.busy := rfl

theorem State.complete_of_fetch {s : State} {i : Instr} (h : s.fetch = .ok i) : s.complete = exec i s := by
  rw [State.complete, h]

/-- With no turn scheduled, a pending command completes (R112). -/
theorem step_of_pending {s : State} (hs : s.schedule = []) (hb : s.busy = true) : step s = s.complete := by
  simp only [step, hs, hb, if_true]

/-- The codec's turn with a command pending is its completion (R111). -/
theorem step_of_codec {s : State} {rest : List Agent} (hs : s.schedule = .codec :: rest) (hb : s.busy = true) :
    step s = State.complete { s with schedule := rest } := by
  simp only [step, hs, State.codecTurn, State.busy_withSchedule, hb, if_true]

/-! ## A read of the host -/

/-- The host's record grows by the value read, of a register or of a buffer byte alike (R94). -/
theorem State.map_record_ok {α : Type} {s t : State} {r : Except Fault α} {f : α → ReadValue}
    (h : (r.map fun v => s.record (f v)) = .ok t) : ∃ v, r = .ok v ∧ t = s.record (f v) := by
  cases r with
  | error _ => cases h
  | ok v => cases h; exact ⟨v, rfl, rfl⟩

/-! ## The statements -/

/-- Settles O7: with BUSY = 1 both schedules run the completion, which is exec of what is fetched (logs 1 and 5). -/
theorem stepRunsTheFetchedInstruction : Obligations.StepRunsTheFetchedInstruction := by
  intro s i hb hfetch
  refine ⟨fun hs => ?_, fun rest hs => ?_⟩
  · rw [step_of_pending hs hb, State.complete_of_fetch hfetch]
  · rw [step_of_codec hs hb, State.complete_of_fetch ((s.fetch_withSchedule rest).trans hfetch)]

/-- Settles O44: each read of the host is a read of the block with its value recorded (log 12). -/
theorem hostReadsHaveNoSideEffect : Obligations.HostReadsHaveNoSideEffect :=
  fun _ _ => ⟨fun _ _ h => State.map_record_ok h, fun _ h => State.map_record_ok h, fun _ h => State.map_record_ok h⟩

end Sys2Proof.Machine
end

section
/-! SUPPORT. Proofs of the statements of 30_encoding.md: the command word (R80 to R83), the frame header (R84, R90) and
the opcode table, each with both directions of the coding, and the two-level fetch (log 1). -/

namespace Sys2Proof

/-! ## The command word -/

theorem commandWord_extractLsb' {v : Word} (h : v.extractLsb' 8 24 = 0#24) : commandWord (v.extractLsb' 0 8) = v := by
  rw [commandWord, ← h]
  exact BitVec.extractLsb'_append_extractLsb'

/-- A word is a command exactly where it is the code of one (R81, R83). -/
theorem decodeCmd_eq_ok_iff {v : Word} {i : Instr} : decodeCmd v = .ok i ↔ encode i = .command v := by
  constructor
  · intro h
    unfold decodeCmd at h
    dsimp only at h
    split at h
    · cases h
    · rename_i hhigh
      have hv := commandWord_extractLsb' (not_not.mp hhigh)
      repeat' split at h
      all_goals cases h
      all_goals
        rename_i hop
        rw [← hv, hop]
        rfl
  · intro h
    cases i <;> cases h <;> rfl

theorem decodeCmd_eq_error {v : Word} {e : DecodeError} (h : decodeCmd v = .error e) : e = .illegalCommand := by
  cases e with
  | illegalCommand => rfl
  | truncatedHeader =>
    unfold decodeCmd at h
    dsimp only at h
    repeat' split at h
    all_goals cases h

/-- The codes of the commands are the words 1 to 7 (R81). -/
theorem exists_encode_eq_command_iff {v : Word} : (∃ i, encode i = .command v) ↔ v ≠ 0#32 ∧ v < 0x00000008#32 := by
  constructor
  · rintro ⟨i, h⟩
    cases i <;> cases h <;> decide
  · rintro ⟨h0, h8⟩
    have hpos : 0 < v.toNat := Nat.pos_of_ne_zero fun hv => h0 (BitVec.eq_of_toNat_eq hv)
    have hlt : v.toNat < 8 := h8
    have hv : v = BitVec.ofNat 32 v.toNat := by simp
    generalize v.toNat = n at hpos hlt hv
    subst hv
    interval_cases n
    exacts [⟨.decode, rfl⟩, ⟨.encodeText, rfl⟩, ⟨.genPing, rfl⟩, ⟨.genPong, rfl⟩, ⟨.genClose, rfl⟩, ⟨.hsDetect, rfl⟩,
      ⟨.hsCompose, rfl⟩]

theorem decodeCmd_eq_illegal_iff {v : Word} :
    decodeCmd v = .error .illegalCommand ↔ v = 0#32 ∨ 0x00000008#32 ≤ v := by
  have hok : (∃ i, decodeCmd v = .ok i) ↔ v ≠ 0#32 ∧ v < 0x00000008#32 := by
    simp only [decodeCmd_eq_ok_iff, exists_encode_eq_command_iff]
  have herr : decodeCmd v = .error .illegalCommand ↔ ¬ ∃ i, decodeCmd v = .ok i := by
    cases h : decodeCmd v with
    | ok i => simp
    | error e => simp [decodeCmd_eq_error h]
  rw [herr, hok, not_and_or, not_not, BitVec.not_lt]

/-! ## The two bytes of a header -/

@[simp] theorem headerBytes_append (b0 b1 : Byte) : headerBytes (b0 ++ b1) = [b0, b1] := by
  rw [headerBytes, BitVec.extractLsb'_append_eq_left, BitVec.extractLsb'_append_eq_right]

/-- A header word always decodes, to the instruction of its two bytes (R132). -/
theorem decode_header (w : BitVec 16) :
    decode (.header w) = .ok (headerInstr (w.extractLsb' 8 8) (w.extractLsb' 0 8)) := rfl

@[simp] theorem decode_header_append (b0 b1 : Byte) : decode (.header (b0 ++ b1)) = .ok (headerInstr b0 b1) := by
  rw [decode, headerBytes_append]
  rfl

/-- Byte 1 cannot hold a LEN7 above 127 (R84). -/
theorem headerFields_wellFormed (b0 b1 : Byte) : (headerFields b0 b1).wellFormed = true :=
  decide_eq_true (Nat.le_of_lt_succ (b1.extractLsb' 0 7).isLt)

@[simp] theorem headerFields_byte0 (b0 b1 : Byte) : (headerFields b0 b1).byte0 (opcodeOf b0) = b0 := by
  apply BitVec.eq_of_getLsbD_eq
  intro i hi
  simp only [WireHeader.byte0, headerFields, opcodeOf, BitVec.getLsbD_append]
  interval_cases i <;> simp

@[simp] theorem headerFields_byte1 (b0 b1 : Byte) : (headerFields b0 b1).byte1 = b1 := by
  have hlow : BitVec.ofNat 7 (headerFields b0 b1).len7 = b1.extractLsb' 0 7 :=
    (BitVec.ofNat_toNat _ _).trans (BitVec.setWidth_eq _)
  rw [WireHeader.byte1, hlow]
  apply BitVec.eq_of_getLsbD_eq
  intro i hi
  simp only [headerFields, BitVec.getLsbD_append]
  interval_cases i <;> simp

@[simp] theorem opcodeOf_byte0 (h : WireHeader) (op : BitVec 4) : opcodeOf (h.byte0 op) = op :=
  BitVec.extractLsb'_append_eq_right

/-- No field of a well-formed header is cut by its two bytes (R84). -/
theorem headerFields_byte0_byte1 {h : WireHeader} (hwf : h.wellFormed = true) (op : BitVec 4) :
    headerFields (h.byte0 op) h.byte1 = h := by
  have hlen : h.len7 < 2 ^ 7 := Nat.lt_succ_of_le (of_decide_eq_true hwf)
  have hlen7 : (h.byte1.extractLsb' 0 7).toNat = h.len7 := by
    rw [WireHeader.byte1, BitVec.extractLsb'_append_eq_right, BitVec.toNat_ofNat, Nat.mod_eq_of_lt hlen]
  rw [headerFields, hlen7]
  simp only [WireHeader.byte0, WireHeader.byte1, BitVec.getLsbD_append]
  simp

/-! ## The opcode map -/

section
variable (op : BitVec 4) (h : WireHeader)

@[simp] theorem encode_ofOpcode : encode (.ofOpcode op h) = .header (h.word op) := by
  obtain ⟨n⟩ := op
  fin_cases n <;> rfl

@[simp] theorem wellFormed_ofOpcode : (Instr.ofOpcode op h).wellFormed = h.wellFormed := by
  obtain ⟨n⟩ := op
  fin_cases n <;> rfl

end

/-- Every instruction is a command or the wire header of one of the sixteen opcodes (R81, R90). -/
theorem Instr.command_or_ofOpcode (i : Instr) :
    (∃ v, encode i = .command v) ∨ ∃ op h, i = .ofOpcode op h := by
  cases i with
  | decode | encodeText | genPing | genPong | genClose | hsDetect | hsCompose => exact .inl ⟨_, rfl⟩
  | wsContinuation h => exact .inr ⟨0x0#4, h, rfl⟩
  | wsText h => exact .inr ⟨0x1#4, h, rfl⟩
  | wsBinary h => exact .inr ⟨0x2#4, h, rfl⟩
  | wsOpcode3 h => exact .inr ⟨0x3#4, h, rfl⟩
  | wsOpcode4 h => exact .inr ⟨0x4#4, h, rfl⟩
  | wsOpcode5 h => exact .inr ⟨0x5#4, h, rfl⟩
  | wsOpcode6 h => exact .inr ⟨0x6#4, h, rfl⟩
  | wsOpcode7 h => exact .inr ⟨0x7#4, h, rfl⟩
  | wsClose h => exact .inr ⟨0x8#4, h, rfl⟩
  | wsPing h => exact .inr ⟨0x9#4, h, rfl⟩
  | wsPong h => exact .inr ⟨0xA#4, h, rfl⟩
  | wsOpcodeB h => exact .inr ⟨0xB#4, h, rfl⟩
  | wsOpcodeC h => exact .inr ⟨0xC#4, h, rfl⟩
  | wsOpcodeD h => exact .inr ⟨0xD#4, h, rfl⟩
  | wsOpcodeE h => exact .inr ⟨0xE#4, h, rfl⟩
  | wsOpcodeF h => exact .inr ⟨0xF#4, h, rfl⟩

theorem Instr.wellFormed_of_encode_command {i : Instr} {v : Word} (h : encode i = .command v) :
    i.wellFormed = true := by
  cases i <;> cases h <;> rfl

@[simp] theorem encode_headerInstr (b0 b1 : Byte) : encode (headerInstr b0 b1) = .header (b0 ++ b1) := by
  rw [headerInstr, encode_ofOpcode, WireHeader.word, headerFields_byte0, headerFields_byte1]

theorem headerInstr_wellFormed (b0 b1 : Byte) : (headerInstr b0 b1).wellFormed = true := by
  rw [headerInstr, wellFormed_ofOpcode, headerFields_wellFormed]

theorem decode_word {h : WireHeader} (hwf : h.wellFormed = true) (op : BitVec 4) :
    decode (.header (h.word op)) = .ok (.ofOpcode op h) := by
  rw [WireHeader.word, decode_header_append, headerInstr, opcodeOf_byte0, headerFields_byte0_byte1 hwf]

/-! ## The opcode table -/

theorem opcodeTable_nodup : opcodeTable.Nodup := by decide

theorem opcodeTable_mask_eq :
    ∀ r ∈ opcodeTable, ∀ r' ∈ opcodeTable, r.width = r'.width → r.mask = r'.mask := by decide

/-- A code fixes the width of a row that accepts it, and with the row's mask the pattern. -/
theorem TableRow.eq_of_accepts {r r' : TableRow} {c : Code} (hmask : r.width = r'.width → r.mask = r'.mask)
    (hr : r.accepts c = true) (hr' : r'.accepts c = true) : r = r' := by
  obtain ⟨width, mask, pattern⟩ := r
  obtain ⟨width', mask', pattern'⟩ := r'
  cases c
  all_goals
    simp only [TableRow.accepts, Bool.and_eq_true, beq_iff_eq] at hr hr' hmask
    obtain ⟨rfl, rfl⟩ := hr
    obtain ⟨rfl, rfl⟩ := hr'
    rw [hmask rfl]

/-- The two kinds of row have one mask each, so no two rows of the table accept one code. -/
theorem opcodeTable_index_eq_of_accepts {c : Code} {j k : Nat} {r r' : TableRow} (hj : opcodeTable[j]? = some r)
    (hk : opcodeTable[k]? = some r') (hr : r.accepts c = true) (hr' : r'.accepts c = true) : j = k := by
  have hmask := opcodeTable_mask_eq r (List.mem_of_getElem? hj) r' (List.mem_of_getElem? hk)
  obtain rfl := TableRow.eq_of_accepts hmask hr hr'
  obtain ⟨hlt, -⟩ := List.getElem?_eq_some_iff.mp hj
  exact (List.getElem?_inj hlt opcodeTable_nodup).mp (hj.trans hk.symm)

theorem Laws.TableBits.statement : ∀ i : Instr, Statement i
  | .decode => decode
  | .encodeText => encodeText
  | .genPing => genPing
  | .genPong => genPong
  | .genClose => genClose
  | .hsDetect => hsDetect
  | .hsCompose => hsCompose
  | .wsContinuation h => wsContinuation h
  | .wsText h => wsText h
  | .wsBinary h => wsBinary h
  | .wsOpcode3 h => wsOpcode3 h
  | .wsOpcode4 h => wsOpcode4 h
  | .wsOpcode5 h => wsOpcode5 h
  | .wsOpcode6 h => wsOpcode6 h
  | .wsOpcode7 h => wsOpcode7 h
  | .wsClose h => wsClose h
  | .wsPing h => wsPing h
  | .wsPong h => wsPong h
  | .wsOpcodeB h => wsOpcodeB h
  | .wsOpcodeC h => wsOpcodeC h
  | .wsOpcodeD h => wsOpcodeD h
  | .wsOpcodeE h => wsOpcodeE h
  | .wsOpcodeF h => wsOpcodeF h

theorem exists_row_accepts_encode (i : Instr) :
    ∃ r, opcodeTable[i.rowIndex]? = some r ∧ r.accepts (encode i) = true :=
  (Option.any_eq_true _ _).mp (Laws.TableBits.statement i)

/-! ## The statements about the codes -/

/-- Settles O4: a command has one word, and the two bytes of a header hold every field of a well-formed one. -/
theorem decodeOfEncode : Obligations.DecodeOfEncode := by
  intro i hwf
  rcases i.command_or_ofOpcode with ⟨v, hv⟩ | ⟨op, h, rfl⟩
  · rw [hv]
    exact decodeCmd_eq_ok_iff.mpr hv
  · rw [wellFormed_ofOpcode] at hwf
    rw [encode_ofOpcode, decode_word hwf]

/-- Settles O2: a word decodes to the command whose code it is, and those codes are the words 1 to 7. -/
theorem commandDecodeIsTotal : Obligations.CommandDecodeIsTotal := by
  intro v
  have hword {i : Instr} {w : Word} (hw : encode i = .command w) : decodeCmd v = .ok i ↔ v = w := by
    rw [decodeCmd_eq_ok_iff, hw, Code.command.injEq, eq_comm]
  exact ⟨hword rfl, hword rfl, hword rfl, hword rfl, hword rfl, hword rfl, hword rfl, decodeCmd_eq_illegal_iff⟩

/-- Settles O5: a decoded command has its word as its code, and a decoded header its two bytes. -/
theorem encodeOfDecode : Obligations.EncodeOfDecode := by
  intro c i h
  cases c with
  | command v =>
    have hcode := decodeCmd_eq_ok_iff.mp h
    exact ⟨i.wellFormed_of_encode_command hcode, hcode⟩
  | header w =>
    rw [decode_header] at h
    cases h
    refine ⟨headerInstr_wellFormed _ _, ?_⟩
    rw [encode_headerInstr]
    exact congrArg Code.header BitVec.extractLsb'_append_extractLsb'

/-- Settles O6: the code is the instruction's own, which its row accepts, and no two rows accept one code. -/
theorem oneTableRowAcceptsACode : Obligations.OneTableRowAcceptsACode := by
  intro c i h k r hk
  obtain ⟨-, rfl⟩ := encodeOfDecode c i h
  obtain ⟨own, hown, haccepts⟩ := exists_row_accepts_encode i
  constructor
  · intro hr
    exact opcodeTable_index_eq_of_accepts hk hown hr haccepts
  · rintro rfl
    obtain rfl := Option.some.inj (hk.symm.trans hown)
    exact haccepts

/-- Settles O1: the ten words are fixed, and the decoder runs on them. -/
theorem tabledWordsDecode : Obligations.TabledWordsDecode := by
  unfold Obligations.TabledWordsDecode
  decide

/-- Settles O3: a bit of the header word is a bit of its high or its low byte. -/
theorem headerFieldsAreTheBits : Obligations.HeaderFieldsAreTheBits := by
  refine ⟨fun _ _ _ => rfl, fun h => ?_⟩
  have hop : opcodeOf (h.extractLsb' 8 8) = h.extractLsb' 8 4 := by
    apply BitVec.eq_of_getLsbD_eq
    intro i hi
    interval_cases i <;> simp [opcodeOf]
  have hlen : (h.extractLsb' 0 8).extractLsb' 0 7 = h.extractLsb' 0 7 :=
    BitVec.extractLsb'_extractLsb'_of_le (Nat.le_succ 7)
  rw [decode_header, headerInstr, hop, headerFields, hlen]
  simp

end Sys2Proof

namespace Sys2Proof.Machine

/-! ## The fetch -/

section
variable {s : State} (hcmd : decodeCmd s.cmd = .ok .decode)
include hcmd

/-- Under DECODE the header at the front of the input is fetched (log 1). -/
theorem State.fetch_of_header {b0 b1 : Byte} {rest : Bytes} (hin : s.input = .bytes (b0 :: b1 :: rest)) :
    s.fetch = .ok (headerInstr b0 b1) := by
  simp only [State.fetch, hcmd, hin, decodeWire]

theorem State.fetch_of_no_header (hin : ∀ b0 b1 rest, s.input ≠ .bytes (b0 :: b1 :: rest)) :
    s.fetch = .ok .decode := by
  match hs : s.input with
  | .tooLong | .unwritten => simp only [State.fetch, hcmd, hs]
  | .bytes [] | .bytes [_] => simp only [State.fetch, hcmd, hs, decodeWire]
  | .bytes (b0 :: b1 :: rest) => exact absurd hs (hin b0 b1 rest)

end

theorem State.fetch_of_command {s : State} {i : Instr} (hcmd : decodeCmd s.cmd = .ok i) (hi : i ≠ .decode) :
    s.fetch = .ok i := by
  unfold State.fetch
  split
  · rename_i hdecode
    exact absurd (Except.ok.inj (hcmd.symm.trans hdecode)) hi
  · exact hcmd

/-- Settles O8: the fetch looks at the input under the DECODE word alone, and there at two bytes (log 1). -/
theorem fetchReadsTheCommandThenTheHeader : Obligations.FetchReadsTheCommandThenTheHeader := by
  intro s
  refine ⟨fun i => State.fetch_of_command, fun hcmd => ⟨fun b0 b1 rest hin => ?_, State.fetch_of_no_header hcmd⟩⟩
  rw [decode_header_append, State.fetch_of_header hcmd hin]

end Sys2Proof.Machine
end

section
/-! SUPPORT. Proofs of the statements of 40_command_protocol.md: issue (R110) and waiting (R112), how a completion ends
(R113, R114, R116 to R118, R260) and what its outcome depends on (R120). -/

namespace Sys2Proof.Machine

/-! ## Issue and waiting -/

theorem State.regWrite_cmd_idle {s : State} (v : Word) (h : s.busy = false) :
    s.regWrite 4 Reg.cmd.offset v = .ok (s.issue v) := by
  simp [State.regWrite, regAt, Reg.offset, Reg.writable, h]

theorem State.regWrite_cmd_busy {s : State} (v : Word) (h : s.busy = true) :
    s.regWrite 4 Reg.cmd.offset v = .error .writeWhileBusy := by
  simp [State.regWrite, regAt, Reg.offset, Reg.writable, h]

/-- STATUS may be read at any time (R297). -/
theorem State.regRead_status (s : State) : s.regRead 4 Reg.status.offset = .ok s.status := by
  simp [State.regRead, regAt, Reg.offset, Reg.readableWhileBusy, State.reg]

/-- A poll while the command is pending changes nothing (R94). -/
theorem State.hostStep_wait_busy {s : State} {rest : List HostOp} (hb : s.busy = true)
    (hs : s.host.script = .wait :: rest) : s.hostStep = .next s := by
  have hst : statusBusy s.status = true := hb
  simp only [State.hostStep, hs, State.hostWait, State.regRead_status, hst, if_true]

/-- On a turn of the host, a poll while the command is pending uses up the turn and nothing else. -/
theorem step_of_wait_busy {s : State} {l : List Agent} {rest : List HostOp} (hsched : s.schedule = .host :: l)
    (hb : s.busy = true) (hs : s.host.script = .wait :: rest) : step s = .next { s with schedule := l } := by
  rw [step, hsched]
  exact State.hostStep_wait_busy (s := { s with schedule := l }) hb hs

/-! ## The ends of a completion -/

section
variable (s : State) (c : ErrCode) (e : Effect)

theorem State.raise_statusIs : StatusIs s (s.raise c) c :=
  ⟨State.raise_busy s c, State.raise_err s c, statusCompleted_others _ _⟩

theorem State.commit_statusIs : StatusIs s (s.commit e) .success :=
  ⟨State.commit_busy s, State.commit_err s, statusCompleted_others _ _⟩

/-- An error is all of R114's effect. -/
theorem State.raise_failsWith : FailsWith s (s.raise c) c :=
  ⟨s.raise_statusIs c, s.raise_sameInputs c, s.raise_sameFrame c, s.raise_sameOutput c, rfl⟩

theorem State.finish_statusIs (r : Except ErrCode Effect) : ∃ c, StatusIs s (s.finish r) c := by
  rcases s.finish_cases r with ⟨c, -, hf⟩ | ⟨e, -, -, hf⟩ | ⟨e, -, -, hf⟩ <;> rw [hf]
  · exact ⟨c, s.raise_statusIs c⟩
  · exact ⟨.outOverflow, s.raise_statusIs .outOverflow⟩
  · exact ⟨.success, s.commit_statusIs e⟩

end

/-! ## A completion, by its input -/

section
variable {i : Instr} {s : State}

theorem exec_of_tooLong (hr : i.readsInput = true) (h : s.input = .tooLong) :
    exec i s = .next (s.raise .inLenRange) := by
  rw [exec_eq, if_pos hr, State.completeReading, h]

theorem exec_of_unwritten (hr : i.readsInput = true) (h : s.input = .unwritten) :
    exec i s = .fault .unwrittenInput := by
  rw [exec_eq, if_pos hr, State.completeReading, h]

/-- The generators make no use of the sequence `perform` is given. -/
theorem perform_of_not_readsInput (hr : i.readsInput = false) (c : Config) (bs : Bytes) :
    i.perform c bs = i.perform c [] := by
  cases i with
  | genPing | genPong | genClose => rfl
  | _ => cases hr

theorem exec_of_bytes {bs : Bytes} (h : i.readsInput = true → s.input = .bytes bs) :
    exec i s = .next (s.finish (i.perform s.cfg bs)) := by
  rw [exec_eq]
  cases hr : i.readsInput with
  | true => rw [if_pos rfl, State.completeReading_bytes (h hr)]
  | false => rw [perform_of_not_readsInput hr s.cfg bs]; rfl

end

/-- An error of `perform` is an instruction's own, not one of the interface (R260). -/
theorem perform_error_own {i : Instr} {c : Config} {bs : Bytes} {e : ErrCode} (h : i.perform c bs = .error e) :
    e ≠ .success ∧ e ≠ .inLenRange ∧ e ≠ .outOverflow := by
  rcases perform_error h with ⟨-, rfl | rfl | rfl⟩ | ⟨-, rfl⟩ | ⟨-, rfl⟩ <;> simp

/-- Where each interface error comes from: IN_LEN_RANGE from an input longer than IN (R116), OUT_OVERFLOW from an
effect that does not fit OUT (R118). -/
theorem exec_err_cases {i : Instr} {s t : State} (h : exec i s = .next t) :
    (i.readsInput = true ∧ t.err = ErrCode.inLenRange.code)
      ∨ (∃ bs e, (i.readsInput = true → s.input = .bytes bs) ∧ i.perform s.cfg bs = .ok e
          ∧ e.overflows s.cfg.outCap = true ∧ t.err = ErrCode.outOverflow.code)
      ∨ ∃ c : ErrCode, c ≠ .inLenRange ∧ c ≠ .outOverflow ∧ t.err = c.code := by
  rcases exec_cases i s with ⟨hr, -, he⟩ | ⟨-, -, he⟩ | ⟨bs, hin, -, he⟩ <;> rw [he] at h <;> cases h
  · exact .inl ⟨hr, State.raise_err s _⟩
  · rcases s.finish_cases (i.perform s.cfg bs) with ⟨c, hc, hf⟩ | ⟨e, hok, hover, hf⟩ | ⟨e, -, -, hf⟩ <;> rw [hf]
    · obtain ⟨-, hlen, hout⟩ := perform_error_own hc
      exact .inr (.inr ⟨c, hlen, hout, State.raise_err s c⟩)
    · exact .inr (.inl ⟨bs, e, hin, hok, hover, State.raise_err s _⟩)
    · exact .inr (.inr ⟨.success, by simp, by simp, State.commit_err s⟩)

/-- Only what reads IN raises IN_LEN_RANGE. -/
theorem readsInput_of_exec_inLenRange {i : Instr} {s t : State} (h : exec i s = .next t)
    (he : t.err = ErrCode.inLenRange.code) : i.readsInput = true := by
  rcases exec_err_cases h with ⟨hr, -⟩ | ⟨bs, e, -, -, -, hc⟩ | ⟨c, hc, -, hcode⟩
  · exact hr
  · exact absurd (ErrCode.code_injective (he.symm.trans hc)) (by simp)
  · exact absurd (ErrCode.code_injective (hcode.symm.trans he)) hc

/-! ## Outputs and their lengths -/

theorem Effect.overflows_iff {e : Effect} {cap : Word} :
    e.overflows cap = true ↔ ∃ o, e.out = some o ∧ cap.toNat < o.length := by
  unfold Effect.overflows
  split <;> simp_all

/-- Only an output longer than OUT_CAP raises OUT_OVERFLOW. -/
theorem output_of_exec_outOverflow {i : Instr} {s t : State} (h : exec i s = .next t)
    (he : t.err = ErrCode.outOverflow.code) :
    ∃ bs e o, (i.readsInput = true → s.input = .bytes bs) ∧ i.perform s.cfg bs = .ok e ∧ e.out = some o
      ∧ s.cfg.outCap.toNat < o.length := by
  rcases exec_err_cases h with ⟨-, hc⟩ | ⟨bs, e, hin, hok, hover, -⟩ | ⟨c, -, hc, hcode⟩
  · exact absurd (ErrCode.code_injective (he.symm.trans hc)) (by simp)
  · obtain ⟨o, ho, hlen⟩ := Effect.overflows_iff.mp hover
    exact ⟨bs, e, o, hin, hok, ho, hlen⟩
  · exact absurd (ErrCode.code_injective (hcode.symm.trans he)) hc

section
variable {i : Instr} {c : Config} {bs o : Bytes} {e : Effect} (h : i.perform c bs = .ok e) (ho : e.out = some o)
include h ho

/-- A generated control frame is two bytes (R92). -/
theorem perform_out_length_of_generator (hr : i.readsInput = false) : o.length = 2 := by
  cases i with
  | genPing | genPong | genClose => cases h; cases ho; rfl
  | _ => cases hr

/-- A payload is no longer than its frame (R141, R151), and a text frame at most 10 bytes longer than its payload
(R172). -/
theorem perform_out_length_le (hi : i.isDecode = true ∨ i = .encodeText) : o.length ≤ bs.length + 10 := by
  rcases hi with hd | rfl
  · rcases perform_ok h with ⟨-, b0, b1, x, -, hp, rfl⟩ | ⟨rfl, -⟩ | ⟨hd', -⟩
    · cases ho
      simp only [applyMask_length, List.length_take, List.length_drop]
      omega
    · cases hd
    · simp [hd] at hd'
  · simp only [Instr.perform, performEncodeText] at h
    split at h
    · cases h
    · cases h
      cases ho
      rw [List.length_append, textHeader_length]
      split_ifs <;> omega

end

/-! ## The header's meaning on its own frame -/

section
variable (op : BitVec 4) (h : WireHeader)

@[simp] theorem readsInput_ofOpcode : (Instr.ofOpcode op h).readsInput = true := by
  obtain ⟨n⟩ := op
  fin_cases n <;> rfl

/-- Every wire header is decoded by its two bytes (R138, R150). -/
@[simp] theorem perform_ofOpcode (c : Config) (bs : Bytes) :
    (Instr.ofOpcode op h).perform c bs = decodeFrame (h.byte0 op) h.byte1 bs := by
  obtain ⟨n⟩ := op
  fin_cases n <;> rfl

end

/-- On a frame that begins with its two bytes, a wire header's `perform` is DECODE's (R150). -/
theorem perform_headerInstr (c : Config) (b0 b1 : Byte) (rest : Bytes) :
    (headerInstr b0 b1).perform c (b0 :: b1 :: rest) = Instr.decode.perform c (b0 :: b1 :: rest) := by
  rw [headerInstr, perform_ofOpcode, headerFields_byte0, headerFields_byte1]
  rfl

theorem exec_headerInstr {s : State} {b0 b1 : Byte} {rest : Bytes} (hin : s.input = .bytes (b0 :: b1 :: rest)) :
    exec (headerInstr b0 b1) s = exec .decode s := by
  rw [exec_of_bytes fun _ => hin, exec_of_bytes fun _ => hin, perform_headerInstr]

/-- The completion of the DECODE word is DECODE's, whatever is fetched (log 1). -/
theorem State.complete_of_decodeWord {s : State} (hcmd : decodeCmd s.cmd = .ok .decode) :
    s.complete = exec .decode s := by
  by_cases hin : ∃ b0 b1 rest, s.input = .bytes (b0 :: b1 :: rest)
  · obtain ⟨b0, b1, rest, hin⟩ := hin
    rw [State.complete_of_fetch (State.fetch_of_header hcmd hin), exec_headerInstr hin]
  · push Not at hin
    exact State.complete_of_fetch (State.fetch_of_no_header hcmd hin)

/-! ## What the outcome depends on -/

/-- The results an instruction writes on success (R81) are the same in two states: the output sequence, RESULT, the
frame-field registers. -/
def SameWrittenResults (i : Instr) (t v : State) : Prop :=
  (i ≠ .hsDetect → t.outLen = v.outLen ∧ ∀ a < t.outLen.toNat, Memory.read t.outBuf a = Memory.read v.outBuf a)
    ∧ (i = .hsDetect → t.result = v.result)
    ∧ (i.isDecode = true → t.frCtrl = v.frCtrl ∧ t.frPlenLo = v.frPlenLo ∧ t.frPlenHi = v.frPlenHi
        ∧ t.frMaskKey = v.frMaskKey ∧ t.frFrameLen = v.frFrameLen)

section
variable (s u : State) {e : Effect}

/-- A listed output is in OUT[0 .. OUT_LEN-1], whatever stood there (R119). -/
theorem State.commit_output_eq {o : Bytes} (ho : e.out = some o) :
    (s.commit e).outLen = (u.commit e).outLen
      ∧ ∀ a < (s.commit e).outLen.toNat, Memory.read (s.commit e).outBuf a = Memory.read (u.commit e).outBuf a := by
  obtain ⟨out, fr, res⟩ := e
  cases ho
  refine ⟨rfl, fun a ha => ?_⟩
  have hle : (BitVec.ofNat 32 o.length).toNat ≤ o.length := Nat.mod_le _ _
  rw [State.commit_some_outLen] at ha
  rw [State.commit_some_outBuf, State.commit_some_outBuf, Memory.read_writeBytes, Memory.read_writeBytes,
    if_pos (by omega), if_pos (by omega)]

/-- An effect of `perform` lists every result the instruction writes, so its commit is the same from any state. -/
theorem State.commit_sameWrittenResults {i : Instr} {c : Config} {bs : Bytes} (h : i.perform c bs = .ok e) :
    SameWrittenResults i (s.commit e) (u.commit e) := by
  rcases perform_ok h with ⟨hd, b0, b1, x, -, -, rfl⟩ | ⟨rfl, rfl⟩ | ⟨hd, hne, o, rfl⟩
  · refine ⟨fun _ => s.commit_output_eq u rfl, ?_, fun _ => ⟨rfl, rfl, rfl, rfl, rfl⟩⟩
    rintro rfl
    cases hd
  · exact ⟨fun hne => absurd rfl hne, fun _ => rfl, fun hd => by cases hd⟩
  · exact ⟨fun _ => s.commit_output_eq u rfl, fun hi => absurd hi hne, fun hd' => by simp [hd] at hd'⟩

/-- Two ends of one `perform` under one OUT_CAP have the same ERR and on success the same results. -/
theorem State.finish_sameOutcome {i : Instr} {c : Config} {bs : Bytes} (hcap : s.cfg.outCap = u.cfg.outCap) :
    (s.finish (i.perform c bs)).err = (u.finish (i.perform c bs)).err
      ∧ ((s.finish (i.perform c bs)).err = 0#4 →
          SameWrittenResults i (s.finish (i.perform c bs)) (u.finish (i.perform c bs))) := by
  cases hp : i.perform c bs with
  | error c =>
    obtain ⟨hne, -⟩ := perform_error_own hp
    simp only [State.finish, State.raise_err]
    exact ⟨trivial, fun h0 => absurd h0 (ErrCode.code_ne_zero hne)⟩
  | ok e =>
    simp only [State.finish, ← hcap]
    split
    · simp only [State.raise_err]
      exact ⟨trivial, fun h0 => absurd h0 (ErrCode.code_ne_zero (by simp))⟩
    · simp only [State.commit_err]
      exact ⟨trivial, fun _ => s.commit_sameWrittenResults u hp⟩

end

/-! ## The statements -/

/-- Settles O41: the write is the issue, which touches CMD and STATUS.BUSY alone. -/
theorem issueSetsCmdAndBusy : Obligations.IssueSetsCmdAndBusy :=
  fun s v => ⟨fun h => ⟨s.issue v, State.regWrite_cmd_idle v h, rfl, statusBusy_withBusy _ _, statusErr_withBusy _ _,
    statusWithBusy_others _ _, rfl⟩, State.regWrite_cmd_busy v⟩

/-- Settles O9: what is fetched under the DECODE word has DECODE's meaning on the input it was fetched from. -/
theorem decodeWordRunsDecode : Obligations.DecodeWordRunsDecode := by
  intro s hb hcmd hs
  have hdecode : decodeCmd s.cmd = .ok .decode := by rw [hcmd]; rfl
  rw [step_of_pending hs hb, State.complete_of_decodeWord hdecode]

/-- Settles O11: a completion is an error, or a commit, whose ERR is 0. -/
theorem failedCommandChangesOnlyStatus : Obligations.FailedCommandChangesOnlyStatus := by
  intro s t h herr
  have hend : (∃ c, c ≠ .success ∧ t = s.raise c) ∨ ∃ e, t = s.commit e := by
    rcases h with h | ⟨i, h⟩
    · exact (State.complete_next_cases h).imp_right fun ⟨_, _, e, _, _, _, _, ht⟩ => ⟨e, ht⟩
    · exact (exec_next h).imp_right fun ⟨_, e, _, _, _, ht⟩ => ⟨e, ht⟩
  rcases hend with ⟨c, hc, rfl⟩ | ⟨e, rfl⟩
  · exact ⟨c, hc, s.raise_failsWith c⟩
  · exact absurd (State.commit_err s) herr

/-- Settles O13: two of the three ways an instruction can go end in an error or a commit. -/
theorem completionEndsOrInputIsUnwritten : Obligations.CompletionEndsOrInputIsUnwritten := by
  intro i s
  rcases exec_cases i s with ⟨-, -, he⟩ | ⟨hr, hin, he⟩ | ⟨bs, -, -, he⟩
  · exact .inl ⟨_, _, he, s.raise_statusIs .inLenRange⟩
  · exact .inr ⟨he, hr, hin⟩
  · obtain ⟨c, hc⟩ := s.finish_statusIs (i.perform s.cfg bs)
    exact .inl ⟨_, c, he, hc⟩

/-- Settles O14: the check of IN_LEN comes first for what reads IN, and nothing else raises its error. -/
theorem inLenAboveCapacityFails : Obligations.InLenAboveCapacityFails := by
  refine fun i s => ⟨fun hr hlen => ?_, fun hr t h he => ?_⟩
  · exact ⟨_, exec_of_tooLong hr (State.input_eq_tooLong.mpr hlen), s.raise_failsWith _⟩
  · simp [readsInput_of_exec_inLenRange h he] at hr

/-- Settles O15: a buffer in canonical form reads as a sequence iff each of its bytes is written. -/
theorem unwrittenInputByteFaults : Obligations.UnwrittenInputByteFaults := by
  refine fun i s hr hwf hle => ⟨fun ⟨a, ha, hnone⟩ => ?_, fun hall => ?_⟩
  · refine exec_of_unwritten hr (State.input_eq_unwritten.mpr ⟨hle, ?_⟩)
    by_contra hsome
    have hwritten := (Memory.filled_iff hwf _).mp (Option.isSome_iff_ne_none.mpr hsome) a ha
    simp [hnone] at hwritten
  · have hfilled : Memory.filled s.inLen.toNat s.inBuf = true :=
      (Memory.filled_iff hwf _).mpr fun a ha => Option.isSome_iff_ne_none.mpr (hall a ha)
    obtain ⟨bs, hbs⟩ := Option.isSome_iff_exists.mp hfilled
    exact ⟨_, exec_of_bytes fun _ => State.input_eq_bytes.mpr ⟨hle, hbs⟩⟩

/-- Settles O16: only an output longer than OUT_CAP raises the error; a generated frame is 2 bytes and the other
outputs are at most 10 bytes longer than the input, which fits IN. -/
theorem outputAboveCapacityFails : Obligations.OutputAboveCapacityFails := by
  refine fun i s => ⟨fun bs e o hin hok ho hlen => ?_, fun hr hcap t h he => ?_, fun hi hcap t h he => ?_⟩
  · have hover : e.overflows s.cfg.outCap = true := Effect.overflows_iff.mpr ⟨o, ho, hlen⟩
    refine ⟨s.raise .outOverflow, ?_, s.raise_failsWith _⟩
    rw [exec_of_bytes hin, hok, State.finish, if_pos hover]
  · obtain ⟨bs, e, o, -, hok, ho, hlen⟩ := output_of_exec_outOverflow h he
    have := perform_out_length_of_generator hok ho hr
    omega
  · obtain ⟨bs, e, o, hin, hok, ho, hlen⟩ := output_of_exec_outOverflow h he
    have hr : i.readsInput = true := by
      rcases hi with hd | rfl
      · exact Instr.readsInput_of_isDecode hd
      · rfl
    have hout := perform_out_length_le hok ho hi
    obtain ⟨-, hbs⟩ := State.input_length (hin hr)
    omega

/-- Settles O17: `perform` is given the input and the configuration alone, and lists every result that is written. -/
theorem outcomeIsAFunctionOfTheInput : Obligations.OutcomeIsAFunctionOfTheInput := by
  intro i s u hcfg hsame
  rcases exec_cases i s with ⟨hr, hin, he⟩ | ⟨hr, hin, he⟩ | ⟨bs, hin, -, he⟩
  · refine .inr ⟨_, _, he, exec_of_tooLong hr ((hsame hr).symm.trans hin), by simp, fun h0 => ?_⟩
    exact absurd (State.raise_err s .inLenRange ▸ h0) (ErrCode.code_ne_zero (by simp))
  · exact .inl ⟨_, he, exec_of_unwritten hr ((hsame hr).symm.trans hin)⟩
  · have hu := exec_of_bytes (s := u) fun hr => (hsame hr).symm.trans (hin hr)
    rw [← hcfg] at hu
    obtain ⟨herr, hres⟩ := s.finish_sameOutcome u (i := i) (c := s.cfg) (bs := bs) (congrArg Config.outCap hcfg)
    exact .inr ⟨_, _, he, hu, herr, hres⟩

/-- Settles O52, by induction on the turns that put the codec off: each is a poll that finds BUSY = 1 (log 5). -/
theorem pollingHostReachesTheCompletion : Obligations.PollingHostReachesTheCompletion := by
  intro n
  induction n with
  | zero =>
    intro s hb hs _
    have hnil : s.schedule = [] := hs
    rw [core_run_one, step_of_pending hnil hb, ← hnil]
  | succ n ih =>
    intro s hb hs ⟨rest, hscript⟩
    rw [core_run_succ (step_of_wait_busy hs hb hscript)]
    exact ih { s with schedule := List.replicate n .host } hb rfl ⟨rest, hscript⟩

end Sys2Proof.Machine
end

section
/-! SUPPORT. Proofs of the statements of 41_frame_decode.md: the mask applicator (R140, R143), the length decoder (R93,
R134 to R137), the errors of DECODE in their order (R152) and its completion on a whole frame (R138, R142, R151). -/

namespace Sys2Proof.Machine

/-! ## The mask applicator -/

theorem applyMask_getElem? (k : MaskKey) (w : Bytes) (j : Nat) :
    (applyMask k w)[j]? = w[j]?.map (· ^^^ k.lane j) := by
  rw [applyMask, applyMaskFrom_getElem?, Nat.zero_add]

/-- Each byte is XORed with the same lane of the key both times (R143). -/
@[simp] theorem applyMask_applyMask (k : MaskKey) (w : Bytes) : applyMask k (applyMask k w) = w := by
  apply List.ext_getElem?
  intro j
  simp only [applyMask_getElem?, Option.map_map]
  cases w[j]? <;> simp

/-! ## Big-endian integers -/

theorem bigEndian_append (bs cs : Bytes) : bigEndian (bs ++ cs) = bigEndian bs * 256 ^ cs.length + bigEndian cs := by
  induction cs using List.reverseRecOn with
  | nil => simp [bigEndian]
  | append_singleton cs c ih =>
    rw [← List.append_assoc, bigEndian_append_singleton, bigEndian_append_singleton, ih, List.length_append]
    simp only [List.length_singleton, pow_succ]
    ring

theorem bigEndian_lt (bs : Bytes) : bigEndian bs < 256 ^ bs.length := by
  induction bs using List.reverseRecOn with
  | nil => simp [bigEndian]
  | append_singleton bs b ih =>
    have := b.isLt
    rw [bigEndian_append_singleton, List.length_append, List.length_singleton, pow_succ]
    omega

theorem pow_256_eq_two_pow (n : Nat) : 256 ^ n = 2 ^ (8 * n) := (pow_mul 2 8 n).symm

/-- The head of a big-endian sequence is its most significant byte (R62, R93). -/
theorem bigEndian_cons (b : Byte) (bs : Bytes) :
    bigEndian (b :: bs) = (b.toNat <<< (8 * bs.length)) ||| bigEndian bs := by
  have hlt := bigEndian_lt bs
  rw [pow_256_eq_two_pow] at hlt
  rw [← Nat.shiftLeft_add_eq_or_of_lt hlt, Nat.shiftLeft_eq, ← pow_256_eq_two_pow]
  simpa [bigEndian] using bigEndian_append [b] bs

theorem bigEndian_bigEndianBytes (n v : Nat) : bigEndian (bigEndianBytes n v) = v % 256 ^ n := by
  induction n with
  | zero => simp [bigEndianBytes, bigEndian, Nat.mod_one]
  | succ n ih =>
    have happ := bigEndian_append [BitVec.ofNat 8 (v >>> (8 * n))] (bigEndianBytes n v)
    have hhead : bigEndian [BitVec.ofNat 8 (v >>> (8 * n))] = v / 256 ^ n % 256 := by
      simp [bigEndian, Nat.shiftRight_eq_div_pow, pow_256_eq_two_pow]
    rw [bigEndianBytes, ← List.singleton_append, happ, hhead, ih, bigEndianBytes_length, pow_succ, Nat.mod_mul]
    ring

/-- A window of a sequence that lies in it, one byte at a time. -/
theorem bigEndian_window {s : Bytes} {i n : Nat} (h : i + n < s.length) :
    bigEndian ((s.drop i).take (n + 1))
      = ((s.getD i 0#8).toNat <<< (8 * n)) ||| bigEndian ((s.drop (i + 1)).take n) := by
  have hi : i < s.length := by omega
  have hlen : ((s.drop (i + 1)).take n).length = n := by simp; omega
  rw [List.drop_eq_getElem_cons hi, List.take_succ_cons, bigEndian_cons, hlen, List.getD_eq_getElem _ _ hi]

theorem bigEndian_two_eq_wireLength {s : Bytes} (h : 4 ≤ s.length) :
    bigEndian ((s.drop 2).take 2) = wireLength 126 s := by
  rw [bigEndian_window (by omega), bigEndian_window (by omega)]
  simp [wireLength, bigEndian]

theorem bigEndian_eight_eq_wireLength {s : Bytes} (h : 10 ≤ s.length) :
    bigEndian ((s.drop 2).take 8) = wireLength 127 s := by
  iterate 8 rw [bigEndian_window (by omega)]
  simp [wireLength, bigEndian, Nat.or_assoc]

/-! ## The length decoder -/

section
variable (s : Bytes)

/-- LEN7 up to 125 is the length (R134). -/
theorem lengthField_short {n : Nat} (h : n ≤ 125) : lengthField n s = .ok (0, n) := if_pos h

/-- The 16-bit form (R135). -/
theorem lengthField_mid :
    lengthField 126 s = if s.length < 4 then .error .truncHeader else .ok (2, wireLength 126 s) := by
  by_cases h : s.length < 4
  · simp [lengthField, h]
  · simp [lengthField, h, bigEndian_two_eq_wireLength (Nat.not_lt.mp h)]

/-- The 64-bit form, with lengths from 2^63 on rejected (R136, R137). -/
theorem lengthField_long :
    lengthField 127 s = if s.length < 10 then .error .truncHeader
      else if 2 ^ 63 ≤ wireLength 127 s then .error .lenRange else .ok (8, wireLength 127 s) := by
  by_cases h : s.length < 10
  · simp [lengthField, h]
  · simp [lengthField, h, bigEndian_eight_eq_wireLength (Nat.not_lt.mp h)]

end

/-! ## The errors of DECODE -/

theorem len7Of_le (s : Bytes) : len7Of s ≤ 127 := Nat.le_of_lt_succ (BitVec.isLt _)

/-- The length decoder, by its errors in the order of R152. -/
theorem lengthField_eq {len7 : Nat} (h : len7 ≤ 127) (s : Bytes) :
    lengthField len7 s =
      if (len7 = 126 ∧ s.length < 4) ∨ (len7 = 127 ∧ s.length < 10) then .error .truncHeader
      else if len7 = 127 ∧ 2 ^ 63 ≤ wireLength len7 s then .error .lenRange
      else .ok (extOfLen7 len7, wireLength len7 s) := by
  obtain h7 | rfl | rfl : len7 ≤ 125 ∨ len7 = 126 ∨ len7 = 127 := by omega
  · have h126 : len7 ≠ 126 := by omega
    have h127 : len7 ≠ 127 := by omega
    simp [lengthField_short s h7, h126, h127, extOfLen7, wireLength, h7]
  · simp [lengthField_mid, extOfLen7]
  · simp [lengthField_long, extOfLen7]

/-- The mask key of an input whose header has `n` bytes before it (R139). -/
def keyAt (masked : Bool) (n : Nat) (s : Bytes) : MaskKey :=
  if masked then ⟨byteAt s n, byteAt s (n + 1), byteAt s (n + 2), byteAt s (n + 3)⟩ else .zero

theorem maskField_eq (masked : Bool) (n : Nat) (s : Bytes) :
    maskField masked n s =
      if masked = true ∧ s.length < n + (if masked then 4 else 0) then .error .truncHeader
      else .ok (keyAt masked n s, n + if masked then 4 else 0) := by
  cases masked <;> simp [maskField, keyAt]

/-- The header of a frame, by its errors in the order of R152: the length decoder's, then the mask key's. -/
theorem frameExtent_eq (masked : Bool) {len7 : Nat} (h : len7 ≤ 127) (s : Bytes) :
    frameExtent masked len7 s =
      if s.length < 2 ∨ (len7 = 126 ∧ s.length < 4) ∨ (len7 = 127 ∧ s.length < 10) then .error .truncHeader
      else if len7 = 127 ∧ 2 ^ 63 ≤ wireLength len7 s then .error .lenRange
      else if masked = true ∧ s.length < 2 + extOfLen7 len7 + (if masked then 4 else 0) then .error .truncHeader
      else .ok ⟨2 + extOfLen7 len7 + if masked then 4 else 0, wireLength len7 s,
        keyAt masked (2 + extOfLen7 len7) s⟩ := by
  unfold frameExtent
  by_cases h2 : s.length < 2
  · rw [if_pos h2, if_pos (.inl h2)]
  · rw [if_neg h2, lengthField_eq h s]
    simp only [h2, false_or]
    by_cases htrunc : (len7 = 126 ∧ s.length < 4) ∨ (len7 = 127 ∧ s.length < 10)
    · rw [if_pos htrunc, if_pos htrunc]
    · rw [if_neg htrunc, if_neg htrunc]
      by_cases hrange : len7 = 127 ∧ 2 ^ 63 ≤ wireLength len7 s
      · rw [if_pos hrange, if_pos hrange]
      · rw [if_neg hrange, if_neg hrange]
        dsimp only
        rw [maskField_eq]
        by_cases hkey : masked = true ∧ s.length < 2 + extOfLen7 len7 + if masked then 4 else 0
        · rw [if_pos hkey, if_pos hkey]
        · rw [if_neg hkey, if_neg hkey]

section
variable {b0 b1 : Byte} {s : Bytes}

theorem decodeFrame_of_extent_error {c : ErrCode}
    (hx : frameExtent (headerFields b0 b1).masked (headerFields b0 b1).len7 s = .error c) :
    decodeFrame b0 b1 s = .error c := by
  rw [decodeFrame, hx]

theorem decodeFrame_of_extent_ok {x : Extent}
    (hx : frameExtent (headerFields b0 b1).masked (headerFields b0 b1).len7 s = .ok x) :
    decodeFrame b0 b1 s =
      if s.length - x.hdr < x.plen then .error .truncPayload else .ok (frameEffect b0 b1 x s) := by
  rw [decodeFrame, hx]

end

section
variable (s : Bytes)

/-- The extent of the frame at the front of an input, as its bytes tell it (R31, R93, R139). -/
def extentOf : Extent :=
  ⟨hdrLenOf s, wireLength (len7Of s) s, keyAt (maskOf s) (2 + extOfLen7 (len7Of s)) s⟩

/-- DECODE ends with the first error of the list of R152, and with none decodes the frame at the front. -/
theorem performDecode_eq :
    performDecode s =
      (firstDecodeError s).elim (.ok (frameEffect (byteAt s 0) (byteAt s 1) (extentOf s) s)) .error := by
  have hx := frameExtent_eq (maskOf s) (len7Of_le s) s
  rw [firstDecodeError]
  by_cases htrunc : s.length < 2 ∨ (len7Of s = 126 ∧ s.length < 4) ∨ (len7Of s = 127 ∧ s.length < 10)
  · rw [if_pos htrunc] at hx ⊢
    exact decodeFrame_of_extent_error hx
  · rw [if_neg htrunc] at hx ⊢
    by_cases hrange : len7Of s = 127 ∧ 2 ^ 63 ≤ wireLength (len7Of s) s
    · rw [if_pos hrange] at hx ⊢
      exact decodeFrame_of_extent_error hx
    · rw [if_neg hrange] at hx ⊢
      by_cases hkey : maskOf s = true ∧ s.length < hdrLenOf s
      · rw [if_pos hkey]
        exact decodeFrame_of_extent_error (hx.trans (if_pos hkey))
      · rw [if_neg hkey]
        have hframe := decodeFrame_of_extent_ok (b0 := byteAt s 0) (hx.trans (if_neg hkey))
        by_cases hpay : s.length - hdrLenOf s < wireLength (len7Of s) s
        · rw [if_pos hpay]
          exact hframe.trans (if_pos hpay)
        · rw [if_neg hpay]
          exact hframe.trans (if_neg hpay)

variable {s}

theorem performDecode_of_error {c : ErrCode} (h : firstDecodeError s = some c) : performDecode s = .error c := by
  rw [performDecode_eq, h]
  rfl

theorem performDecode_of_no_error (h : firstDecodeError s = none) :
    performDecode s = .ok (frameEffect (byteAt s 0) (byteAt s 1) (extentOf s) s) := by
  rw [performDecode_eq, h]
  rfl

/-- A frame without an error of R152 lies within the input (R142). -/
theorem frame_within_of_no_error (h : firstDecodeError s = none) :
    hdrLenOf s + wireLength (len7Of s) s ≤ s.length := by
  obtain ⟨x, hx, -⟩ := decodeFrame_ok (performDecode_of_no_error h)
  have hhdr : hdrLenOf s ≤ s.length := (frameExtent_hdr hx).symm.trans_le (frameExtent_hdr_le hx)
  have hpay : ¬ s.length - hdrLenOf s < wireLength (len7Of s) s := by
    unfold firstDecodeError at h
    split_ifs at h
    assumption
  omega

end

/-! ## The end of DECODE -/

/-- An input is counted by a 32-bit register (R28). -/
theorem State.input_length_lt {s : State} {bs : Bytes} (h : s.input = .bytes bs) : bs.length < 2 ^ 32 :=
  (State.input_length h).1.trans_lt s.inLen.isLt

section
variable {t : State} {b0 b1 : Byte} {x : Extent} {s : Bytes}

theorem exec_decode_of_error {c : ErrCode} (hin : t.input = .bytes s) (h : performDecode s = .error c) :
    exec .decode t = .next (t.raise c) := by
  rw [exec_of_bytes fun _ => hin, Instr.perform, h]
  rfl

/-- The output of a frame whose payload is in the input is as long as the payload (R151). -/
theorem frameEffect_overflows (hp : x.plen ≤ s.length - x.hdr) (cap : Word) :
    (frameEffect b0 b1 x s).overflows cap = decide (cap.toNat < x.plen) := by
  simp [Effect.overflows, frameEffect, hp]

section
variable (hin : t.input = .bytes s) (h : performDecode s = .ok (frameEffect b0 b1 x s))
  (hp : x.plen ≤ s.length - x.hdr)
include hin h hp

/-- A payload longer than OUT is OUT_OVERFLOW (R118). -/
theorem exec_decode_overflows (hcap : t.cfg.outCap.toNat < x.plen) :
    exec .decode t = .next (t.raise .outOverflow) := by
  rw [exec_of_bytes fun _ => hin, Instr.perform, h]
  simp [State.finish, frameEffect_overflows hp, hcap]

/-- A payload that fits OUT is committed with its frame (R151). -/
theorem exec_decode_commits (hcap : x.plen ≤ t.cfg.outCap.toNat) :
    exec .decode t = .next (t.commit (frameEffect b0 b1 x s)) := by
  rw [exec_of_bytes fun _ => hin, Instr.perform, h]
  simp [State.finish, frameEffect_overflows hp, hcap]

end

variable (t)

/-- OUT_LEN is the payload length of a frame whose payload is in the input and fits OUT (R151). -/
theorem State.commit_frameEffect_outLen_toNat (hp : x.plen ≤ s.length - x.hdr)
    (hcap : x.plen ≤ t.cfg.outCap.toNat) :
    (t.commit (frameEffect b0 b1 x s)).outLen.toNat = x.plen := by
  have := t.cfg.outCap.isLt
  rw [State.commit_frameEffect_outLen hp, plenLoWord, BitVec.toNat_ofNat, Nat.mod_eq_of_lt (by omega)]

end

/-! ## A whole frame -/

theorem LenForm.extension_eq (f : LenForm) (n : Nat) : f.extension n = bigEndianBytes f.ext n := by
  cases f <;> rfl

@[simp] theorem LenForm.extension_length (f : LenForm) (n : Nat) : (f.extension n).length = f.ext := by
  rw [LenForm.extension_eq, bigEndianBytes_length]

/-- The extended length carries every length of its form (R85). -/
theorem LenForm.bigEndian_extension {f : LenForm} {n : Nat} (hn : f.carries n) (hf : f ≠ .short) :
    bigEndian (f.extension n) = n := by
  rw [LenForm.extension_eq, bigEndian_bigEndianBytes]
  apply Nat.mod_eq_of_lt
  cases f with
  | short => exact absurd rfl hf
  | mid => exact Nat.lt_succ_of_le hn
  | long => exact lt_trans hn (by decide)

/-- The length decoder reads back the length of each form (R85, R134 to R137). -/
theorem lengthField_extension {f : LenForm} {n : Nat} (hn : f.carries n) (b0 b1 : Byte) (rest : Bytes) :
    lengthField (f.len7 n) (b0 :: b1 :: (f.extension n ++ rest)) = .ok (f.ext, n) := by
  have hlen : 2 + f.ext ≤ (b0 :: b1 :: (f.extension n ++ rest)).length := by simp; omega
  have hwindow : ((b0 :: b1 :: (f.extension n ++ rest)).drop 2).take f.ext = f.extension n :=
    List.take_left' (f.extension_length n)
  have hbig := f.bigEndian_extension hn
  rw [← hwindow] at hbig
  cases f with
  | short => exact lengthField_short _ hn
  | mid =>
    have hwire := (bigEndian_two_eq_wireLength hlen).symm.trans (hbig (by decide))
    rw [LenForm.len7, lengthField_mid, hwire]
    exact if_neg (Nat.not_lt.mpr hlen)
  | long =>
    have hwire := (bigEndian_eight_eq_wireLength hlen).symm.trans (hbig (by decide))
    rw [LenForm.len7, lengthField_long, hwire]
    exact (if_neg (Nat.not_lt.mpr hlen)).trans (if_neg (Nat.not_le.mpr hn))

/-- The key a frame is decoded with: its own, or the placeholder of an unmasked frame (R139). -/
def decodingKey (masked : Bool) (k : MaskKey) : MaskKey := if masked then k else .zero

/-- Mask-key capture reads back the key after a header of `n` bytes (R86, R139). -/
theorem maskField_keyBytes {pre : Bytes} {n : Nat} (hn : pre.length = n) (masked : Bool) (k : MaskKey) (rest : Bytes) :
    maskField masked n (pre ++ keyBytes masked k ++ rest)
      = .ok (decodingKey masked k, n + if masked then 4 else 0) := by
  subst hn
  cases masked <;> simp [maskField, keyBytes, MaskKey.bytes, byteAt, decodingKey]

theorem keyBytes_length (masked : Bool) (k : MaskKey) : (keyBytes masked k).length = if masked then 4 else 0 := by
  cases masked <;> rfl

/-- Unmasking with the key of the frame gives the payload it carries (R87, R140). -/
theorem applyMask_decodingKey (masked : Bool) (k : MaskKey) (w : Bytes) :
    applyMask (decodingKey masked k) w = framePayload masked k w := by
  cases masked with
  | false => exact applyMask_zero w
  | true =>
    apply List.ext_getElem?
    intro j
    simp [decodingKey, framePayload, applyMask_getElem?]

/-- LEN7 of an encoding fits its 7 bits (R85). -/
theorem wellFormed_of_len7_eq {h : WireHeader} {f : LenForm} {n : Nat} (h7 : h.len7 = f.len7 n) (hn : f.carries n) :
    h.wellFormed = true := by
  refine decide_eq_true (h7 ▸ ?_)
  cases f with
  | short => exact Nat.le_trans hn (by decide)
  | mid | long => simp [LenForm.len7]

section
variable (op : BitVec 4) (h : WireHeader) (f : LenForm) (k : MaskKey) (w rest : Bytes)

/-- A frame's header: all of `wireFrame` but the payload. -/
def frameHeader (n : Nat) : Bytes :=
  [h.byte0 op, h.byte1] ++ f.extension n ++ keyBytes h.masked k

@[simp] theorem frameHeader_length (n : Nat) : (frameHeader op h f k n).length = f.hdrLen h.masked := by
  simp only [frameHeader, List.length_append, LenForm.extension_length, keyBytes_length]
  rfl

/-- The extent of a frame on the wire, whatever follows it. -/
def wireExtent : Extent := ⟨f.hdrLen h.masked, w.length, decodingKey h.masked k⟩

variable {f h w} (h7 : h.len7 = f.len7 w.length) (hn : f.carries w.length)
include h7 hn

/-- Stages 1 to 3 of the decode path read a frame's header back (R130). -/
theorem frameExtent_wireFrame :
    frameExtent h.masked h.len7 (wireFrame op h f k w ++ rest) = .ok (wireExtent h f k w) := by
  have hlen : lengthField h.len7 (wireFrame op h f k w ++ rest) = .ok (f.ext, w.length) := by
    have := lengthField_extension hn (h.byte0 op) h.byte1 (keyBytes h.masked k ++ w ++ rest)
    rw [h7, ← this]
    simp [wireFrame]
  have hkey : maskField h.masked (2 + f.ext) (wireFrame op h f k w ++ rest)
      = .ok (decodingKey h.masked k, f.hdrLen h.masked) := by
    have := maskField_keyBytes (pre := [h.byte0 op, h.byte1] ++ f.extension w.length) (n := 2 + f.ext)
      (by simp; omega) h.masked k (w ++ rest)
    rw [← List.append_assoc] at this
    exact this
  have h2 : ¬ (wireFrame op h f k w ++ rest).length < 2 := by simp [wireFrame]
  rw [frameExtent, if_neg h2, hlen]
  dsimp only
  rw [hkey]
  rfl

end

theorem wireFrame_eq : wireFrame op h f k w = frameHeader op h f k w.length ++ w := rfl

/-- The payload of a frame, cut from the input by its extent (R141). -/
theorem payload_wireFrame :
    ((wireFrame op h f k w ++ rest).drop (f.hdrLen h.masked)).take w.length = w := by
  rw [wireFrame_eq, List.append_assoc, List.drop_left' (frameHeader_length op h f k _), List.take_left]

theorem frameEffect_out_wireFrame (b0 b1 : Byte) :
    (frameEffect b0 b1 (wireExtent h f k w) (wireFrame op h f k w ++ rest)).out
      = some (framePayload h.masked k w) := by
  rw [frameEffect, wireExtent, payload_wireFrame, applyMask_decodingKey]

/-! ## The commit of a frame -/

/-- A listed output that fits OUT is what the commit leaves there (R119). -/
theorem State.commit_outputIs (s : State) {e : Effect} {o : Bytes} (ho : e.out = some o)
    (hcap : o.length ≤ s.cfg.outCap.toNat) : OutputIs s (s.commit e) o := by
  have := s.cfg.outCap.isLt
  obtain ⟨out, fr, res⟩ := e
  cases ho
  refine ⟨Nat.mod_eq_of_lt (by omega), fun a => ?_⟩
  simp [Memory.read_writeBytes]

theorem framePayload_length (masked : Bool) (k : MaskKey) (w : Bytes) :
    (framePayload masked k w).length = w.length := by
  cases masked <;> simp [framePayload]

theorem maskKeyWord_zero : maskKeyWord .zero = 0#32 := by decide

section
variable (s : State) (op : BitVec 4) (h : WireHeader) (f : LenForm) (k : MaskKey) (w bs : Bytes)

/-- The frame-field registers after the commit of a frame on the wire (R30 to R34). -/
theorem State.commit_frameIs (hlt : f.hdrLen h.masked + w.length < 2 ^ 32) :
    FrameIs (s.commit (frameEffect (h.byte0 op) h.byte1 (wireExtent h f k w) bs)) op h f k w.length := by
  have hhdr : f.hdrLen h.masked < 16 := by cases f <;> cases h.masked <;> decide
  have hplen : w.length < 2 ^ 32 := by omega
  refine ⟨⟨frCtrlWord_byte0 .., frCtrlWord_byte1 .., ?_, frCtrlWord_reserved _ _ _ hhdr⟩, Nat.mod_eq_of_lt hplen,
    plenHiWord_eq_zero hplen, ?_, State.commit_frameEffect_frFrameLen hlt⟩
  · exact (congrArg BitVec.toNat (frCtrlWord_hdrLen ..)).trans (Nat.mod_eq_of_lt hhdr)
  · simp only [frameEffect, State.commit_some_frMaskKey, wireExtent, decodingKey]
    cases h.masked with
    | true => simp
    | false => exact maskKeyWord_zero

theorem State.commit_class :
    (s.commit (frameEffect (h.byte0 op) h.byte1 (wireExtent h f k w) bs)).reg .classBits = classOf op := by
  have hop : frCtrlOpcode (frCtrlWord (h.byte0 op) h.byte1 (f.hdrLen h.masked)) = op :=
    (frCtrlWord_opcode ..).trans (opcodeOf_byte0 h op)
  exact (classWord_eq_classOf _).trans (congrArg classOf hop)

end

/-- DECODE accepts a whole frame, whatever follows it, and rejects no field (R138, R142). -/
theorem performDecode_wireFrame (op : BitVec 4) {h : WireHeader} {f : LenForm} (k : MaskKey) {w : Bytes} (rest : Bytes)
    (h7 : h.len7 = f.len7 w.length) (hn : f.carries w.length) :
    performDecode (wireFrame op h f k w ++ rest)
      = .ok (frameEffect (h.byte0 op) h.byte1 (wireExtent h f k w) (wireFrame op h f k w ++ rest)) := by
  have hx : frameExtent (headerFields (h.byte0 op) h.byte1).masked (headerFields (h.byte0 op) h.byte1).len7
      (wireFrame op h f k w ++ rest) = .ok (wireExtent h f k w) := by
    rw [headerFields_byte0_byte1 (wellFormed_of_len7_eq h7 hn)]
    exact frameExtent_wireFrame op k rest h7 hn
  have hpay : ¬ (wireFrame op h f k w ++ rest).length - f.hdrLen h.masked < w.length := by
    rw [wireFrame_eq]
    simp
  exact (decodeFrame_of_extent_ok hx).trans (if_neg hpay)

/-- On its own frame a wire header does what DECODE does (R138, R150). -/
theorem exec_ofOpcode_wireFrame {s : State} {op : BitVec 4} {h : WireHeader} {f : LenForm} {k : MaskKey}
    {w rest : Bytes} (hwf : h.wellFormed = true) (hin : s.input = .bytes (wireFrame op h f k w ++ rest)) :
    exec (.ofOpcode op h) s = exec .decode s := by
  have hinstr : headerInstr (h.byte0 op) h.byte1 = .ofOpcode op h := by
    rw [headerInstr, opcodeOf_byte0, headerFields_byte0_byte1 hwf]
  rw [← hinstr]
  exact exec_headerInstr hin

/-! ## The statements -/

/-- Settles O25: each byte is XORed with the same key byte twice. -/
theorem maskingTwiceGivesTheWireBytes : Obligations.MaskingTwiceGivesTheWireBytes := applyMask_applyMask

/-- Settles O26: the forms are the branches of the decoder, whose big-endian length is R93's formula. -/
theorem lengthDecoderForms : Obligations.LengthDecoderForms :=
  fun s => ⟨fun _ => lengthField_short s, lengthField_mid s, lengthField_long s⟩

/-- Settles O22: `perform` follows the list, and its frame lies within the input, so that its lengths fit their
registers. -/
theorem decodeErrorsInOrder : Obligations.DecodeErrorsInOrder := by
  intro s bs hin
  refine ⟨fun c hc => ?_, fun hnone => ?_⟩
  · exact ⟨_, exec_decode_of_error hin (performDecode_of_error hc), s.raise_failsWith c⟩
  · have hperf := performDecode_of_no_error hnone
    have hwithin := frame_within_of_no_error hnone
    have hp : (extentOf bs).plen ≤ bs.length - (extentOf bs).hdr := Nat.le_sub_of_add_le' hwithin
    refine ⟨fun hcap => ?_, fun hcap => ?_⟩
    · exact ⟨_, exec_decode_overflows hin hperf hp hcap, s.raise_failsWith .outOverflow⟩
    · have hlt : (extentOf bs).hdr + (extentOf bs).plen < 2 ^ 32 :=
        hwithin.trans_lt (State.input_length_lt hin)
      exact ⟨_, exec_decode_commits hin hperf hp hcap, s.commit_statusIs _,
        State.commit_frameEffect_outLen_toNat s hp hcap, State.commit_frameEffect_frFrameLen hlt⟩

/-- Settles O20: the header is read back field by field, and the commit writes the frame it describes. -/
theorem decodeOfAFrameCompletes : Obligations.DecodeOfAFrameCompletes := by
  intro s op h f k w rest h7 hn hin hcap
  have hlen : (wireFrame op h f k w ++ rest).length = f.hdrLen h.masked + w.length + rest.length := by
    rw [wireFrame_eq, List.length_append, List.length_append, frameHeader_length]
  have hlt : f.hdrLen h.masked + w.length < 2 ^ 32 := by
    have := State.input_length_lt hin
    omega
  have hpay : w.length ≤ (wireFrame op h f k w ++ rest).length - f.hdrLen h.masked := by omega
  exact ⟨_, exec_decode_commits hin (performDecode_wireFrame op k rest h7 hn) hpay hcap, s.commit_statusIs _,
    s.commit_sameInputs, s.commit_outputIs (frameEffect_out_wireFrame ..) ((framePayload_length ..).trans_le hcap),
    s.commit_frameIs op h f k w _ hlt, s.commit_class .., rfl⟩

/-- Settles O21: on its own frame a header does what DECODE does, so O20 is its statement too. -/
theorem wireHeadersComplete : Obligations.WireHeadersComplete := by
  intro s op h f k w rest h7 hn hin hcap
  rw [exec_ofOpcode_wireFrame (wellFormed_of_len7_eq h7 hn) hin]
  exact decodeOfAFrameCompletes s op h f k w rest h7 hn hin hcap

end Sys2Proof.Machine
end

section
/-! SUPPORT. Proofs of the statements of 42_frame_encode.md: ENCODE_TEXT (R170 to R176), the generators (R178 to R180),
and the two properties derived from them: the round trip (R181) and the header's length (R182). -/

namespace Sys2Proof.Machine

/-! ## The end of a command that lists an output alone -/

section
variable {i : Instr} {s t : State} {bs o : Bytes} {e : Effect}

/-- A listed output that fits OUT is read back whole (R40, R119). -/
theorem State.commit_readBytes_outBuf (s : State) (ho : e.out = some o) (hcap : o.length ≤ s.cfg.outCap.toNat) :
    Memory.readBytes (s.commit e).outBuf 0 (s.commit e).outLen.toNat = some o := by
  obtain ⟨hlen, -⟩ := s.commit_outputIs ho hcap
  rw [hlen]
  obtain ⟨out, fr, res⟩ := e
  cases ho
  exact Memory.readBytes_writeBytes_zero s.outBuf o

/-- A command whose effect is an output that fits OUT writes OUT, OUT_LEN and STATUS alone (R113, R119). -/
theorem exec_completes_with_output (hin : i.readsInput = true → s.input = .bytes bs)
    (hperf : i.perform s.cfg bs = .ok { out := some o }) (hcap : o.length ≤ s.cfg.outCap.toNat) :
    ∃ t, exec i s = .next t ∧ StatusIs s t .success ∧ SameInputs s t ∧ OutputIs s t o ∧ SameFrame s t
      ∧ t.result = s.result := by
  have hexec : exec i s = .next (s.commit { out := some o }) := by
    rw [exec_of_bytes hin, hperf]
    simp [State.finish, Effect.overflows, hcap]
  exact ⟨_, hexec, s.commit_statusIs _, s.commit_sameInputs, s.commit_outputIs rfl hcap, s.commit_sameFrame rfl, rfl⟩

/-- With ERR = 0 a command committed the effect of its `perform`, which fits OUT (R113, R118). -/
theorem exec_success (h : exec i s = .next t) (he : t.err = 0#4) :
    ∃ bs e, (i.readsInput = true → s.input = .bytes bs) ∧ i.perform s.cfg bs = .ok e
      ∧ e.overflows s.cfg.outCap = false ∧ t = s.commit e := by
  rcases exec_next h with ⟨c, hc, rfl⟩ | hcommit
  · exact absurd (State.raise_err s c ▸ he) (ErrCode.code_ne_zero hc)
  · exact hcommit

/-- An ERR that is not success and not one of the interface errors comes from the `perform` of the command (R260). -/
theorem perform_error_of_exec {c : ErrCode} (h : exec i s = .next t) (he : t.err = c.code) (hsuccess : c ≠ .success)
    (hlen : c ≠ .inLenRange) (hout : c ≠ .outOverflow) :
    ∃ bs, (i.readsInput = true → s.input = .bytes bs) ∧ i.perform s.cfg bs = .error c := by
  rcases exec_cases i s with ⟨-, -, hx⟩ | ⟨-, -, hx⟩ | ⟨bs, hin, -, hx⟩ <;> rw [hx] at h <;> cases h
  · exact absurd (ErrCode.code_injective ((State.raise_err s _).symm.trans he)).symm hlen
  · rcases s.finish_cases (i.perform s.cfg bs) with ⟨d, hd, hf⟩ | ⟨e, -, -, hf⟩ | ⟨e, -, -, hf⟩ <;> rw [hf] at he
    · obtain rfl := ErrCode.code_injective ((State.raise_err s d).symm.trans he)
      exact ⟨bs, hin, hd⟩
    · exact absurd (ErrCode.code_injective ((State.raise_err s _).symm.trans he)).symm hout
    · exact absurd ((State.commit_err s).symm.trans he).symm (ErrCode.code_ne_zero hsuccess)

end

/-! ## ENCODE_TEXT -/

/-- The serializer's header is the one R172 tables. -/
theorem textHeader_eq_minimalHeader (n : Nat) : textHeader n = minimalHeader n := by
  unfold textHeader minimalHeader
  split_ifs <;> simp [textByte0, bigEndianBytes]

theorem minimalHeader_length (n : Nat) :
    (minimalHeader n).length = if n ≤ 125 then 2 else if n ≤ 65535 then 4 else 10 := by
  rw [← textHeader_eq_minimalHeader, textHeader_length]

section
variable {maxLen : Nat} {p : Bytes}

theorem performEncodeText_of_le (h : p.length ≤ maxLen) :
    performEncodeText maxLen p = .ok { out := some (minimalHeader p.length ++ p) } := by
  rw [performEncodeText, if_neg (Nat.not_lt.mpr h), textHeader_eq_minimalHeader]

theorem performEncodeText_of_lt (h : maxLen < p.length) : performEncodeText maxLen p = .error .sizeLimit :=
  if_pos h

theorem lt_length_of_performEncodeText_error {c : ErrCode} (h : performEncodeText maxLen p = .error c) :
    maxLen < p.length := by
  by_contra hle
  rw [performEncodeText_of_le (Nat.not_lt.mp hle)] at h
  cases h

/-- What ENCODE_TEXT writes, it writes as the header of R172 and the payload. -/
theorem performEncodeText_ok {e : Effect} (h : performEncodeText maxLen p = .ok e) :
    e = { out := some (minimalHeader p.length ++ p) } := by
  rcases Nat.lt_or_ge maxLen p.length with hlt | hle
  · rw [performEncodeText_of_lt hlt] at h
    cases h
  · rw [performEncodeText_of_le hle] at h
    cases h
    rfl

end

/-- A successful ENCODE_TEXT committed a frame that fits OUT. -/
theorem exec_encodeText_success {s t : State} {p : Bytes} (hin : s.input = .bytes p)
    (h : exec .encodeText s = .next t) (he : t.err = 0#4) :
    (minimalHeader p.length ++ p).length ≤ s.cfg.outCap.toNat
      ∧ t = s.commit { out := some (minimalHeader p.length ++ p) } := by
  obtain ⟨bs, e, hbs, hperf, hfit, rfl⟩ := exec_success h he
  cases hin.symm.trans (hbs rfl)
  obtain rfl := performEncodeText_ok hperf
  exact ⟨(Effect.out_length hfit rfl).1, rfl⟩

/-- OUT_LEN minus the payload is the header's length (R175, R182). -/
theorem outLen_sub_of_exec_encodeText {s t : State} {p : Bytes} (hin : s.input = .bytes p)
    (h : exec .encodeText s = .next t) (he : t.err = 0#4) :
    t.outLen.toNat - p.length = if p.length ≤ 125 then 2 else if p.length ≤ 65535 then 4 else 10 := by
  obtain ⟨hcap, rfl⟩ := exec_encodeText_success hin h he
  obtain ⟨hlen, -⟩ := s.commit_outputIs (e := { out := some (minimalHeader p.length ++ p) }) rfl hcap
  rw [hlen, List.length_append, Nat.add_sub_cancel, minimalHeader_length]

/-! ## The serializer's frame on the wire -/

/-- The length form ENCODE_TEXT chooses: the shortest that carries the length (R172). -/
def minimalForm (n : Nat) : LenForm := if n ≤ 125 then .short else if n ≤ 65535 then .mid else .long

/-- The header fields of ENCODE_TEXT's frames: FIN = 1, RSV = 0, MASK = 0 (R171, R172). -/
def textFrameFields (n : Nat) : WireHeader := ⟨true, false, false, false, false, (minimalForm n).len7 n⟩

theorem minimalForm_carries {n : Nat} (h : n < 2 ^ 63) : (minimalForm n).carries n := by
  unfold minimalForm
  split_ifs with hshort hmid
  · exact hshort
  · exact hmid
  · exact h

/-- Byte 1 of an unmasked header is its LEN7 (R84). -/
theorem byte1_of_unmasked {h : WireHeader} (hmask : h.masked = false) (hlen : h.len7 < 128) :
    h.byte1 = BitVec.ofNat 8 h.len7 := by
  apply BitVec.eq_of_toNat_eq
  rw [WireHeader.byte1, hmask, BitVec.toNat_append]
  simp
  omega

theorem minimalForm_len7_lt (n : Nat) : (minimalForm n).len7 n < 128 := by
  unfold minimalForm
  split_ifs with hshort hmid
  · exact Nat.lt_of_le_of_lt hshort (by decide)
  · exact Nat.lt_succ_of_lt (Nat.lt_succ_self 126)
  · exact Nat.lt_succ_self 127

theorem textFrameFields_byte0 (n : Nat) : (textFrameFields n).byte0 0x1#4 = 0x81#8 := by
  simp [textFrameFields, WireHeader.byte0]

/-- The header of ENCODE_TEXT's frames, by their length form (R172). -/
theorem frameHeader_textFrameFields (n : Nat) (k : MaskKey) :
    frameHeader 0x1#4 (textFrameFields n) (minimalForm n) k n = minimalHeader n := by
  rw [frameHeader, textFrameFields_byte0, byte1_of_unmasked rfl (minimalForm_len7_lt n)]
  unfold textFrameFields minimalForm minimalHeader
  split_ifs <;> simp [LenForm.len7, LenForm.extension, keyBytes]

/-- ENCODE_TEXT makes an unmasked text frame with FIN = 1 (R92, R171). -/
theorem minimalHeader_append_eq_wireFrame (k : MaskKey) (p : Bytes) :
    minimalHeader p.length ++ p = wireFrame 0x1#4 (textFrameFields p.length) (minimalForm p.length) k p := by
  rw [wireFrame_eq, frameHeader_textFrameFields]

theorem wireFrame_length (op : BitVec 4) (h : WireHeader) (f : LenForm) (k : MaskKey) (w : Bytes) :
    (wireFrame op h f k w).length = f.hdrLen h.masked + w.length := by
  rw [wireFrame_eq, List.length_append, frameHeader_length]

/-- FR_CTRL after the decode of a frame holds the frame's OPCODE, FIN and MASK (R30). -/
theorem FrameIs.frCtrl_fields {t : State} {op : BitVec 4} {h : WireHeader} {f : LenForm} {k : MaskKey} {n : Nat}
    (hf : FrameIs t op h f k n) :
    frCtrlOpcode t.frCtrl = op ∧ frCtrlFin t.frCtrl = h.fin ∧ frCtrlMasked t.frCtrl = h.masked := by
  obtain ⟨⟨hb0, hb1, -, -⟩, -⟩ := hf
  have hopcode : frCtrlOpcode t.frCtrl = opcodeOf (t.frCtrl.extractLsb' 0 8) := by
    apply BitVec.eq_of_getLsbD_eq
    intro i hi
    simp [frCtrlOpcode, opcodeOf, hi]
  have hfin : frCtrlFin t.frCtrl = (t.frCtrl.extractLsb' 0 8).getLsbD 7 := by simp [frCtrlFin]
  have hmasked : frCtrlMasked t.frCtrl = (t.frCtrl.extractLsb' 8 8).getLsbD 7 := by simp [frCtrlMasked]
  refine ⟨?_, ?_, ?_⟩
  · rw [hopcode, hb0, opcodeOf_byte0]
  · rw [hfin, hb0]
    simp only [WireHeader.byte0, BitVec.getLsbD_append]
    simp
  · rw [hmasked, hb1]
    simp only [WireHeader.byte1, BitVec.getLsbD_append]
    simp

/-- DECODE of a frame that fills its input reads back its payload and its fields, and counts the whole input (R142,
R151). -/
theorem exec_decode_wireFrame {s : State} {op : BitVec 4} {h : WireHeader} {f : LenForm} {k : MaskKey} {w : Bytes}
    (h7 : h.len7 = f.len7 w.length) (hn : f.carries w.length) (hin : s.input = .bytes (wireFrame op h f k w))
    (hcap : w.length ≤ s.cfg.outCap.toNat) :
    ∃ t, exec .decode s = .next t ∧ t.err = 0#4
      ∧ Memory.readBytes t.outBuf 0 t.outLen.toNat = some (framePayload h.masked k w)
      ∧ FrameIs t op h f k w.length ∧ t.frFrameLen = s.inLen := by
  have hperf := performDecode_wireFrame op k [] h7 hn
  have hout : (frameEffect (h.byte0 op) h.byte1 (wireExtent h f k w) (wireFrame op h f k w ++ [])).out
      = some (framePayload h.masked k w) := frameEffect_out_wireFrame ..
  have hlt := State.input_length_lt hin
  obtain ⟨hinLen, -⟩ := State.input_length hin
  rw [wireFrame_length] at hlt hinLen
  rw [List.append_nil] at hperf hout
  have hpay : w.length ≤ (wireFrame op h f k w).length - f.hdrLen h.masked := by
    rw [wireFrame_length]
    omega
  exact ⟨_, exec_decode_commits hin hperf hpay hcap, State.commit_err s,
    s.commit_readBytes_outBuf hout ((framePayload_length ..).trans_le hcap), s.commit_frameIs op h f k w _ hlt,
    BitVec.eq_of_toNat_eq ((State.commit_frameEffect_frFrameLen hlt).trans hinLen)⟩

/-! ## The statements -/

/-- Settles O29: what ENCODE_TEXT makes is an unmasked text frame on the wire, which DECODE takes apart again. -/
theorem encodeThenDecodeRoundTrip : Obligations.EncodeThenDecodeRoundTrip := by
  intro s t u p o hin hexec herr hread hload hcap
  obtain ⟨hfits, rfl⟩ := exec_encodeText_success hin hexec herr
  have ho : minimalHeader p.length ++ p = o :=
    Option.some.inj ((s.commit_readBytes_outBuf rfl hfits).symm.trans hread)
  rw [← ho, minimalHeader_append_eq_wireFrame .zero] at hload
  have hcarries : (minimalForm p.length).carries p.length :=
    minimalForm_carries ((State.input_length_lt hin).trans (by decide))
  obtain ⟨v, hdecode, herr', hout, hframe, hframeLen⟩ := exec_decode_wireFrame rfl hcarries hload hcap
  obtain ⟨hopcode, hfin, hmasked⟩ := hframe.frCtrl_fields
  obtain ⟨-, hplenLo, hplenHi, -⟩ := hframe
  exact ⟨v, hdecode, herr', hout, hplenLo, hplenHi, hopcode, hfin, hmasked, hframeLen⟩

/-- Settles O27: within MAX_ENCODE_LEN the effect is the frame alone. -/
theorem encodeTextCompletes : Obligations.EncodeTextCompletes := by
  intro s p hin hmax hcap
  exact exec_completes_with_output (fun _ => hin) (performEncodeText_of_le hmax) (List.length_append.trans_le hcap)

/-- Settles O28: SIZE_LIMIT is an error of `perform` on a payload longer than MAX_ENCODE_LEN, which IN holds. -/
theorem tooLongPayloadIsSizeLimit : Obligations.TooLongPayloadIsSizeLimit := by
  refine ⟨fun s p hin hlt => ?_, fun s t hexec herr => ?_⟩
  · have hperf : Instr.encodeText.perform s.cfg p = .error .sizeLimit := performEncodeText_of_lt hlt
    refine ⟨s.raise .sizeLimit, ?_, s.raise_failsWith _⟩
    rw [exec_of_bytes fun _ => hin, hperf, State.finish]
  · obtain ⟨p, hin, hperf⟩ := perform_error_of_exec (c := .sizeLimit) hexec herr (by simp) (by simp) (by simp)
    obtain ⟨-, hcap⟩ := State.input_length (hin rfl)
    exact (lt_length_of_performEncodeText_error hperf).trans_le hcap

/-- Settles O30: both parts are read off the header's length. -/
theorem encodedHeaderLengthIsMonotone : Obligations.EncodedHeaderLengthIsMonotone := by
  refine ⟨fun s t p => outLen_sub_of_exec_encodeText, fun s t s' t' p p' hin h he hin' h' he' hle => ?_⟩
  rw [outLen_sub_of_exec_encodeText hin h he, outLen_sub_of_exec_encodeText hin' h' he']
  split_ifs <;> omega

/-- Settles O31: each generator's effect is its two bytes, and it reads no input. -/
theorem generatorsComplete : Obligations.GeneratorsComplete :=
  fun _ hcap => ⟨exec_completes_with_output (bs := []) nofun rfl hcap,
    exec_completes_with_output (bs := []) nofun rfl hcap, exec_completes_with_output (bs := []) nofun rfl hcap⟩

end Sys2Proof.Machine
end

section
/-! SUPPORT. Proof of the statement of 43_opcode_predicates.md: CLASS is R194's table (`classWord_eq_classOf`), and each
word of the table is 0 or a single power of two, from which its upper bits and the exclusion of two predicates follow. -/

namespace Sys2Proof.Machine

/-! ## CLASS -/

/-- R194: CLASS is 0 or has exactly one of the bits 0 to 3. -/
theorem classOf_eq_zero_or_twoPow (op : BitVec 4) :
    classOf op = 0#32 ∨ ∃ n < 4, classOf op = BitVec.twoPow 32 n := by
  unfold classOf
  split_ifs
  · exact .inr ⟨0, by decide, by decide⟩
  · exact .inr ⟨1, by decide, by decide⟩
  · exact .inr ⟨2, by decide, by decide⟩
  · exact .inr ⟨3, by decide, by decide⟩
  · exact .inl rfl

/-- A bit of CLASS that is 1 is one of the four predicates, and the only such bit. -/
theorem classOf_eq_twoPow_of_getLsbD {op : BitVec 4} {i : Nat} (h : (classOf op).getLsbD i = true) :
    i < 4 ∧ classOf op = BitVec.twoPow 32 i := by
  rcases classOf_eq_zero_or_twoPow op with hzero | ⟨n, hn, htwoPow⟩
  · simp [hzero] at h
  · obtain ⟨-, rfl⟩ : n < 32 ∧ n = i := by simpa [htwoPow, BitVec.getLsbD_twoPow] using h
    exact ⟨hn, htwoPow⟩

theorem classOf_getLsbD_unique {op : BitVec 4} {i j : Nat} (hi : (classOf op).getLsbD i = true)
    (hj : (classOf op).getLsbD j = true) : i = j := by
  obtain ⟨-, htwoPow⟩ := classOf_eq_twoPow_of_getLsbD hj
  obtain ⟨-, hji⟩ : j < 32 ∧ j = i := by simpa [htwoPow, BitVec.getLsbD_twoPow] using hi
  exact hji.symm

/-- CLASS[31:4] is 0 (R194). -/
theorem classOf_upper (op : BitVec 4) : (classOf op).extractLsb' 4 28 = 0#28 := by
  apply BitVec.eq_of_getLsbD_eq
  intro i hi
  have hbit : (classOf op).getLsbD (4 + i) = false := by
    by_contra hset
    obtain ⟨hlt, -⟩ := classOf_eq_twoPow_of_getLsbD (Bool.eq_true_of_not_eq_false hset)
    omega
  simp [hbit]

/-! ## The statement -/

/-- Settles O32: a read of CLASS is the table of R194, whose words are 0 or a single power of two. -/
theorem classFollowsTheOpcodeTable : Obligations.ClassFollowsTheOpcodeTable := by
  intro s
  rw [State.reg, classWord_eq_classOf]
  exact ⟨rfl, classOf_upper _, fun i j hij _ ⟨hi, hj⟩ => hij.ne (classOf_getLsbD_unique hi hj)⟩

end Sys2Proof.Machine
end

section
/-! SUPPORT. Proofs of the statements of 44_handshake.md: HS_DETECT (R201, R202), the key of a request (R203 to R206),
and HS_COMPOSE with and without one (R207, R214 to R216). -/

namespace Sys2Proof.Machine

/-! ## HS_DETECT -/

/-- The comparison letter by letter is R202's comparison of the first three bytes. -/
theorem detect_eq_true_iff (caseInsensitive : Bool) (bs : Bytes) :
    detect caseInsensitive bs = true ↔ BeginsWithGet caseInsensitive bs := by
  rcases bs with _ | ⟨g, _ | ⟨e, _ | ⟨t, rest⟩⟩⟩
  case cons.cons.cons => cases caseInsensitive <;> simp [detect, eqLetter, BeginsWithGet, and_assoc]
  all_goals cases caseInsensitive <;> simp [detect, BeginsWithGet]

/-! ## Line starts and the key header -/

/-- `keyPrefix` stands at position `p` of `s`, which is a line start: position 0 where `lineStart` says so,
a later one after an LF (R203, R204). -/
def KeyLineAt (lineStart : Bool) (s : Bytes) : Nat → Prop
  | 0 => lineStart = true ∧ keyPrefix <+: s
  | p + 1 => s[p]? = some lineFeed ∧ keyPrefix <+: s.drop (p + 1)

theorem keyPrefix_length : keyPrefix.length = 19 := rfl

theorem keyPrefix_prefix_drop_iff {s : Bytes} {p : Nat} :
    keyPrefix <+: s.drop p ↔ p + 19 ≤ s.length ∧ (s.drop p).take 19 = keyPrefix := by
  rw [List.prefix_iff_eq_take, keyPrefix_length, eq_comm, iff_and_self]
  intro h
  have hlen := congrArg List.length h
  rw [List.length_take, List.length_drop, keyPrefix_length] at hlen
  omega

/-- At the start of an input the scan stands at a line start (R203). -/
theorem isKeyLine_iff {s : Bytes} {p : Nat} : IsKeyLine s p ↔ KeyLineAt true s p := by
  rw [IsKeyLine, ← keyPrefix_prefix_drop_iff]
  have hlt (h : keyPrefix <+: s.drop p) : p < s.length := by
    obtain ⟨hle, -⟩ := keyPrefix_prefix_drop_iff.mp h
    omega
  cases p with
  | zero => simpa [KeyLineAt] using hlt
  | succ p => simpa [KeyLineAt, lineFeed] using fun _ => hlt

theorem keyLineAt_cons_succ {lineStart : Bool} {b : Byte} {s : Bytes} {p : Nat} :
    KeyLineAt lineStart (b :: s) (p + 1) ↔ KeyLineAt (b == lineFeed) s p := by
  cases p <;> simp [KeyLineAt]

theorem not_keyLineAt_nil {lineStart : Bool} {p : Nat} : ¬ KeyLineAt lineStart [] p := by
  cases p <;> simp [KeyLineAt, keyPrefix, ascii]

theorem afterKeyPrefix_of_keyLineAt_zero {lineStart : Bool} {s : Bytes} (h : KeyLineAt lineStart s 0) :
    afterKeyPrefix lineStart s = some (s.drop 19) := by
  cases s with
  | nil => exact absurd h not_keyLineAt_nil
  | cons b s =>
    obtain ⟨hstart, hprefix⟩ := h
    rw [afterKeyPrefix, if_pos (by simpa [hstart] using hprefix), keyPrefix_length]

theorem afterKeyPrefix_cons_of_not_keyLineAt_zero {lineStart : Bool} {b : Byte} {s : Bytes}
    (h : ¬ KeyLineAt lineStart (b :: s) 0) : afterKeyPrefix lineStart (b :: s) = afterKeyPrefix (b == lineFeed) s := by
  rw [afterKeyPrefix, if_neg (by simpa [KeyLineAt] using h)]

/-- The scan stops at the first line start that matches (R206). -/
theorem afterKeyPrefix_of_first {lineStart : Bool} {s : Bytes} {p : Nat} (h : KeyLineAt lineStart s p)
    (hfirst : ∀ p' < p, ¬ KeyLineAt lineStart s p') : afterKeyPrefix lineStart s = some (s.drop (p + 19)) := by
  induction s generalizing lineStart p with
  | nil => exact absurd h not_keyLineAt_nil
  | cons b s ih =>
    cases p with
    | zero => rw [afterKeyPrefix_of_keyLineAt_zero h, Nat.zero_add]
    | succ p =>
      rw [afterKeyPrefix_cons_of_not_keyLineAt_zero (hfirst 0 p.succ_pos), ih (keyLineAt_cons_succ.mp h)
        fun p' hlt => mt keyLineAt_cons_succ.mpr (hfirst (p' + 1) (Nat.succ_lt_succ hlt)),
        Nat.succ_add, List.drop_succ_cons]

theorem afterKeyPrefix_of_no_keyLine {lineStart : Bool} {s : Bytes} (h : ∀ p, ¬ KeyLineAt lineStart s p) :
    afterKeyPrefix lineStart s = none := by
  induction s generalizing lineStart with
  | nil => rfl
  | cons b s ih =>
    rw [afterKeyPrefix_cons_of_not_keyLineAt_zero (h 0)]
    exact ih fun p => mt keyLineAt_cons_succ.mpr (h (p + 1))

/-- A line that matches gives a key, so no key means no such line: the least matching line start is the one taken. -/
theorem afterKeyPrefix_eq_none_iff {lineStart : Bool} {s : Bytes} :
    afterKeyPrefix lineStart s = none ↔ ∀ p, ¬ KeyLineAt lineStart s p := by
  classical
  refine ⟨fun hnone p hp => ?_, afterKeyPrefix_of_no_keyLine⟩
  have hex : ∃ p, KeyLineAt lineStart s p := ⟨p, hp⟩
  have hsome := afterKeyPrefix_of_first (Nat.find_spec hex) fun _ => Nat.find_min hex
  rw [hnone] at hsome
  cases hsome

/-! ## The value of the key header -/

theorem isWhitespace_eq_true_iff {b : Byte} : isWhitespace b = true ↔ b ∈ whitespaceSet := by
  simp [isWhitespace, whitespaceSet, or_assoc]

theorem isWhitespace_eq_false_iff {b : Byte} : isWhitespace b = false ↔ b ∉ whitespaceSet := by
  rw [← isWhitespace_eq_true_iff, Bool.not_eq_true]

theorem trimWhitespace_eq (t : Bytes) : trimWhitespace t = (t.dropWhile isWhitespace).rdropWhile isWhitespace := rfl

/-- The trim takes whitespace alone off each end, and leaves none there (R205). -/
theorem trimWhitespace_trimmedOf (t : Bytes) : TrimmedOf t (trimWhitespace t) := by
  rw [trimWhitespace_eq]
  refine ⟨t.takeWhile isWhitespace, (t.dropWhile isWhitespace).rtakeWhile isWhitespace, ?_,
    fun b hb => isWhitespace_eq_true_iff.mp (List.mem_takeWhile_imp hb),
    fun b hb => isWhitespace_eq_true_iff.mp (List.mem_rtakeWhile_imp hb), fun b hb => ?_, fun b hb => ?_⟩
  · rw [List.append_assoc, List.rdropWhile_append_rtakeWhile, List.takeWhile_append_dropWhile]
  · obtain ⟨back, hback⟩ := List.rdropWhile_prefix isWhitespace (t.dropWhile isWhitespace)
    have hhead : (t.dropWhile isWhitespace).head? = some b := by rw [← hback, List.head?_append, hb, Option.some_or]
    have hnot := List.head?_dropWhile_not isWhitespace t
    rw [hhead] at hnot
    exact isWhitespace_eq_false_iff.mp hnot
  · obtain ⟨hne, rfl⟩ := List.mem_getLast?_eq_getLast hb
    exact isWhitespace_eq_true_iff.not.mp (List.rdropWhile_last_not isWhitespace _ hne)

/-- A line's value ends before the first LF, or with the input (R205). -/
theorem takeWhile_not_lineFeed {s : Bytes} {a q : Nat} (haq : a ≤ q) (hend : q = s.length ∨ s[q]? = some lineFeed)
    (hbefore : ∀ j, a ≤ j → j < q → s[j]? ≠ some lineFeed) :
    (s.drop a).takeWhile (· != lineFeed) = (s.drop a).take (q - a) := by
  have hvalue : ∀ b ∈ (s.drop a).take (q - a), (b != lineFeed) = true := by
    intro b hb
    obtain ⟨i, hi⟩ := List.mem_iff_getElem?.mp hb
    obtain ⟨hlt, hbyte⟩ : i < q - a ∧ s[a + i]? = some b := by
      simpa [List.getElem?_take] using hi
    have hne : b ≠ lineFeed := fun h => hbefore (a + i) (by omega) (by omega) (h ▸ hbyte)
    exact bne_iff_ne.mpr hne
  have hrest : ((s.drop a).drop (q - a)).takeWhile (· != lineFeed) = [] := by
    rw [List.drop_drop, Nat.add_sub_cancel' haq]
    rcases hend with rfl | hq
    · rw [List.drop_length, List.takeWhile_nil]
    · obtain ⟨hlt, hq⟩ := List.getElem?_eq_some_iff.mp hq
      rw [List.drop_eq_getElem_cons hlt, hq]
      rfl
  conv_lhs => rw [← List.take_append_drop (q - a) (s.drop a)]
  rw [List.takeWhile_append_of_pos hvalue, hrest, List.append_nil]

theorem handshakeKey_eq_none_iff {s : Bytes} : handshakeKey s = none ↔ ∀ p, ¬ IsKeyLine s p := by
  simp only [handshakeKey, Option.map_eq_none_iff, afterKeyPrefix_eq_none_iff, isKeyLine_iff]

theorem handshakeKey_of_first {s : Bytes} {p : Nat} (h : IsKeyLine s p) (hfirst : ∀ p' < p, ¬ IsKeyLine s p') :
    handshakeKey s = some (trimWhitespace ((s.drop (p + 19)).takeWhile (· != lineFeed))) := by
  simp only [isKeyLine_iff] at h hfirst
  rw [handshakeKey, afterKeyPrefix_of_first h hfirst, Option.map_some]

/-! ## The ends of HS_COMPOSE -/

theorem performCompose_of_no_key {bs : Bytes} (h : handshakeKey bs = none) (sha1 : Bytes → Vector Byte 20)
    (base64 : Vector Byte 20 → Bytes) : performCompose sha1 base64 bs = .error .hsNoKey := by
  simp only [performCompose, h]

/-- A command whose output does not fit OUT writes nothing but OUT_OVERFLOW in STATUS (R114, R118). -/
theorem exec_overflows_with_output {i : Instr} {s : State} {bs o : Bytes} {e : Effect}
    (hin : i.readsInput = true → s.input = .bytes bs) (hperf : i.perform s.cfg bs = .ok e) (ho : e.out = some o)
    (hcap : s.cfg.outCap.toNat < o.length) : exec i s = .next (s.raise .outOverflow) := by
  rw [exec_of_bytes hin, hperf, State.finish, if_pos (Effect.overflows_iff.mpr ⟨o, ho, hcap⟩)]

/-! ## The statements -/

/-- Settles O33: HS_DETECT's effect is RESULT alone, which always fits. -/
theorem detectCompletes : Obligations.DetectCompletes := by
  intro s bs hin
  have hexec : exec .hsDetect s
      = .next (s.commit { result := some (resultWord (detect s.cfg.getCaseInsensitive bs)) }) :=
    exec_of_bytes fun _ => hin
  refine ⟨_, hexec, s.commit_statusIs _, s.commit_sameInputs, s.commit_sameFrame rfl, s.commit_sameOutput rfl,
    fun hget => ?_, fun hget => ?_⟩
  · rw [State.commit_some_result, (detect_eq_true_iff _ _).mpr hget]
    rfl
  · rw [State.commit_some_result, Bool.eq_false_of_not_eq_true (mt (detect_eq_true_iff _ _).mp hget)]
    rfl

/-- Settles O34: the scan stops at the smallest matching line start, and what follows `keyPrefix` up to the end of
the line is trimmed. -/
theorem keyIsTakenFromTheFirstMatchingLine : Obligations.KeyIsTakenFromTheFirstMatchingLine := by
  refine fun s => ⟨handshakeKey_eq_none_iff, fun p q hp hfirst hpq _ hend hbefore =>
    ⟨_, handshakeKey_of_first hp hfirst, ?_⟩⟩
  rw [takeWhile_not_lineFeed hpq hend hbefore]
  exact trimWhitespace_trimmedOf _

/-- Settles O35: the effect is the response for the accept value, whose length decides between the two ends. -/
theorem composeCompletes : Obligations.ComposeCompletes := by
  intro s bs key hin hkey
  have hperf : Instr.hsCompose.perform s.cfg bs
      = .ok { out := some (response (Config.base64 (Config.sha1 (key ++ guid)))) } := performCompose_of_key hkey _ _
  rw [← response_length]
  rcases Nat.lt_or_ge s.cfg.outCap.toNat (response (Config.base64 (Config.sha1 (key ++ guid)))).length
    with hover | hfits
  · have hexec := exec_overflows_with_output (fun _ => hin) hperf rfl hover
    exact ⟨_, hexec, fun hfits => absurd hover hfits.not_gt, fun _ => s.raise_failsWith _⟩
  · obtain ⟨t, hexec, hstatus, hinputs, hout, hframe, hresult⟩ :=
      exec_completes_with_output (fun _ => hin) hperf hfits
    exact ⟨t, hexec, fun _ => ⟨hstatus, hinputs, hframe, hresult, hout⟩, fun hover => absurd hover hfits.not_gt⟩

/-- Settles O36: with no matching line there is no key, and HS_NO_KEY is an error of `perform`. -/
theorem composeWithoutAKeyLineFails : Obligations.ComposeWithoutAKeyLineFails := by
  intro s bs hin hline
  have hperf : Instr.hsCompose.perform s.cfg bs = .error .hsNoKey :=
    performCompose_of_no_key (handshakeKey_eq_none_iff.mpr hline) _ _
  refine ⟨s.raise .hsNoKey, ?_, s.raise_failsWith _⟩
  rw [exec_of_bytes fun _ => hin, hperf, State.finish]

end Sys2Proof.Machine
end

section
/-! SUPPORT. Proofs of the statements of 45_host_connection.md: the reference host's step in each phase (R233 to R244),
its invariant through `load; run; read results` (R248, R249), and what follows from it for the block (R242, R245). -/

namespace Sys2Proof.Machine

/-! ## The reference host's step, phase by phase -/

section
variable {s : State} (hs : s.host.script = [])
include hs

theorem HostSide.next_nil (p : Phase) : s.host.next [] p = { s.host with phase := p } := by
  rw [HostSide.next, ← hs]

theorem State.hostStep_of_made : s.hostStep = s.hostPhase := by simp only [State.hostStep, hs]

theorem State.hostStep_read (hp : s.host.phase = .read) : s.hostStep = .next s.hostRead := by
  simp only [State.hostStep_of_made hs, State.hostPhase, hp]

theorem State.hostStep_write {p : Purpose} {out : Bytes} (hp : s.host.phase = .write p out) :
    s.hostStep = .next (s.afterWrite (Config.writeOk s.host.draws out) p out) := by
  simp only [State.hostStep_of_made hs, State.hostPhase, hp]

theorem State.hostStep_validate {x : Bytes} (hp : s.host.phase = .validate x) :
    s.hostStep = .next (s.afterValidate (Config.validateText x) x) := by
  simp only [State.hostStep_of_made hs, State.hostPhase, hp]

theorem State.hostStep_store {x : Bytes} (hp : s.host.phase = .store x) :
    s.hostStep = .next (s.afterStore (Config.storeRecord s.host.draws x) x) := by
  simp only [State.hostStep_of_made hs, State.hostPhase, hp]

theorem State.hostStep_closed (hp : s.host.phase = .closed) : s.hostStep = .next s := by
  simp only [State.hostStep_of_made hs, State.hostPhase, hp]

/-- OUT is read out one byte a step (R232). -/
theorem State.hostStep_collect_byte {p : Purpose} {n : Nat} {got : Bytes} {b : Byte}
    (hp : s.host.phase = .collect p n got) (hlt : got.length < n) (hb : s.outRead got.length = .ok b) :
    s.hostStep = .next (s.withHost (s.host.next [] (.collect p n (got ++ [b])))) := by
  simp only [State.hostStep_of_made hs, State.hostPhase, hp, State.hostCollect, if_pos hlt, hb]

theorem State.hostStep_collect_end {p : Purpose} {n : Nat} {got : Bytes} (hp : s.host.phase = .collect p n got)
    (hle : n ≤ got.length) : s.hostStep = .next (s.collected p got) := by
  simp only [State.hostStep_of_made hs, State.hostPhase, hp, State.hostCollect, if_neg (Nat.not_lt.mpr hle)]

section
variable (hb : s.busy = false)
include hb

theorem State.hostStep_detected {r : Bytes} (hp : s.host.phase = .detected r) :
    s.hostStep = .next (s.afterRun (.detectResult r) s.status) := by
  simp only [State.hostStep_of_made hs, State.hostPhase, hp, State.withReg_idle _ _ hb, State.reg]

theorem State.hostStep_detectResult {r : Bytes} (hp : s.host.phase = .detectResult r) :
    s.hostStep = .next (s.afterDetect r s.result) := by
  simp only [State.hostStep_of_made hs, State.hostPhase, hp, State.withReg_idle _ _ hb, State.reg]

theorem State.hostStep_ran {p : Purpose} (hp : s.host.phase = .ran p) :
    s.hostStep = .next (s.afterRun (.outLength p) s.status) := by
  simp only [State.hostStep_of_made hs, State.hostPhase, hp, State.withReg_idle _ _ hb, State.reg]

theorem State.hostStep_decoded (hp : s.host.phase = .decoded) : s.hostStep = .next (s.afterDecode s.status) := by
  simp only [State.hostStep_of_made hs, State.hostPhase, hp, State.withReg_idle _ _ hb, State.reg]

theorem State.hostStep_frameLen (hp : s.host.phase = .frameLen) :
    s.hostStep = .next (s.afterFrameLen s.frFrameLen) := by
  simp only [State.hostStep_of_made hs, State.hostPhase, hp, State.withReg_idle _ _ hb, State.reg]

theorem State.hostStep_classify (hp : s.host.phase = .classify) :
    s.hostStep = .next (s.dispatchClass (classOf (frCtrlOpcode s.frCtrl))) := by
  simp only [State.hostStep_of_made hs, State.hostPhase, hp, State.withReg_idle _ _ hb, State.reg,
    classWord_eq_classOf]

theorem State.hostStep_outLength {p : Purpose} (hp : s.host.phase = .outLength p) :
    s.hostStep = .next (s.withHost (s.host.next [] (.collect p s.outLen.toNat []))) := by
  simp only [State.hostStep_of_made hs, State.hostPhase, hp, State.withReg_idle _ _ hb, State.reg]

end

end

/-! ## The host's moves, in the words of the claims -/

section
variable (s : State)

theorem State.startDecode_loaded (r : Bytes) (h : s.cfg.reassembly = .drop) :
    s.startDecode true r = s.withHost (s.host.next (runOps opDecode) .decoded) := by
  simp [State.startDecode, h]

theorem State.startDecode_drop (r : Bytes) (h : s.cfg.reassembly = .drop) :
    s.startDecode false r = s.withHost (s.host.next (loadAndRun 0x00000001#32 r) .decoded) := by
  simp only [State.startDecode, h, loadOps_append_runOps, Bool.false_eq_true, if_false]
  rfl

/-- Under ACCUMULATE it is Q with the read that is loaded, whatever stands in IN (R236). -/
theorem State.startDecode_accumulate (loaded : Bool) (r : Bytes) (h : s.cfg.reassembly = .accumulate) :
    s.startDecode loaded r = s.withHost
      { s.host.next (loadAndRun 0x00000001#32 ((s.host.queue ++ r).take s.cfg.inCap.toNat)) .decoded with
        queue := s.host.queue ++ r } := by
  simp only [State.startDecode, h, loadOps_append_runOps]
  rfl

theorem State.received_awaitHs (r : Bytes) (h : s.host.conn = .awaitHs) :
    s.received r = s.withHost (s.host.next (loadAndRun 0x00000006#32 r) (.detected r)) := by
  simp only [State.received, h, loadOps_append_runOps]
  rfl

theorem State.received_opened (r : Bytes) (h : s.host.conn = .opened) : s.received r = s.startDecode false r := by
  simp only [State.received, h]

/-- Results are used only with ERR = 0 (R248); every other ERR closes (R233, log 11). -/
theorem State.afterRun_transitions (hs : s.host.script = []) (p : Phase) :
    (s.err = 0#4 → s.afterRun p s.status = s.withHost { s.host with phase := p })
      ∧ (s.err ≠ 0#4 → s.afterRun p s.status = s.withHost { s.host with conn := .closed, phase := .closed }) := by
  rw [← HostSide.next_nil hs]
  exact ⟨fun herr => if_pos herr, fun herr => if_neg herr⟩

theorem State.afterDetect_found (r : Bytes) {v : Word} (h : v.getLsbD 0 = true) :
    s.afterDetect r v = s.withHost (s.host.next (runOps opHsCompose) (.ran .response)) := if_pos h

/-- Without a handshake the read is a frame (R233), and under FIRST_READ_ONLY the connection is open (C1). -/
theorem State.afterDetect_notFound (r : Bytes) {v : Word} (h : v.getLsbD 0 = false) :
    s.afterDetect r v = State.startDecode (s.withHost { s.host with
      conn := if s.cfg.handshakeCheck = .firstReadOnly then .opened else s.host.conn }) true r := by
  have hnot : ¬ resultDetect v = true := Bool.eq_false_iff.mp h
  rw [State.afterDetect, if_neg hnot]
  cases s.cfg.handshakeCheck <;> rfl

theorem State.afterDecode_success (h : s.err = 0#4) :
    s.afterDecode s.status
      = s.withHost (s.host.next [] (if s.cfg.reassembly = .accumulate then .frameLen else .classify)) := by
  have herr : statusErr s.status = ErrCode.success.code := h
  rw [State.afterDecode, if_pos herr]
  cases s.cfg.reassembly <;> rfl

/-- A text is read out before it is validated (R238). -/
theorem State.dispatchClass_text :
    s.dispatchClass (classOf 0x1#4) = s.withHost (s.host.next [] (.outLength .text)) := rfl

theorem State.dispatchClass_ping :
    s.dispatchClass (classOf 0x9#4) = s.withHost (s.host.next (runOps opGenPong) (.ran .reply)) := rfl

theorem State.dispatchClass_pong : s.dispatchClass (classOf 0xA#4) = s.nextMessage := rfl

theorem State.dispatchClass_close : s.dispatchClass (classOf 0x8#4) = s.closeConn := rfl

theorem classOf_unhandled {op : BitVec 4} (h : op ∉ [0x1#4, 0x8#4, 0x9#4, 0xA#4]) : classOf op = 0#32 := by
  simp_all [classOf]

/-- UNHANDLED_OPCODE decides on an opcode with no predicate (R243). -/
theorem State.dispatchClass_unhandled {op : BitVec 4} (h : op ∉ [0x1#4, 0x8#4, 0x9#4, 0xA#4]) :
    s.dispatchClass (classOf op)
      = if s.cfg.unhandledOpcode = .ignore then s.nextMessage else s.closeConn := by
  rw [classOf_unhandled h]
  unfold State.dispatchClass
  cases s.cfg.unhandledOpcode <;> rfl

end

/-! ## Read -/

section
variable {s : State} {rest : List ReadResult}

/-- A Read that fails or returns no bytes closes the connection (R244). -/
theorem State.hostRead_closes (h : s.host.inbox = .transportError :: rest ∨ s.host.inbox = .bytes [] :: rest) :
    s.hostRead = s.withHost { s.host with inbox := rest, conn := .closed, phase := .closed } := by
  rcases h with h | h <;> simp [State.hostRead, h, State.closeConn]

/-- A Read takes READ_MAX bytes of a result, and what is left is the next one (log 7). -/
theorem State.hostRead_bytes {r : Bytes} (h : s.host.inbox = .bytes r :: rest) (hr : r ≠ [])
    (hmax : 1 ≤ s.cfg.readMax) :
    s.hostRead = State.received (s.withHost { s.host with
      inbox := if r.length ≤ s.cfg.readMax then rest else .bytes (r.drop s.cfg.readMax) :: rest })
        (r.take s.cfg.readMax) := by
  have hgot : r.take s.cfg.readMax ≠ [] := by simp [List.take_eq_nil_iff, hr, Nat.ne_of_gt hmax]
  simp only [State.hostRead, h, List.drop_eq_nil_iff, if_neg hgot]

end

/-! ## The read-out of OUT -/

theorem State.collected_eq_ite (s : State) (p : Purpose) (o : Bytes) :
    s.collected p o = s.withHost (s.host.next [] (if p = .text then .validate o else .write p o)) := by
  cases p <;> rfl

section
variable {s : State} (hsched : s.schedule = []) (hb : s.busy = false)
include hsched hb

/-- The rest of a read-out, byte by byte (R232). -/
theorem State.run_collect {p : Purpose} {o : Bytes} (hread : ∀ i b, o[i]? = some b → s.outRead i = .ok b)
    (got rest : Bytes) (ho : got ++ rest = o) :
    Sys2Proof.core.run (rest.length + 1) (s.withHost (s.host.next [] (.collect p o.length got)))
      = .next (s.withHost (s.host.next [] (if p = .text then .validate o else .write p o))) := by
  have hidle (g : HostSide) : step (s.withHost g) = (s.withHost g).hostStep := step_of_idle hsched hb
  induction rest generalizing got with
  | nil =>
    rw [List.append_nil] at ho
    subst ho
    rw [List.length_nil, core_run_one, hidle, State.hostStep_collect_end rfl rfl (Nat.le_refl _),
      State.collected_eq_ite]
    rfl
  | cons b rest ih =>
    have hlt : got.length < o.length := by simp [← ho]
    have hbyte : s.outRead got.length = .ok b := hread _ b (by simp [← ho])
    have hstep := (hidle _).trans
      (State.hostStep_collect_byte (s := s.withHost (s.host.next [] (.collect p o.length got))) rfl rfl hlt hbyte)
    rw [List.length_cons, core_run_succ hstep]
    exact ih (got ++ [b]) (by simp [ho])

/-- OUT_LEN, its bytes, and the end of the read-out (R232, R238). -/
theorem State.run_outLength {p : Purpose} {o : Bytes} (hs : s.host.script = []) (hp : s.host.phase = .outLength p)
    (hwf : Memory.wf s.outBuf = true) (hcap : s.outLen.toNat ≤ s.cfg.outCap.toNat)
    (ho : Memory.readBytes s.outBuf 0 s.outLen.toNat = some o) :
    Sys2Proof.core.run (s.outLen.toNat + 2) s
      = .next (s.withHost (s.host.next [] (if p = .text then .validate o else .write p o))) := by
  obtain ⟨hlen, hbytes⟩ := (Memory.readBytes_eq_some hwf).mp ho
  have hread : ∀ i b, o[i]? = some b → s.outRead i = .ok b := by
    intro i b hi
    obtain ⟨hlt, -⟩ := List.getElem?_eq_some_iff.mp hi
    have hout := hbytes i (hlen ▸ hlt)
    rw [Nat.zero_add, hi] at hout
    exact State.outRead_written hb (by omega) hout
  have hstep := (step_of_idle hsched hb).trans (State.hostStep_outLength hs hb hp)
  rw [core_run_succ hstep, ← hlen]
  exact State.run_collect hsched hb hread [] o rfl

end

/-! ## Write -/

/-- A Write that succeeds is recorded; after the response the connection is open, else the next message follows. -/
theorem State.afterWrite_ok (s : State) (p : Purpose) (out : Bytes) :
    s.afterWrite true p out = s.withHost (if p = .response then
        { s.host with
          draws := s.host.draws + 1, sent := s.host.sent ++ [out], script := [], phase := .read, conn := .opened }
      else HostSide.atNextMessage s.cfg { s.host with draws := s.host.draws + 1, sent := s.host.sent ++ [out] }) := by
  cases p
  case response => rfl
  all_goals exact State.nextMessage_eq_atNextMessage _

/-! ## What the reference host goes on to -/

/-- The reference host between two accesses of its loop, on a connection that is not closed (R249). -/
structure State.Looping (s : State) : Prop where
  cfgOk : s.cfg.wf = true
  inputReady : s.InputReady
  idle : s.busy = false
  made : s.host.script = []
  alive : s.host.conn ≠ .closed

/-- The bounds of an allowed configuration (R7, R9, R13) that the reference host relies on. -/
theorem Config.wf_bounds {c : Config} (h : c.wf = true) :
    2 ≤ c.inCap.toNat ∧ 65536 ≤ c.maxEncodeLen ∧ c.readMax ≤ c.inCap.toNat := by
  simp only [Config.wf, Bool.and_eq_true, decide_eq_true_eq] at h
  omega

section
variable {s : State} (h : s.Looping)
include h

theorem State.Looping.withHost {g : HostSide} (hmade : g.script = []) (halive : g.conn ≠ .closed) :
    (s.withHost g).Looping := ⟨h.cfgOk, h.inputReady, h.idle, hmade, halive⟩

section
variable {g : HostSide} (halive : g.conn ≠ .closed)
include halive

/-- A script to be made, of whatever kind, is followed by a phase that uses no result (R248). -/
theorem State.Looping.hostInv_of_scriptOk (hscript : (s.withHost g).ScriptOk) (huses : g.phase.usesResults = false) :
    (s.withHost g).HostInv where
  scriptOk := hscript
  inputReady := h.inputReady
  collectOk := fun p n got hp => by
    rw [show g.phase = .collect p n got from hp] at huses
    cases huses
  resultsOk := fun hused => Bool.noConfusion (huses.symm.trans hused)
  closedOk := fun hclosed => absurd hclosed halive

/-- `load IN, bs; run op` (R94), of a sequence that fits IN. -/
theorem State.Looping.hostInv_of_load {bs : Bytes} {op : Byte} (hscript : g.script = loadOps bs ++ runOps op)
    (hop : op ∈ tabledOps) (henc : EncodesOk op bs.length) (hfits : bs.length ≤ s.cfg.inCap.toNat)
    (huses : g.phase.usesResults = false) : (s.withHost g).HostInv := by
  refine h.hostInv_of_scriptOk halive (.inl ⟨0, bs, op, ?_, hop, ?_, ?_, Memory.filled_zero _, h.idle⟩) huses
  · rw [Nat.zero_add]
    exact hscript
  · rwa [Nat.zero_add]
  · rwa [Nat.zero_add]

/-- `run op` on what stands in IN. -/
theorem State.Looping.hostInv_of_run {op : Byte} (hscript : g.script = runOps op) (hop : op ∈ tabledOps)
    (hne : op ≠ opEncodeText) (huses : g.phase.usesResults = false) : (s.withHost g).HostInv :=
  h.hostInv_of_scriptOk halive (.inr (.inl ⟨op, hscript, hop, fun heq => absurd heq hne, h.idle⟩)) huses

/-- The next phase of the loop with nothing to be run before it. -/
theorem State.Looping.hostInv_of_made (hscript : g.script = []) (huses : g.phase.usesResults = false) :
    (s.withHost g).HostInv :=
  h.hostInv_of_scriptOk halive (.inr (.inr (.inr ⟨hscript, h.idle⟩))) huses

/-- A phase that uses a result, entered with ERR = 0 (R248); in a read-out, within OUT_LEN. -/
theorem State.Looping.hostInv_of_success (hscript : g.script = []) (herr : s.err = 0#4)
    (hcollect : ∀ p n got, g.phase = .collect p n got → got.length ≤ n ∧ n ≤ s.outLen.toNat) :
    (s.withHost g).HostInv where
  scriptOk := .inr (.inr (.inr ⟨hscript, h.idle⟩))
  inputReady := h.inputReady
  collectOk := fun p n got hp => ⟨hscript, hcollect p n got hp⟩
  resultsOk := fun _ => ⟨hscript, herr⟩
  closedOk := fun hclosed => absurd hclosed halive

end

theorem State.Looping.hostInv_closeConn : s.closeConn.HostInv where
  scriptOk := .inr (.inr (.inr ⟨h.made, h.idle⟩))
  inputReady := h.inputReady
  collectOk := fun _ _ _ hp => Phase.noConfusion hp
  resultsOk := fun hused => Bool.noConfusion hused
  closedOk := fun _ => ⟨rfl, h.made⟩

theorem State.Looping.hostInv_startDecode {loaded : Bool} {r : Bytes}
    (hr : loaded = false → r.length ≤ s.cfg.inCap.toNat) : (s.startDecode loaded r).HostInv := by
  have hop : opDecode ∈ tabledOps := by decide
  have hne : opDecode ≠ opEncodeText := by decide
  unfold State.startDecode
  split
  · cases loaded with
    | true => exact h.hostInv_of_run (g := s.host.next _ _) h.alive rfl hop hne rfl
    | false => exact h.hostInv_of_load (g := s.host.next _ _) h.alive rfl hop (fun heq => absurd heq hne) (hr rfl) rfl
  · exact h.hostInv_of_load (g := { s.host.next _ _ with queue := _ }) h.alive rfl hop (fun heq => absurd heq hne)
      (List.length_take_le _ _) rfl

theorem State.Looping.hostInv_nextMessage : s.nextMessage.HostInv := by
  unfold State.nextMessage
  split
  · exact h.hostInv_startDecode fun _ => Nat.zero_le _
  · exact h.hostInv_of_made (g := s.host.next _ _) h.alive rfl rfl

theorem State.Looping.hostInv_received {r : Bytes} (hr : r.length ≤ s.cfg.inCap.toNat) : (s.received r).HostInv := by
  unfold State.received
  split
  · exact h.hostInv_of_load (g := s.host.next _ _) h.alive rfl (op := opHsDetect) (by decide)
      (fun heq => absurd heq (by decide)) hr rfl
  · exact h.hostInv_startDecode fun _ => hr
  · exact h.hostInv_closeConn

/-- A Read returns at most READ_MAX bytes, which fit IN (R13, R232). -/
theorem State.Looping.hostInv_hostRead (hp : s.host.phase = .read) : s.hostRead.HostInv := by
  obtain ⟨-, -, hmax⟩ := Config.wf_bounds h.cfgOk
  have h' := fun l => h.withHost (g := { s.host with inbox := l }) h.made h.alive
  unfold State.hostRead
  split
  · exact h.hostInv_of_made (g := s.host) h.alive h.made (by rw [hp]; rfl)
  · exact (h' _).hostInv_closeConn
  · rename_i r rest _
    dsimp only
    split
    · exact (h' _).hostInv_closeConn
    · exact (h' _).hostInv_received ((List.length_take_le _ r).trans hmax)

theorem State.Looping.hostInv_afterRun {p : Phase} (hp : ∀ q n got, p ≠ .collect q n got) :
    (s.afterRun p s.status).HostInv := by
  unfold State.afterRun
  split
  · rename_i herr
    exact h.hostInv_of_success (g := s.host.next _ _) h.alive rfl herr fun q n got hq => absurd hq (hp q n got)
  · exact h.hostInv_closeConn

theorem State.Looping.hostInv_afterDetect (r : Bytes) (v : Word) : (s.afterDetect r v).HostInv := by
  unfold State.afterDetect
  split
  · exact h.hostInv_of_run (g := s.host.next _ _) h.alive rfl (op := opHsCompose) (by decide) (by decide) rfl
  · split
    · exact (h.withHost (g := { s.host with conn := .opened }) h.made (by simp)).hostInv_startDecode (by simp)
    · exact h.hostInv_startDecode (by simp)

theorem State.Looping.hostInv_afterDecode : (s.afterDecode s.status).HostInv := by
  unfold State.afterDecode
  split
  · rename_i herr
    split <;> exact h.hostInv_of_success (g := s.host.next _ _) h.alive rfl herr (by simp)
  · split
    · exact h.hostInv_of_made (g := s.host.next _ _) h.alive rfl rfl
    · split
      · exact h.hostInv_of_made (g := { s.host.next _ _ with queue := _ }) h.alive rfl rfl
      · exact h.hostInv_of_made (g := s.host.next _ _) h.alive rfl rfl

theorem State.Looping.hostInv_dispatchClass (herr : s.err = 0#4) (c : Word) : (s.dispatchClass c).HostInv := by
  unfold State.dispatchClass
  split
  · exact h.hostInv_of_success (g := s.host.next _ _) h.alive rfl herr (by simp)
  · split
    · exact h.hostInv_of_run (g := s.host.next _ _) h.alive rfl (op := opGenPong) (by decide) (by decide) rfl
    · split
      · exact h.hostInv_nextMessage
      · split
        · exact h.hostInv_closeConn
        · split
          · exact h.hostInv_nextMessage
          · exact h.hostInv_closeConn

theorem State.Looping.hostInv_collected (p : Purpose) (got : Bytes) : (s.collected p got).HostInv := by
  cases p <;> exact h.hostInv_of_made (g := s.host.next _ _) h.alive rfl rfl

theorem State.Looping.hostInv_afterWrite (ok : Bool) (p : Purpose) (out : Bytes) : (s.afterWrite ok p out).HostInv := by
  have h' := fun l n => h.withHost (g := { s.host with sent := l, draws := n }) h.made h.alive
  unfold State.afterWrite
  dsimp only
  split
  · split
    · exact h.hostInv_of_made (g := { s.host with script := _, phase := _, sent := _, conn := _, draws := _ })
        (by simp) rfl rfl
    · exact (h' _ _).hostInv_nextMessage
    · exact (h' _ _).hostInv_nextMessage
  · exact (h' _ _).hostInv_closeConn

theorem State.Looping.hostInv_afterValidate (ok : Bool) (x : Bytes) : (s.afterValidate ok x).HostInv := by
  unfold State.afterValidate
  split
  · exact h.hostInv_of_made (g := s.host.next _ _) h.alive rfl rfl
  · exact h.hostInv_closeConn

theorem State.Looping.hostInv_afterStore (ok : Bool) (x : Bytes) : (s.afterStore ok x).HostInv := by
  obtain ⟨hcap, -⟩ := Config.wf_bounds h.cfgOk
  have h' := fun l n => h.withHost (g := { s.host with stored := l, draws := n }) h.made h.alive
  unfold State.afterStore
  dsimp only
  split
  · exact (h' (s.host.stored ++ [x]) (s.host.draws + 1)).hostInv_of_load (g := HostSide.next _ _ _) h.alive rfl
      (op := opEncodeText) (by decide) (fun _ => rfl) hcap rfl
  · exact (h' _ _).hostInv_closeConn

end

/-! ## The steps of a script -/

section
variable {s : State} {rest : List HostOp}

theorem State.hostStep_access {a : HostAccess} {t : State} (hs : s.host.script = .access a :: rest)
    (h : (s.withHost { s.host with script := rest }).access a = .ok t) : s.hostStep = .next t := by
  simp only [State.hostStep, hs, State.hostAccess, h]

theorem State.hostStep_inLen {v : Word} (hs : s.host.script = .access (.regWrite 4 Reg.inLen.offset v) :: rest)
    (hb : s.busy = false) :
    s.hostStep = .next { s.withHost { s.host with script := rest } with inLen := v } :=
  State.hostStep_access hs (State.regWrite_inLen_idle (s := s.withHost _) v hb)

theorem State.hostStep_inWrite {i : Nat} {b : Byte} (hs : s.host.script = .access (.inWrite i b) :: rest)
    (hb : s.busy = false) (hi : i < s.cfg.inCap.toNat) :
    s.hostStep = .next
      { s.withHost { s.host with script := rest } with inBuf := Memory.write s.inBuf i b } :=
  State.hostStep_access hs (State.inWrite_idle (s := s.withHost _) b hb hi)

theorem State.hostStep_issue {op : Byte} (hs : s.host.script = cmdOp op :: rest) (hb : s.busy = false) :
    s.hostStep = .next ((s.withHost { s.host with script := rest }).issue (commandWord op)) :=
  State.hostStep_access hs (State.regWrite_cmd_idle (s := s.withHost _) _ hb)

theorem State.hostStep_wait_idle (hs : s.host.script = .wait :: rest) (hb : s.busy = false) :
    s.hostStep = .next (s.withHost { s.host with script := rest }) := by
  have hst : statusBusy s.status = false := hb
  simp [State.hostStep, hs, State.hostWait, State.regRead_status, hst]

end

/-! ## The host's invariant, step by step -/

/-- A byte of `OUT[0 .. OUT_LEN-1]` can be read out: every one of them is written (R29, R40). -/
theorem State.Inv.outRead_ok {s : State} (h : s.Inv) (hb : s.busy = false) {i : Nat} (hi : i < s.outLen.toNat) :
    ∃ b, s.outRead i = .ok b := by
  have hwritten := (Memory.filled_iff h.outWf _).mp h.outFilled i hi
  obtain ⟨b, hread⟩ := Option.isSome_iff_exists.mp hwritten
  exact ⟨b, State.outRead_written hb (hi.trans_le h.outLenOk) hread⟩

/-- After a write of IN the bytes that are written are those of before and the new one. -/
theorem Memory.filled_write {m : Memory} (hwf : Memory.wf m = true) {n k a : Nat} (h : Memory.filled n m = true)
    (b : Byte) (hk : ∀ i < k, i = a ∨ i < n) : Memory.filled k (Memory.write m a b) = true := by
  refine (Memory.filled_iff (Memory.wf_write hwf a b) k).mpr fun i hi => ?_
  rw [Memory.read_write]
  split
  · rfl
  · exact (Memory.filled_iff hwf n).mp h i ((hk i hi).resolve_left ‹_›)

/-- The codes of R81 are commands. -/
theorem decodeCmd_commandWord_tabled {op : Byte} (h : op ∈ tabledOps) :
    ∃ i, decodeCmd (commandWord op) = .ok i ∧ (i = .encodeText → op = opEncodeText) := by
  simp only [tabledOps, List.mem_cons, List.not_mem_nil, or_false] at h
  rcases h with rfl | rfl | rfl | rfl | rfl | rfl | rfl <;> exact ⟨_, rfl, by decide⟩

/-- A command word completes as its command: under DECODE the header fetched means the same (log 1). -/
theorem State.complete_of_command {s : State} {i : Instr} (h : decodeCmd s.cmd = .ok i) : s.complete = exec i s := by
  by_cases hi : i = .decode
  · subst hi
    exact State.complete_of_decodeWord h
  · exact State.complete_of_fetch (State.fetch_of_command h hi)

section
variable {s : State} (h : s.HostInv)
include h

theorem State.HostInv.withSchedule (l : List Agent) : State.HostInv { s with schedule := l } := { h with }

/-- What a step of `load; run` leaves has only its script and the input to show: the phases that use a result or have
closed the connection have no script to make. -/
theorem State.HostInv.of_script_ne_nil {t : State} (hscript : s.host.script ≠ [])
    (hphase : t.host.phase = s.host.phase) (hconn : t.host.conn = s.host.conn) (hok : t.ScriptOk)
    (hready : t.InputReady) : t.HostInv where
  scriptOk := hok
  inputReady := hready
  collectOk := fun p n got hp => absurd (h.collectOk p n got (hphase.symm.trans hp)).1 hscript
  resultsOk := fun hused => absurd (h.resultsOk (hphase ▸ hused)).1 hscript
  closedOk := fun hclosed => absurd (h.closedOk (hconn.symm.trans hclosed)).2 hscript

/-- While a command is pending the host waits for it, and it is a command of R81 on a readable input. -/
theorem State.HostInv.pending (hb : s.busy = true) :
    s.host.script = [.wait] ∧ ∃ op, s.cmd = commandWord op ∧ op ∈ tabledOps ∧ EncodesOk op s.inLen.toNat := by
  rcases h.scriptOk with ⟨_, _, _, _, _, _, _, _, hidle⟩ | ⟨_, _, _, _, hidle⟩ | hwait | ⟨_, hidle⟩
  · exact Bool.noConfusion (hidle.symm.trans hb)
  · exact Bool.noConfusion (hidle.symm.trans hb)
  · exact hwait
  · exact Bool.noConfusion (hidle.symm.trans hb)

theorem State.HostInv.idle_of_made (hs : s.host.script = []) : s.busy = false := by
  by_contra hb
  obtain ⟨hwait, -⟩ := h.pending (Bool.eq_true_of_not_eq_false hb)
  simp [hs] at hwait

/-- The input of a command is there (R294). -/
theorem State.HostInv.input : ∃ bs, s.input = .bytes bs := by
  obtain ⟨hle, hfilled⟩ := h.inputReady
  obtain ⟨bs, hbs⟩ := Option.isSome_iff_exists.mp hfilled
  exact ⟨bs, State.input_eq_bytes.mpr ⟨hle, hbs⟩⟩

/-- The read-out of OUT stays within OUT_LEN, where every byte is written (R248, R298). -/
theorem State.HostInv.hostStep_collect (hinv : s.Inv) (hl : s.Looping) {p : Purpose} {n : Nat} {got : Bytes}
    (hp : s.host.phase = .collect p n got) : ∃ t, s.hostStep = .next t ∧ t.HostInv := by
  obtain ⟨-, hgot, hn⟩ := h.collectOk p n got hp
  obtain ⟨-, herr⟩ := h.resultsOk (by rw [hp]; rfl)
  rcases Nat.lt_or_ge got.length n with hlt | hge
  · obtain ⟨b, hb⟩ := hinv.outRead_ok hl.idle (hlt.trans_le hn)
    refine ⟨_, State.hostStep_collect_byte hl.made hp hlt hb, hl.hostInv_of_success hl.alive rfl herr ?_⟩
    rintro _ _ _ ⟨⟩
    rw [List.length_append]
    exact ⟨hlt, hn⟩
  · exact ⟨_, State.hostStep_collect_end hl.made hp hge, hl.hostInv_collected p got⟩

/-- A step of the loop of R249, in each phase. -/
theorem State.HostInv.hostStep_looping (hinv : s.Inv) (hl : s.Looping) : ∃ t, s.hostStep = .next t ∧ t.HostInv := by
  have hs := hl.made
  have hb := hl.idle
  have herr : s.host.phase.usesResults = true → s.err = 0#4 := fun hused => (h.resultsOk hused).2
  cases hp : s.host.phase with
  | read => exact ⟨_, State.hostStep_read hs hp, hl.hostInv_hostRead hp⟩
  | detected r => exact ⟨_, State.hostStep_detected hs hb hp, hl.hostInv_afterRun (by simp)⟩
  | detectResult r => exact ⟨_, State.hostStep_detectResult hs hb hp, hl.hostInv_afterDetect r _⟩
  | ran p => exact ⟨_, State.hostStep_ran hs hb hp, hl.hostInv_afterRun (by simp)⟩
  | decoded => exact ⟨_, State.hostStep_decoded hs hb hp, hl.hostInv_afterDecode⟩
  | frameLen =>
    exact ⟨_, State.hostStep_frameLen hs hb hp, hl.hostInv_of_success (g := { s.host.next _ _ with queue := _ })
      hl.alive rfl (herr (by rw [hp]; rfl)) (by simp)⟩
  | classify => exact ⟨_, State.hostStep_classify hs hb hp, hl.hostInv_dispatchClass (herr (by rw [hp]; rfl)) _⟩
  | outLength p =>
    refine ⟨_, State.hostStep_outLength hs hb hp, hl.hostInv_of_success hl.alive rfl (herr (by rw [hp]; rfl)) ?_⟩
    rintro _ _ _ ⟨⟩
    exact ⟨Nat.zero_le _, Nat.le_refl _⟩
  | collect p n got => exact h.hostStep_collect hinv hl hp
  | write p out => exact ⟨_, State.hostStep_write hs hp, hl.hostInv_afterWrite _ p out⟩
  | validate x => exact ⟨_, State.hostStep_validate hs hp, hl.hostInv_afterValidate _ x⟩
  | store x => exact ⟨_, State.hostStep_store hs hp, hl.hostInv_afterStore _ x⟩
  | closed => exact ⟨_, State.hostStep_closed hs hp, h⟩

/-- A connection that is not closed is in its loop, and a closed one has nothing left to do (R242). -/
theorem State.HostInv.hostStep_of_made (hinv : s.Inv) (hs : s.host.script = []) :
    ∃ t, s.hostStep = .next t ∧ t.HostInv := by
  by_cases hclosed : s.host.conn = .closed
  · exact ⟨s, State.hostStep_closed hs (h.closedOk hclosed).1, h⟩
  · exact h.hostStep_looping hinv ⟨hinv.cfgOk, h.inputReady, h.idle_of_made hs, hs, hclosed⟩

/-- A step of a load (R94): the next byte of IN, or IN_LEN once every byte is written. -/
theorem State.HostInv.hostStep_load (hinv : s.Inv) {i : Nat} {bs : Bytes} {op : Byte}
    (hs : s.host.script = inWrites i bs
      ++ [.access (.regWrite 4 Reg.inLen.offset (BitVec.ofNat 32 (i + bs.length)))] ++ runOps op)
    (hop : op ∈ tabledOps) (henc : EncodesOk op (i + bs.length)) (hfits : i + bs.length ≤ s.cfg.inCap.toNat)
    (hfilled : Memory.filled i s.inBuf = true) (hidle : s.busy = false) :
    ∃ t, s.hostStep = .next t ∧ t.HostInv := by
  have hne : s.host.script ≠ [] := by simp [hs]
  cases bs with
  | nil =>
    have hlen : (BitVec.ofNat 32 i).toNat = i := Nat.mod_eq_of_lt (hfits.trans_lt s.cfg.inCap.isLt)
    refine ⟨_, State.hostStep_inLen hs hidle,
      h.of_script_ne_nil hne rfl rfl (.inr (.inl ⟨op, rfl, hop, ?_, hidle⟩)) ?_⟩
    · exact hlen.symm ▸ henc
    · exact ⟨hlen.trans_le hfits, hlen.symm ▸ hfilled⟩
  | cons b bs =>
    have hnext : i + (b :: bs).length = i + 1 + bs.length := by simp only [List.length_cons]; omega
    rw [hnext] at hs henc hfits
    obtain ⟨hle, hready⟩ := h.inputReady
    have hfilled' := Memory.filled_write (k := i + 1) (a := i) hinv.inWf hfilled b (by omega)
    exact ⟨_, State.hostStep_inWrite hs hidle (by omega), h.of_script_ne_nil hne rfl rfl
      (.inl ⟨i + 1, bs, op, rfl, hop, henc, hfits, hfilled', hidle⟩)
      ⟨hle, Memory.filled_write hinv.inWf hready b fun _ => .inr⟩⟩

/-- A step of `load; run` (R94): a step of the load, the issue, or a poll. -/
theorem State.HostInv.hostStep_script (hinv : s.Inv) (hne : s.host.script ≠ []) :
    ∃ t, s.hostStep = .next t ∧ t.HostInv := by
  rcases h.scriptOk with ⟨i, bs, op, hs, hop, henc, hfits, hfilled, hidle⟩ | ⟨op, hs, hop, henc, hidle⟩
    | ⟨hs, -⟩ | ⟨hs, -⟩
  · exact h.hostStep_load hinv hs hop henc hfits hfilled hidle
  · exact ⟨_, State.hostStep_issue hs hidle, h.of_script_ne_nil hne rfl rfl
      (.inr (.inr (.inl ⟨rfl, op, rfl, hop, henc⟩))) h.inputReady⟩
  · cases hb : s.busy with
    | true => exact ⟨s, State.hostStep_wait_busy hb hs, h⟩
    | false => exact ⟨_, State.hostStep_wait_idle hs hb, h.of_script_ne_nil hne rfl rfl
        (.inr (.inr (.inr ⟨rfl, hb⟩))) h.inputReady⟩
  · exact absurd hs hne

theorem State.HostInv.hostStep (hinv : s.Inv) : ∃ t, s.hostStep = .next t ∧ t.HostInv := by
  by_cases hs : s.host.script = []
  · exact h.hostStep_of_made hinv hs
  · exact h.hostStep_script hinv hs

/-- The pending command of the reference host is one of the seven, so its completion is `exec` of it on a readable
input; ENCODE_TEXT is pending only on the two bytes of `OK`. -/
theorem State.HostInv.complete_eq_exec (hb : s.busy = true) :
    ∃ i bs, decodeCmd s.cmd = .ok i ∧ s.input = .bytes bs ∧ s.complete = exec i s
      ∧ (i = .encodeText → bs.length = 2) := by
  obtain ⟨-, op, hcmd, hop, henc⟩ := h.pending hb
  obtain ⟨i, hi, hencode⟩ := decodeCmd_commandWord_tabled hop
  obtain ⟨bs, hbs⟩ := h.input
  rw [← hcmd] at hi
  refine ⟨i, bs, hi, hbs, State.complete_of_command hi, fun heq => ?_⟩
  rw [(State.input_length hbs).1, henc (hencode heq)]

/-- A completion leaves the waiting host as it is. -/
theorem State.HostInv.complete (hb : s.busy = true) : ∃ t, s.complete = .next t ∧ t.HostInv := by
  obtain ⟨i, bs, -, hbs, hexec, -⟩ := h.complete_eq_exec hb
  have hdone := exec_of_bytes (i := i) fun _ => hbs
  obtain ⟨hwait, op, hpending⟩ := h.pending hb
  obtain ⟨hcmd, hlen, hbuf, hcfg, -, hhost⟩ := completionKeepsItsInputs i s _ hdone
  refine ⟨_, hexec.trans hdone, h.of_script_ne_nil (by simp [hwait]) (by rw [hhost]) (by rw [hhost])
    (.inr (.inr (.inl ⟨by rw [hhost, hwait], op, ?_⟩))) ?_⟩
  · rwa [hcmd, hlen]
  · rw [State.InputReady, hlen, hbuf, hcfg]
    exact h.inputReady

end

/-! ## What reaches StoreRecord -/

/-- A step of the loop that neither hands a text to StoreRecord nor is about to. -/
def State.StoresNothing (s t : State) : Prop := t.host.stored = s.host.stored ∧ ∀ x, t.host.phase ≠ .store x

theorem State.OnlyValidStored.of_storesNothing {s t : State} (h : s.OnlyValidStored) (hst : s.StoresNothing t) :
    t.OnlyValidStored := by
  obtain ⟨hstored, hphase⟩ := hst
  exact ⟨fun x hx => h.1 x (hstored ▸ hx), fun x hx => absurd hx (hphase x)⟩

theorem State.OnlyValidStored.congr {s t : State} (h : s.OnlyValidStored)
    (hstored : t.host.stored = s.host.stored) (hphase : t.host.phase = s.host.phase) : t.OnlyValidStored :=
  ⟨fun x hx => h.1 x (hstored ▸ hx), fun x hx => h.2 x (hphase.symm.trans hx)⟩

section
variable (s : State)

theorem State.closeConn_storesNothing : s.StoresNothing s.closeConn := ⟨rfl, nofun⟩

theorem State.startDecode_storesNothing (loaded : Bool) (r : Bytes) :
    s.StoresNothing (s.startDecode loaded r) := by
  unfold State.startDecode
  split <;> exact ⟨rfl, nofun⟩

theorem State.nextMessage_storesNothing : s.StoresNothing s.nextMessage := by
  unfold State.nextMessage
  split
  · exact s.startDecode_storesNothing _ _
  · exact ⟨rfl, nofun⟩

theorem State.received_storesNothing (r : Bytes) : s.StoresNothing (s.received r) := by
  unfold State.received
  split
  · exact ⟨rfl, nofun⟩
  · exact s.startDecode_storesNothing _ _
  · exact s.closeConn_storesNothing

theorem State.hostRead_storesNothing (hp : s.host.phase = .read) : s.StoresNothing s.hostRead := by
  unfold State.hostRead
  split
  · exact ⟨rfl, by simp [hp]⟩
  · exact ⟨rfl, nofun⟩
  · dsimp only
    split
    · exact ⟨rfl, nofun⟩
    · exact State.received_storesNothing (s.withHost _) _

theorem State.afterDetect_storesNothing (r : Bytes) (v : Word) : s.StoresNothing (s.afterDetect r v) := by
  unfold State.afterDetect
  split
  · exact ⟨rfl, nofun⟩
  · split
    · exact State.startDecode_storesNothing (s.withHost _) _ _
    · exact s.startDecode_storesNothing _ _

theorem State.afterRun_storesNothing {p : Phase} (hp : ∀ x, p ≠ .store x) (v : Word) :
    s.StoresNothing (s.afterRun p v) := by
  unfold State.afterRun
  split
  · exact ⟨rfl, hp⟩
  · exact s.closeConn_storesNothing

theorem State.afterDecode_storesNothing (v : Word) : s.StoresNothing (s.afterDecode v) := by
  unfold State.afterDecode
  split
  · split <;> exact ⟨rfl, nofun⟩
  · split
    · exact ⟨rfl, nofun⟩
    · split <;> exact ⟨rfl, nofun⟩

theorem State.dispatchClass_storesNothing (c : Word) : s.StoresNothing (s.dispatchClass c) := by
  unfold State.dispatchClass
  split
  · exact ⟨rfl, nofun⟩
  · split
    · exact ⟨rfl, nofun⟩
    · split
      · exact s.nextMessage_storesNothing
      · split
        · exact s.closeConn_storesNothing
        · split
          · exact s.nextMessage_storesNothing
          · exact s.closeConn_storesNothing

theorem State.collected_storesNothing (p : Purpose) (got : Bytes) : s.StoresNothing (s.collected p got) := by
  cases p <;> exact ⟨rfl, nofun⟩

theorem State.hostCollect_storesNothing {t : State} {p : Purpose} {n : Nat} {got : Bytes}
    (h : s.hostCollect p n got = .next t) : s.StoresNothing t := by
  unfold State.hostCollect at h
  split at h
  · split at h
    · cases h
    · cases h; exact ⟨rfl, nofun⟩
  · cases h; exact s.collected_storesNothing _ _

theorem State.afterWrite_storesNothing (ok : Bool) (p : Purpose) (out : Bytes) :
    s.StoresNothing (s.afterWrite ok p out) := by
  unfold State.afterWrite
  dsimp only
  split
  · split
    · exact ⟨rfl, nofun⟩
    · exact State.nextMessage_storesNothing ((s.withHost _).withHost _)
    · exact State.nextMessage_storesNothing ((s.withHost _).withHost _)
  · exact ⟨rfl, nofun⟩

end

section
variable {s t : State} (h : s.OnlyValidStored)
include h

/-- ValidateText stands before StoreRecord (R238). -/
theorem State.OnlyValidStored.afterValidate (x : Bytes) :
    (s.afterValidate (Config.validateText x) x).OnlyValidStored := by
  unfold State.afterValidate
  split
  · rename_i hvalid
    refine ⟨h.1, ?_⟩
    rintro _ ⟨⟩
    exact hvalid
  · exact h.of_storesNothing s.closeConn_storesNothing

theorem State.OnlyValidStored.afterStore {x : Bytes} (hp : s.host.phase = .store x) (ok : Bool) :
    (s.afterStore ok x).OnlyValidStored := by
  have hstored : ∀ y ∈ s.host.stored ++ [x], Config.validateText y = true := by
    intro y hy
    rcases List.mem_append.mp hy with hy | hy
    · exact h.1 y hy
    · obtain rfl := List.mem_singleton.mp hy
      exact h.2 y hp
  unfold State.afterStore
  dsimp only
  split <;> exact ⟨hstored, nofun⟩

theorem State.OnlyValidStored.hostPhase (hstep : s.hostPhase = .next t) : t.OnlyValidStored := by
  unfold State.hostPhase at hstep
  split at hstep
  · cases hstep; exact h.of_storesNothing (s.hostRead_storesNothing ‹_›)
  · obtain ⟨v, rfl⟩ := State.withReg_next hstep
    exact h.of_storesNothing (s.afterRun_storesNothing (p := .detectResult _) nofun v)
  · obtain ⟨v, rfl⟩ := State.withReg_next hstep; exact h.of_storesNothing (s.afterDetect_storesNothing _ v)
  · obtain ⟨v, rfl⟩ := State.withReg_next hstep
    exact h.of_storesNothing (s.afterRun_storesNothing (p := .outLength _) nofun v)
  · obtain ⟨v, rfl⟩ := State.withReg_next hstep; exact h.of_storesNothing (s.afterDecode_storesNothing v)
  · obtain ⟨v, rfl⟩ := State.withReg_next hstep; exact h.of_storesNothing ⟨rfl, nofun⟩
  · obtain ⟨v, rfl⟩ := State.withReg_next hstep; exact h.of_storesNothing (s.dispatchClass_storesNothing v)
  · obtain ⟨v, rfl⟩ := State.withReg_next hstep; exact h.of_storesNothing ⟨rfl, nofun⟩
  · exact h.of_storesNothing (s.hostCollect_storesNothing hstep)
  · cases hstep; exact h.of_storesNothing (s.afterWrite_storesNothing _ _ _)
  · cases hstep; exact h.afterValidate _
  · cases hstep; exact h.afterStore ‹_› _
  · cases hstep; exact h

/-- The accesses of a script are of the block, and the loop is where the host's phase moves (R111). -/
theorem State.OnlyValidStored.hostStep (hstep : s.hostStep = .next t) : t.OnlyValidStored := by
  unfold State.hostStep at hstep
  split at hstep
  · unfold State.hostAccess at hstep
    split at hstep
    · cases hstep
    · rename_i u hu
      cases hstep
      rcases State.access_ok hu with ⟨-, v, -, rfl⟩ | ⟨-, v, -, rfl⟩ | ⟨-, i, b, -, -, rfl⟩ | ⟨v, rfl⟩
      all_goals exact h.congr rfl rfl
  · unfold State.hostWait at hstep
    split at hstep
    · cases hstep
    · split at hstep
      · cases hstep; exact h
      · cases hstep; exact h.congr rfl rfl
  · exact h.hostPhase hstep

theorem State.OnlyValidStored.complete (hstep : s.complete = .next t) : t.OnlyValidStored := by
  rcases State.complete_next_cases hstep with ⟨c, -, rfl⟩ | ⟨i, bs, e, -, -, -, -, rfl⟩
  all_goals exact h.congr rfl rfl

end

/-! ## The errors a command of the reference host can end with -/

/-- A completion on a readable input ends with ERR = 0, with an error of `perform`, or with OUT_OVERFLOW (R113). -/
theorem exec_err_of_input {i : Instr} {s t : State} {bs : Bytes} (hin : s.input = .bytes bs)
    (h : exec i s = .next t) :
    t.err = 0#4 ∨ (∃ c, i.perform s.cfg bs = .error c ∧ t.err = c.code) ∨ t.err = ErrCode.outOverflow.code := by
  cases (exec_of_bytes (i := i) fun _ => hin).symm.trans h
  rcases s.finish_cases (i.perform s.cfg bs) with ⟨c, hc, hf⟩ | ⟨e, -, -, hf⟩ | ⟨e, -, -, hf⟩ <;> rw [hf]
  · exact .inr (.inl ⟨c, hc, State.raise_err s c⟩)
  · exact .inr (.inr (State.raise_err s _))
  · exact .inl (State.commit_err s)

/-- A payload of two bytes is below MAX_ENCODE_LEN (R9, R174). -/
theorem perform_error_of_okPayload {i : Instr} {c : Config} {bs : Bytes} {e : ErrCode} (hcfg : c.wf = true)
    (hok : i = .encodeText → bs.length = 2) (h : i.perform c bs = .error e) :
    e = .truncHeader ∨ e = .lenRange ∨ e = .truncPayload ∨ e = .hsNoKey := by
  obtain ⟨-, hmax, -⟩ := Config.wf_bounds hcfg
  rcases perform_error h with ⟨-, rfl | rfl | rfl⟩ | ⟨rfl, -⟩ | ⟨-, rfl⟩
  case inr.inl =>
    have hlt := lt_length_of_performEncodeText_error h
    have hlen := hok rfl
    omega
  all_goals simp

/-- In a roomy OUT the one output that can be too long is a response, by its accept value (R118, R213, R245). -/
theorem compose_of_outOverflow {i : Instr} {s t : State} (hroomy : s.cfg.roomy = true)
    (h : exec i s = .next t) (herr : t.err = ErrCode.outOverflow.code) :
    i = .hsCompose ∧ ∃ bs key, s.input = .bytes bs ∧ handshakeKey bs = some key
      ∧ 28 < (Config.base64 (Config.sha1 (key ++ guid))).length := by
  simp only [Config.roomy, Bool.and_eq_true, decide_eq_true_eq] at hroomy
  obtain ⟨hten, hresp⟩ := hroomy
  obtain ⟨-, hgen, hframe⟩ := outputAboveCapacityFails i s
  obtain ⟨bs, e, o, hin, hperf, ho, hlong⟩ := output_of_exec_outOverflow h herr
  have hkind : i.isDecode = true ∨ i = .encodeText ∨ i.readsInput = false ∨ i = .hsDetect ∨ i = .hsCompose := by
    cases i <;> simp [Instr.isDecode, Instr.readsInput]
  rcases hkind with hd | rfl | hr | rfl | rfl
  · exact absurd herr (hframe (.inl hd) hten t h)
  · exact absurd herr (hframe (.inr rfl) hten t h)
  · exact absurd herr (hgen hr (by omega) t h)
  · simp [performDetect_out_none hperf] at ho
  · refine ⟨rfl, bs, ?_⟩
    cases hkey : handshakeKey bs with
    | none =>
      rw [Instr.perform, performCompose_of_no_key hkey] at hperf
      cases hperf
    | some key =>
      rw [Instr.perform, performCompose_of_key hkey] at hperf
      cases hperf
      cases ho
      rw [response_length] at hlong
      exact ⟨key, hin rfl, rfl, show 28 < (acceptValue _ _ key).length by omega⟩

/-! ## The statements -/

/-- Settles O59: of the four kinds of step, the completion and the host's keep the invariant, an idle turn of the codec
changes nothing, and the reset input is excluded. -/
theorem referenceHostNeverFaults : Obligations.ReferenceHostNeverFaults := by
  intro s hinv h hreset
  have hinv' := hinv.withSchedule s.schedule.tail
  have h' := h.withSchedule s.schedule.tail
  rcases step_cases s with ⟨hb, hstep⟩ | ⟨hstep, -⟩ | ⟨hmem, -⟩ | ⟨-, hstep⟩
  · rw [hstep]
    exact h'.complete hb
  · rw [hstep]
    exact h'.hostStep hinv'
  · exact absurd hmem hreset
  · exact ⟨_, hstep, h'⟩

/-- Settles O53: the step in each phase is one function of the model, and the opcode decides its branch. -/
theorem dispatchFollowsTheClass : Obligations.DispatchFollowsTheClass := by
  intro s hs hb
  refine ⟨fun hp herr => ?_, fun hp => ?_, fun hp => ?_, fun x hp => ?_, fun x hp => ?_⟩
  · rw [State.hostStep_decoded hs hb hp, State.afterDecode_success s herr, HostSide.next_nil hs]
  · rw [State.hostStep_frameLen hs hb hp, State.afterFrameLen, HostSide.next_nil hs]
  · rw [State.hostStep_classify hs hb hp]
    refine ⟨fun hop => ?_, fun hop => ?_, fun hop => ?_, fun hop => ?_, fun hop => ?_⟩
    · rw [hop, s.dispatchClass_text, HostSide.next_nil hs]
    · rw [hop, s.dispatchClass_ping]
      rfl
    · rw [hop, s.dispatchClass_pong, s.nextMessage_eq_atNextMessage]
    · rw [hop, s.dispatchClass_close, State.closeConn]
    · rw [s.dispatchClass_unhandled hop]
      refine ⟨fun hig => ?_, fun hcl => ?_⟩
      · rw [if_pos hig, s.nextMessage_eq_atNextMessage]
      · rw [if_neg (by simp [hcl]), State.closeConn]
  · rw [State.hostStep_validate hs hp, State.afterValidate]
    split
    · rw [HostSide.next_nil hs]
    · rw [State.closeConn]
  · rw [State.hostStep_store hs hp, State.afterStore]
    dsimp only
    split
    · rw [loadOps_append_runOps]
      rfl
    · rfl

/-- Settles O56: with no script to make, the phase `closed` leaves the state as it is. -/
theorem closedConnectionIsTerminal : Obligations.ClosedConnectionIsTerminal := by
  intro s t h hclosed hstep
  obtain ⟨hphase, hs⟩ := h.closedOk hclosed
  have hidle := h.idle_of_made hs
  rcases step_next hstep with ⟨hb, -⟩ | hh | ⟨hreset, rfl⟩ | rfl
  · exact Bool.noConfusion (hidle.symm.trans hb)
  · cases hh.symm.trans (State.hostStep_closed (s := { s with schedule := s.schedule.tail }) hs hphase)
    exact ⟨rfl, hphase, hidle, .inl rfl⟩
  · exact ⟨rfl, hphase, statusBusy_zero, .inr ⟨rfl, hreset⟩⟩
  · exact ⟨rfl, hphase, hidle, .inl rfl⟩

/-- Settles O57: what a Read takes, what the read-out of OUT collects, and what a Write's answer leads to. -/
theorem transportOutcomes : Obligations.TransportOutcomes := by
  intro s hs
  refine ⟨fun hp => ?_, fun p o hp hb hsched hwf hcap ho => ?_, fun p out hp => ?_⟩
  · rw [State.hostStep_read hs hp]
    refine ⟨fun hempty => ?_, fun rest hclose => ?_, ?_⟩
    · rw [State.hostRead, hempty]
    · rw [State.hostRead_closes hclose]
    · rintro r rest got left hin hr hmax rfl rfl
      rw [State.hostRead_bytes hin hr hmax]
      refine ⟨fun hconn => ?_, fun hconn hdrop => ?_, fun hconn hacc => ?_⟩
      · exact congrArg Host.Outcome.next (State.received_awaitHs _ _ hconn)
      · rw [State.received_opened _ _ (by exact hconn)]
        exact congrArg Host.Outcome.next (State.startDecode_drop _ _ hdrop)
      · rw [State.received_opened _ _ (by exact hconn)]
        exact congrArg Host.Outcome.next (State.startDecode_accumulate _ _ _ hacc)
  · rw [State.run_outLength hsched hb hs hp hwf hcap ho, HostSide.next_nil hs]
  · rw [State.hostStep_write hs hp]
    cases Config.writeOk s.host.draws out with
    | false => rfl
    | true =>
      rw [State.afterWrite_ok, if_pos rfl, ← hs]

/-- Settles O58: the host's step is the only one that changes what is stored or about to be. -/
theorem rejectedTextIsNeverStored : Obligations.RejectedTextIsNeverStored := by
  intro s t h hstep
  have h' : State.OnlyValidStored { s with schedule := s.schedule.tail } := h.congr rfl rfl
  rcases step_next hstep with ⟨-, hc⟩ | hh | ⟨-, rfl⟩ | rfl
  · exact h'.complete hc
  · exact h'.hostStep hh
  · exact h'.congr rfl rfl
  · exact h'

/-- Settles O60: only the completion clears BUSY; on the pending command's input `perform` has none of the three errors,
and only a response can be too long for OUT. -/
theorem referenceHostMeetsNoInterfaceError : Obligations.ReferenceHostMeetsNoInterfaceError := by
  intro s t hinv h hroomy hreset hb hstep ht
  have h' := h.withSchedule s.schedule.tail
  obtain ⟨i, bs, hcmd, hbs, hexec, hok⟩ := h'.complete_eq_exec hb
  have hdone : exec i { s with schedule := s.schedule.tail } = .next t := by
    rcases step_status hstep with ⟨-, -, hc⟩ | ⟨⟨rest, hs⟩, -⟩ | ⟨hidle, -⟩ | ⟨hkeep, -⟩
    · rw [← hexec, hc]
    · simp [hs] at hreset
    · exact Bool.noConfusion (hidle.symm.trans hb)
    · exact Bool.noConfusion (ht.symm.trans (hkeep.trans hb))
  refine ⟨?_, fun herr => ?_⟩
  · rcases exec_err_of_input hbs hdone with herr | ⟨c, hc, herr⟩ | herr <;> rw [herr]
    · decide
    · rcases perform_error_of_okPayload hinv.cfgOk hok hc with rfl | rfl | rfl | rfl <;> decide
    · decide
  · obtain ⟨rfl, hlong⟩ := compose_of_outOverflow (s := { s with schedule := s.schedule.tail }) hroomy hdone herr
    exact ⟨(Code.command.inj (decodeCmd_eq_ok_iff.mp hcmd)).symm, hlong⟩

/-- Settles O54: the two conditions under which Q is discarded are those of `afterDecode`. -/
theorem decodeFailureIsNoMessage : Obligations.DecodeFailureIsNoMessage := by
  intro s hs hp hb herr
  have hfail : statusErr s.status ≠ ErrCode.success.code := herr
  rw [State.hostStep_decoded hs hb hp, State.afterDecode, if_neg hfail, HostSide.next_nil hs]
  refine ⟨fun hdrop => ?_, fun hacc => ?_⟩
  · rw [hdrop]
  · rw [hacc]
    refine ⟨fun hdiscard => ?_, fun hrange hlen => ?_⟩
    · exact congrArg _ (if_pos hdiscard)
    · exact congrArg _ (if_neg (not_or.mpr ⟨hrange, hlen.not_gt⟩))

/-- Settles O55: CONN is changed before the read is decoded, and so `startDecode` keeps the change. -/
theorem handshakeCheckTransitions : Obligations.HandshakeCheckTransitions := by
  intro s hs hb
  refine ⟨fun r hp => ?_, fun r conn hp hconn => ?_, fun p hp => ?_⟩
  · rw [State.hostStep_detected hs hb hp]
    exact (s.afterRun_transitions hs _).imp (congrArg _ ∘ ·) (congrArg _ ∘ ·)
  · subst hconn
    rw [State.hostStep_detectResult hs hb hp]
    refine ⟨fun hfound => ?_, fun hnot hdrop => ?_, fun hnot hacc => ?_⟩
    · rw [s.afterDetect_found r hfound]
      rfl
    · rw [s.afterDetect_notFound r hnot]
      exact congrArg Host.Outcome.next (State.startDecode_loaded _ r hdrop)
    · rw [s.afterDetect_notFound r hnot]
      exact congrArg Host.Outcome.next (State.startDecode_accumulate _ true r hacc)
  · rw [State.hostStep_ran hs hb hp]
    exact (s.afterRun_transitions hs _).imp (congrArg _ ∘ ·) (congrArg _ ∘ ·)

end Sys2Proof.Machine
end

section
/-! SUPPORT. Proofs of the statements of 60_exceptions.md: the completion of an illegal command word (R261). -/

namespace Sys2Proof.Machine

/-- A word that is no command fails the fetch before IN and IN_LEN are looked at (R83, R261). -/
theorem State.fetch_of_illegal {s : State} {e : DecodeError} (hcmd : decodeCmd s.cmd = .error e) :
    s.fetch = .error e := by
  rw [State.fetch, hcmd]

theorem State.complete_of_illegal {s : State} {e : DecodeError} (hcmd : decodeCmd s.cmd = .error e) :
    s.complete = .next (s.raise .illegalCmd) := by
  rw [State.complete, State.fetch_of_illegal hcmd]

/-- Settles O10: the fetch fails on the word alone, and the completion is then the error ILLEGAL_CMD. -/
theorem illegalWordChangesOnlyStatus : Obligations.IllegalWordChangesOnlyStatus := by
  intro s e hcmd
  have hcomplete := State.complete_of_illegal hcmd
  refine ⟨_, hcomplete, s.raise_failsWith .illegalCmd, fun hb hs => ?_⟩
  rw [step_of_pending hs hb, hcomplete]

end Sys2Proof.Machine
end

section
/-! SUPPORT. Proofs of the statements of 70_reset_and_hazards.md: the host's accesses while a command is pending (R296,
R297) and the reset input (R290 to R292). -/

namespace Sys2Proof.Machine

/-! ## The register map -/

theorem regAt_of_offset (r : Reg) : regAt r.offset = some r := by
  cases r <;> rfl

/-! ## The host's accesses while a command is pending -/

section
variable {s : State} (h : s.busy = true)
include h

/-- R296, for the two registers the host may write. -/
theorem State.regWrite_busy {r : Reg} (v : Word) (hr : r.writable = true) :
    s.regWrite 4 r.offset v = .error .writeWhileBusy := by
  simp [State.regWrite, regAt_of_offset, hr, h]

theorem State.inWrite_busy {i : Nat} (b : Byte) (hi : i < s.cfg.inCap.toNat) :
    s.inWrite i b = .error .writeWhileBusy := by
  simp [State.inWrite, h, Nat.not_le.mpr hi]

/-- R297, for the registers whose value the pending command may change, and IN_LEN. -/
theorem State.regRead_busy {r : Reg} (hr : r.readableWhileBusy = false) :
    s.regRead 4 r.offset = .error .readWhileBusy := by
  simp [State.regRead, regAt_of_offset, hr, h]

theorem State.inRead_busy {i : Nat} (hi : i < s.cfg.inCap.toNat) : s.inRead i = .error .readWhileBusy := by
  simp [State.inRead, h, Nat.not_le.mpr hi]

theorem State.outRead_busy {i : Nat} (hi : i < s.cfg.outCap.toNat) : s.outRead i = .error .readWhileBusy := by
  simp [State.outRead, h, Nat.not_le.mpr hi]

/-- While a command is pending a step of the host changes the host's own side alone: what else it could do is a write,
and each needs BUSY = 0. -/
theorem State.hostStep_busy {t : State} (hstep : s.hostStep = .next t) : ∃ g, t = s.withHost g := by
  rcases State.hostStep_next hstep with ⟨hidle, -⟩ | ⟨hidle, -⟩ | ⟨hidle, -⟩ | hown
  · exact Bool.noConfusion (hidle.symm.trans h)
  · exact Bool.noConfusion (hidle.symm.trans h)
  · exact Bool.noConfusion (hidle.symm.trans h)
  · exact hown

end

/-- The registers of R297 that a read returns at any time. -/
theorem State.regRead_readable (s : State) {r : Reg} (hr : r.readableWhileBusy = true) :
    s.regRead 4 r.offset = .ok (s.reg r) := by
  simp [State.regRead, regAt_of_offset, hr]

/-! ## The reset input -/

theorem step_of_resetInput {s : State} {rest : List Agent} (hs : s.schedule = .resetInput :: rest) :
    step s = .next (State.resetBlock { s with schedule := rest }) := by
  rw [step, hs]

/-- The registers after the reset input are those of the reset state in the same configuration. -/
theorem State.resetBlock_reg (s : State) (r : Reg) : s.resetBlock.reg r = (State.resetWith s.cfg).reg r := by
  cases r <;> rfl

/-! ## The statements -/

/-- Settles O43: the three writes are forbidden, and what is left to the host is a change of its own side. -/
theorem inputIsFixedWhileBusy : Obligations.InputIsFixedWhileBusy := by
  intro s h
  refine ⟨fun v => ⟨State.regWrite_busy (r := .cmd) h v rfl, State.regWrite_busy (r := .inLen) h v rfl⟩,
    fun i b hi => State.inWrite_busy h b hi, fun t hstep => ?_⟩
  obtain ⟨g, rfl⟩ := State.hostStep_busy h hstep
  exact ⟨rfl, rfl, rfl, rfl⟩

/-- Settles O42: the nine offsets are those of the registers that are not readable while BUSY = 1. -/
theorem readsWhileBusy : Obligations.ReadsWhileBusy := by
  intro s h
  have hbusy : ∀ r : Reg, r.readableWhileBusy = false → s.regRead 4 r.offset = .error .readWhileBusy :=
    fun _ => State.regRead_busy h
  have hread : ∀ r : Reg, r.readableWhileBusy = true → s.regRead 4 r.offset = .ok (s.reg r) :=
    fun _ => s.regRead_readable
  refine ⟨?_, fun i hi => State.inRead_busy h hi, fun i hi => State.outRead_busy h hi, hread .status rfl,
    hread .cmd rfl, hread .capIn rfl, hread .capOut rfl⟩
  simp only [List.forall_mem_cons]
  exact ⟨hbusy .inLen rfl, hbusy .outLen rfl, hbusy .frCtrl rfl, hbusy .frPlenLo rfl, hbusy .frPlenHi rfl,
    hbusy .frMaskKey rfl, hbusy .frFrameLen rfl, hbusy .classBits rfl, hbusy .result rfl, nofun⟩

/-- Settles O46: the step is `resetBlock`, whose registers are those of the reset state (R42). -/
theorem resetStepClearsTheBlock : Obligations.ResetStepClearsTheBlock := by
  intro s rest hs
  obtain ⟨hzero, -, -, hbusy, hunwritten⟩ := resetStateHasTheResetValues.1 s.cfg
  have herr : statusErr 0#32 = 0#4 := by decide
  exact ⟨_, step_of_resetInput hs, hbusy, herr,
    fun r hin hout => (State.resetBlock_reg _ r).trans (hzero r hin hout), rfl, rfl, hunwritten, rfl, rfl, rfl⟩

end Sys2Proof.Machine
end
